-- ==== Sys2Proof/Word.lean ====
section
/-! DEFINITION. The widths of the block's ports and formats (spec/00_scope.md R8, R16; spec/20_memory.md R43):
bit vectors with bit 0 least significant. -/

namespace Sys2Proof

/-- An opcode OP[7:0] (30_encoding.md R60). -/
abbrev OpCode := BitVec 8

/-- A 32-bit pattern: a float32, a posit32 or an int32, and the operand field B (00_scope.md R8). -/
abbrev Word := BitVec 32

/-- A 64-bit pattern: a binary64, the operand field A and the result register RES (00_scope.md R8). -/
abbrev DWord := BitVec 64

end Sys2Proof
end

