-- ==== Sys2Proof/Syntax.lean ====
section
/-! DEFINITION. A command as presented, the host's moves, and the 18 instructions, one constructor per row of
spec/opcode_table.json (spec/30_encoding.md R60 to R63).

Every constructor keeps the operand fields A and B whole: a command reads only part of them (10_state.md R35), but a
fault records them "exactly as presented" (10_state.md R25). -/

namespace Sys2Proof

/-- A command is the triple (OP, A, B) (30_encoding.md R60). -/
structure Command where
  op : OpCode
  a  : DWord
  b  : Word
  deriving DecidableEq, Repr

/-- What the host can do to the block (70_reset_and_hazards.md R251): present a command with START, or assert RST.
Reading an output is no move, since it has no side effect (20_memory.md R46). -/
inductive HostMove where
  | start (c : Command)
  | rst
  deriving DecidableEq, Repr

/-- The operand shapes of 30_encoding.md R62. -/
inductive Shape where
  /-- two 32-bit operands, 32-bit result -/
  | rr
  /-- one 32-bit operand, 32-bit result -/
  | r
  /-- one 64-bit operand, 32-bit result -/
  | d
  /-- one 32-bit operand, 64-bit result -/
  | rw
  deriving DecidableEq, Repr

/-- The assigned commands (30_encoding.md R63), in the table's order, with the operand fields A and B as presented. -/
inductive Instr where
  | fadd  (a : DWord) (b : Word)
  | fsub  (a : DWord) (b : Word)
  | fmul  (a : DWord) (b : Word)
  | fdiv  (a : DWord) (b : Word)
  | fsqrt (a : DWord) (b : Word)
  | i2f   (a : DWord) (b : Word)
  | f2i   (a : DWord) (b : Word)
  | padd  (a : DWord) (b : Word)
  | psub  (a : DWord) (b : Word)
  | pmul  (a : DWord) (b : Word)
  | pdiv  (a : DWord) (b : Word)
  | psqrt (a : DWord) (b : Word)
  | i2p   (a : DWord) (b : Word)
  | p2i   (a : DWord) (b : Word)
  | f2p   (a : DWord) (b : Word)
  | p2f   (a : DWord) (b : Word)
  | d2p   (a : DWord) (b : Word)
  | p2d   (a : DWord) (b : Word)
  deriving DecidableEq, Repr

/-- The shape column of 30_encoding.md R63. -/
def Instr.shape : Instr → Shape
  | .fadd _ _ => .rr
  | .fsub _ _ => .rr
  | .fmul _ _ => .rr
  | .fdiv _ _ => .rr
  | .fsqrt _ _ => .r
  | .i2f _ _ => .r
  | .f2i _ _ => .r
  | .padd _ _ => .rr
  | .psub _ _ => .rr
  | .pmul _ _ => .rr
  | .pdiv _ _ => .rr
  | .psqrt _ _ => .r
  | .i2p _ _ => .r
  | .p2i _ _ => .r
  | .f2p _ _ => .r
  | .p2f _ _ => .r
  | .d2p _ _ => .d
  | .p2d _ _ => .rw

/-- The operand field A as presented. -/
def Instr.fieldA : Instr → DWord
  | .fadd a _ => a
  | .fsub a _ => a
  | .fmul a _ => a
  | .fdiv a _ => a
  | .fsqrt a _ => a
  | .i2f a _ => a
  | .f2i a _ => a
  | .padd a _ => a
  | .psub a _ => a
  | .pmul a _ => a
  | .pdiv a _ => a
  | .psqrt a _ => a
  | .i2p a _ => a
  | .p2i a _ => a
  | .f2p a _ => a
  | .p2f a _ => a
  | .d2p a _ => a
  | .p2d a _ => a

/-- The operand field B as presented. -/
def Instr.fieldB : Instr → Word
  | .fadd _ b => b
  | .fsub _ b => b
  | .fmul _ b => b
  | .fdiv _ b => b
  | .fsqrt _ b => b
  | .i2f _ b => b
  | .f2i _ b => b
  | .padd _ b => b
  | .psub _ b => b
  | .pmul _ b => b
  | .pdiv _ b => b
  | .psqrt _ b => b
  | .i2p _ b => b
  | .p2i _ b => b
  | .f2p _ b => b
  | .p2f _ b => b
  | .d2p _ b => b
  | .p2d _ b => b

end Sys2Proof
end

