-- ==== Sys2Proof/Decode.lean ====
section
/-! DEFINITION. The decoder, total on every command, and after it the encoder, both from the opcode map of
spec/30_encoding.md R63. A decoder "identifies the operation from OP alone" (R60). -/

namespace Sys2Proof

/-- What decoding a command gives: an instruction, or the named rejection of a reserved OP (30_encoding.md R64). -/
inductive Decoded where
  | instr (i : Instr)
  | reserved (op : OpCode)
  deriving DecidableEq, Repr

/-- The instruction, if there is one. -/
def Decoded.toOption : Decoded → Option Instr
  | .instr i => some i
  | .reserved _ => none

/-- Decode a command by the opcode map of 30_encoding.md R63; every other OP is reserved (R64). -/
def decode (c : Command) : Decoded :=
  match c.op with
  | 0x00#8 => .instr (.fadd c.a c.b)
  | 0x01#8 => .instr (.fsub c.a c.b)
  | 0x02#8 => .instr (.fmul c.a c.b)
  | 0x03#8 => .instr (.fdiv c.a c.b)
  | 0x04#8 => .instr (.fsqrt c.a c.b)
  | 0x05#8 => .instr (.i2f c.a c.b)
  | 0x06#8 => .instr (.f2i c.a c.b)
  | 0x10#8 => .instr (.padd c.a c.b)
  | 0x11#8 => .instr (.psub c.a c.b)
  | 0x12#8 => .instr (.pmul c.a c.b)
  | 0x13#8 => .instr (.pdiv c.a c.b)
  | 0x14#8 => .instr (.psqrt c.a c.b)
  | 0x15#8 => .instr (.i2p c.a c.b)
  | 0x16#8 => .instr (.p2i c.a c.b)
  | 0x20#8 => .instr (.f2p c.a c.b)
  | 0x21#8 => .instr (.p2f c.a c.b)
  | 0x22#8 => .instr (.d2p c.a c.b)
  | 0x23#8 => .instr (.p2d c.a c.b)
  | op => .reserved op

/-- The command of an instruction (30_encoding.md R63). -/
def encode : Instr → Command
  | .fadd a b => ⟨0x00#8, a, b⟩
  | .fsub a b => ⟨0x01#8, a, b⟩
  | .fmul a b => ⟨0x02#8, a, b⟩
  | .fdiv a b => ⟨0x03#8, a, b⟩
  | .fsqrt a b => ⟨0x04#8, a, b⟩
  | .i2f a b => ⟨0x05#8, a, b⟩
  | .f2i a b => ⟨0x06#8, a, b⟩
  | .padd a b => ⟨0x10#8, a, b⟩
  | .psub a b => ⟨0x11#8, a, b⟩
  | .pmul a b => ⟨0x12#8, a, b⟩
  | .pdiv a b => ⟨0x13#8, a, b⟩
  | .psqrt a b => ⟨0x14#8, a, b⟩
  | .i2p a b => ⟨0x15#8, a, b⟩
  | .p2i a b => ⟨0x16#8, a, b⟩
  | .f2p a b => ⟨0x20#8, a, b⟩
  | .p2f a b => ⟨0x21#8, a, b⟩
  | .d2p a b => ⟨0x22#8, a, b⟩
  | .p2d a b => ⟨0x23#8, a, b⟩

/-- A command written as one number. DESIGN CHOICE (safe, log 5): OP in bits 7:0, where spec/opcode_table.json numbers
it, A in bits 71:8 and B in bits 103:72. The block itself takes the three on separate ports (10_state.md R34). -/
abbrev CommandWord := BitVec 104

/-- The three fields of a command word. -/
def Command.ofWord (w : CommandWord) : Command :=
  { op := w.extractLsb' 0 8, a := w.extractLsb' 8 64, b := w.extractLsb' 72 32 }

/-- A command as one word: B above A above OP. -/
def Command.toWord (c : Command) : CommandWord := (c.b ++ c.a ++ c.op).cast (by decide)

/-- Decode a command word. -/
def decodeWord (w : CommandWord) : Decoded := decode (Command.ofWord w)

/-- Encode an instruction as a command word. -/
def encodeWord (i : Instr) : CommandWord := (encode i).toWord

/-- The command a table row's word stands for: its nbits bits, every higher bit of the command zero. -/
def commandOfTableWord (nbits w : Nat) : Command := Command.ofWord (BitVec.ofNat 104 (w % 2 ^ nbits))

/-- The instruction the decoder reads from a word whose bits are numbered as spec/opcode_table.json numbers them. -/
def decodeTableWord (nbits w : Nat) : Option Instr := (decode (commandOfTableWord nbits w)).toOption

/-! ### Every opcode of 30_encoding.md R63 decodes to its instruction: the OP bits are written out from the table's
"bits" column. -/

theorem decode_fadd (a : DWord) (b : Word) : decode ⟨0b00000000#8, a, b⟩ = .instr (.fadd a b) := rfl
theorem decode_fsub (a : DWord) (b : Word) : decode ⟨0b00000001#8, a, b⟩ = .instr (.fsub a b) := rfl
theorem decode_fmul (a : DWord) (b : Word) : decode ⟨0b00000010#8, a, b⟩ = .instr (.fmul a b) := rfl
theorem decode_fdiv (a : DWord) (b : Word) : decode ⟨0b00000011#8, a, b⟩ = .instr (.fdiv a b) := rfl
theorem decode_fsqrt (a : DWord) (b : Word) : decode ⟨0b00000100#8, a, b⟩ = .instr (.fsqrt a b) := rfl
theorem decode_i2f (a : DWord) (b : Word) : decode ⟨0b00000101#8, a, b⟩ = .instr (.i2f a b) := rfl
theorem decode_f2i (a : DWord) (b : Word) : decode ⟨0b00000110#8, a, b⟩ = .instr (.f2i a b) := rfl
theorem decode_padd (a : DWord) (b : Word) : decode ⟨0b00010000#8, a, b⟩ = .instr (.padd a b) := rfl
theorem decode_psub (a : DWord) (b : Word) : decode ⟨0b00010001#8, a, b⟩ = .instr (.psub a b) := rfl
theorem decode_pmul (a : DWord) (b : Word) : decode ⟨0b00010010#8, a, b⟩ = .instr (.pmul a b) := rfl
theorem decode_pdiv (a : DWord) (b : Word) : decode ⟨0b00010011#8, a, b⟩ = .instr (.pdiv a b) := rfl
theorem decode_psqrt (a : DWord) (b : Word) : decode ⟨0b00010100#8, a, b⟩ = .instr (.psqrt a b) := rfl
theorem decode_i2p (a : DWord) (b : Word) : decode ⟨0b00010101#8, a, b⟩ = .instr (.i2p a b) := rfl
theorem decode_p2i (a : DWord) (b : Word) : decode ⟨0b00010110#8, a, b⟩ = .instr (.p2i a b) := rfl
theorem decode_f2p (a : DWord) (b : Word) : decode ⟨0b00100000#8, a, b⟩ = .instr (.f2p a b) := rfl
theorem decode_p2f (a : DWord) (b : Word) : decode ⟨0b00100001#8, a, b⟩ = .instr (.p2f a b) := rfl
theorem decode_d2p (a : DWord) (b : Word) : decode ⟨0b00100010#8, a, b⟩ = .instr (.d2p a b) := rfl
theorem decode_p2d (a : DWord) (b : Word) : decode ⟨0b00100011#8, a, b⟩ = .instr (.p2d a b) := rfl

end Sys2Proof
end

