-- ==== Sys2Proof/Machine/Primitives.lean ====
section
/-! DEFINITION. The primitives every unit uses (spec/40_primitives.md R100 to R108, spec/00_scope.md R16, R17), and
exact rationals as numerator and denominator (no rule uses a host floating-point number, R17). -/

namespace Sys2Proof.Machine

/-! ### Leading-zero count and shifts -/

/-- lzc32(x): 32 for 0, else 31 - ilog2(x) (40_primitives.md R100). -/
def lzc32 (x : Word) : Nat := if x = 0#32 then 32 else 31 - x.toNat.log2

/-- shr_N(v, n) = floor(v / 2^n), 0 when n >= N (40_primitives.md R102). -/
def shr {n : Nat} (v : BitVec n) (k : Nat) : BitVec n := if k < n then v >>> k else 0#n

/-- shl_N(v, n) = uN(v x 2^n), 0 when n >= N (40_primitives.md R103). -/
def shl {n : Nat} (v : BitVec n) (k : Nat) : BitVec n := if k < n then v <<< k else 0#n

/-- srs_N(v, n), the sticky right shift: any bit shifted out is ORed into the lowest bit (40_primitives.md R104). -/
def srs {n : Nat} (v : BitVec n) (k : Nat) : BitVec n :=
  shr v k ||| (if v.toNat % 2 ^ min k n = 0 then 0#n else BitVec.ofNat n 1)

/-! ### Integer helpers -/

/-- neg32(x), two's-complement negation (40_primitives.md R105). -/
def neg32 (x : Word) : Word := 0#32 - x

/-- mul64(a, b), the exact 64-bit product (40_primitives.md R106). -/
def mul64 (a b : Word) : DWord := a.setWidth 64 * b.setWidth 64

/-- udiv(n, d) = floor(n / d), for d > 0 (40_primitives.md R106). -/
def udiv (n d : Nat) : Nat := n / d

/-- urem(n, d) = n - d x udiv(n, d) (40_primitives.md R106). -/
def urem (n d : Nat) : Nat := n - d * udiv n d

/-- zext_64 of a 32-bit pattern (00_scope.md R16). -/
def zext64 (x : Word) : DWord := x.setWidth 64

/-- The sign bit x[31]. -/
def signOf (x : Word) : Bool := x.msb

/-- s << 31 for a sign s. -/
def signBit (s : Bool) : Word := if s then 0x80000000#32 else 0x00000000#32

/-! ### Rounding -/

/-- rne(n / d): the integer nearest to the rational, the even one on an exact tie (40_primitives.md R107). -/
def rne (n d : Nat) : Nat :=
  let f := udiv n d
  let twice := 2 * urem n d
  if twice < d then f
  else if d < twice then f + 1
  else if f % 2 = 0 then f else f + 1

/-- The correction table indexed by L, G, R, S: increment exactly when G = 1 and (L = 1 or R = 1 or S = 1)
(40_primitives.md R108). -/
def correction (l g r s : Bool) : Bool := g && (l || r || s)

/-- Rounding a value that carries three extra bits G, R, S below its lowest retained bit L, with the correction table;
then "those bits are shifted out" (40_primitives.md R108). -/
def roundByTable (v : Nat) : Nat :=
  v / 8 + (if correction (v.testBit 3) (v.testBit 2) (v.testBit 1) (v.testBit 0) then 1 else 0)

/-! ### Exact rationals -/

/-- An exact rational num / den (00_scope.md R17). Every value the rules build has den > 0. -/
structure Exact where
  num : Int
  den : Nat
  deriving DecidableEq, Repr

/-- The exact sum. -/
def Exact.add (p q : Exact) : Exact := ⟨p.num * q.den + q.num * p.den, p.den * q.den⟩

/-- The exact product. -/
def Exact.mul (p q : Exact) : Exact := ⟨p.num * q.num, p.den * q.den⟩

/-- The magnitude of the exact quotient p / q; no q = 0 reaches it (41_float_core.md R129 handles every zero). -/
def Exact.divAbs (p q : Exact) : Exact := ⟨(p.num.natAbs * q.den : Nat), p.den * q.num.natAbs⟩

/-- (-1)^s x m x 2^e, exactly. -/
def Exact.scaled (s : Bool) (m : Nat) (e : Int) : Exact :=
  let n : Int := (m * 2 ^ e.toNat : Nat)
  ⟨if s then -n else n, 2 ^ (-e).toNat⟩

/-- ilog2(n / d) for a positive rational: the integer E with 2^E <= n / d < 2^(E+1) (00_scope.md R17). The two
logarithms give E or E + 1, and one exact comparison decides. -/
def ilog2 (n d : Nat) : Int :=
  let e : Int := (n.log2 : Int) - (d.log2 : Int)
  if d * 2 ^ e.toNat ≤ n * 2 ^ (-e).toNat then e else e - 1

end Sys2Proof.Machine
end

