-- ==== Sys2Proof/Config.lean ====
section
/-! DEFINITION. What is fixed when the block is built (spec/00_scope.md R9 to R15): the build parameters with the
spec's defaults, and the numeric parameters of the formats and of the square-root loop. -/

namespace Sys2Proof

/-- The build parameters (00_scope.md R13, R14). No command and no reset changes them (70_reset_and_hazards.md R243). -/
structure Config where
  /-- TRAP_ON_INVALID (R13). -/
  trapOnInvalid : Bool
  /-- FLT_QNAN, the one pattern of every float NaN result (R14). -/
  fltQnan : Word
  /-- DBL_QNAN, the binary64 pattern P2D returns for NaR (R14). -/
  dblQnan : DWord
  deriving DecidableEq, Repr

/-- The spec's defaults (00_scope.md R13, R14; 70_reset_and_hazards.md R253). -/
def Config.default : Config :=
  { trapOnInvalid := false, fltQnan := 0x7FC00000#32, dblQnan := 0x7FF8000000000000#64 }

/-- FLT_QNAN is "constrained to have exponent field 255 and fraction bit 22 set" (00_scope.md R14). -/
def Config.fltQnanOk (c : Config) : Bool :=
  c.fltQnan.extractLsb' 23 8 == 255#8 && c.fltQnan.getLsbD 22

/-- DBL_QNAN is a binary64 quiet NaN (45_conversions.md R203 calls it so).
DEDUCED: 00_scope.md R14 states a bit constraint for FLT_QNAN only; safe, it is a premise of claims and no step reads it
(log 10). -/
def Config.dblQnanOk (c : Config) : Bool :=
  c.dblQnan.extractLsb' 52 11 == 2047#11 && c.dblQnan.getLsbD 51

/-- The build parameters the spec allows. -/
def Config.wf (c : Config) : Bool := c.fltQnanOk && c.dblQnanOk

/-- SQRT_MAX_ITER (00_scope.md R12). -/
def sqrtMaxIter : Nat := 100

/-- SQRT_THRESH (00_scope.md R12). -/
def sqrtThresh : Int := -17

/-- MAXEXP, the largest posit32 exponent (00_scope.md R10). -/
def maxExp : Int := 120

/-- MINEXP, the smallest posit32 exponent (00_scope.md R10). -/
def minExp : Int := -120

/-- The exponent bias of float32 (00_scope.md R9). -/
def fltBias : Int := 127

/-- The minimum normal unbiased exponent of float32 (00_scope.md R9). -/
def fltEmin : Int := -126

/-- The exponent bias of binary64 (00_scope.md R11). -/
def dblBias : Int := 1023

end Sys2Proof
end

