-- ==== Sys2Proof/Machine/State.lean ====
section
/-! DEFINITION. The block's state (spec/10_state.md R22 to R26, R36), the reasons a step could stop, and the state
after reset. -/

namespace Sys2Proof.Machine

/-- The reasons a step can stop with a fault: none. The spec gives every host move an effect: a trapped or illegal
command enters the faulted state, which is a next state with FAULT = 1 (60_exceptions.md R226, R227), and a START in
that state has no effect (R228). No one raises a constructor of this type, so the question of safe or unsafe does not
arise (log 3, log 6). -/
inductive Fault where
  deriving DecidableEq, Repr

/-- The reasons a step can be refused. -/
inductive Refusal where
  /-- Raised only by an arm of exec for an instruction without a meaning. No arm raises it: all 18 have one. Safe: the
  machine stops where the hardware goes on. -/
  | notModelled (mnemonic : String)
  deriving DecidableEq, Repr

/-- The state of the block (10_state.md R22 to R26; it has no other, R36), the build parameters, and the host's moves. -/
structure State where
  /-- RES: the result of the last command that completed without a fault (R22). -/
  res    : DWord
  /-- INV: the invalid-operation indicator of the last command that completed or trapped (R23). -/
  inv    : Bool
  /-- FAULT: the block has stopped (R24). -/
  fault  : Bool
  /-- CAUSE: why it stopped (R24). -/
  cause  : BitVec 4
  /-- FOP: the faulting command's OP (R25). -/
  fop    : OpCode
  /-- FA: the faulting command's A, as presented (R25). -/
  fa     : DWord
  /-- FB: the faulting command's B, as presented (R25). -/
  fb     : Word
  /-- BUSY: a command is being executed (R26). -/
  busy   : Bool
  /-- The build parameters: read only, kept by every step and by reset (00_scope.md R13, R14; log 1). -/
  cfg    : Config
  /-- The model's own field: the host moves still to come, the next one first (log 2). -/
  inputs : List HostMove
  deriving DecidableEq, Repr

/-- CAUSE values (10_state.md R24). -/
def causeNone : BitVec 4 := 0#4

/-- CAUSE = 1, INVALID_TRAP (10_state.md R24). -/
def causeInvalidTrap : BitVec 4 := 1#4

/-- CAUSE = 2, ILLEGAL_COMMAND (10_state.md R24). -/
def causeIllegalCommand : BitVec 4 := 2#4

/-- The reset state of 10_state.md R36, with the default build parameters (70_reset_and_hazards.md R253) and no host
move placed. -/
def State.reset : State :=
  { res := 0#64, inv := false, fault := false, cause := causeNone, fop := 0#8, fa := 0#64, fb := 0#32, busy := false,
    cfg := Config.default, inputs := [] }

end Sys2Proof.Machine
end

