-- ==== Sys2Proof/Machine/Ops.lean ====
section
/-! DEFINITION. The operations over State that every command shares: readiness and acceptance, completion, the two
exceptions, reset (spec/60_exceptions.md R220 to R228, spec/70_reset_and_hazards.md R240 to R246). -/

namespace Sys2Proof.Machine

/-- What Execute(OP, A, B) returns: the result r, already at the width of RES, and the invalid indicator inv
(60_exceptions.md R220). -/
structure Result where
  r   : DWord
  inv : Bool
  deriving DecidableEq, Repr

/-- A 32-bit result: RES <- zext_64(r) (10_state.md R22, 60_exceptions.md R220). -/
def Result.narrow (r : Word) (inv : Bool) : Result := ⟨zext64 r, inv⟩

/-- P2D's 64-bit result: all of RES is written (10_state.md R22, 60_exceptions.md R220). -/
def Result.wide (r : DWord) (inv : Bool) : Result := ⟨r, inv⟩

/-- READY = (BUSY = 0) and (FAULT = 0) (10_state.md R28). -/
def State.ready (s : State) : Bool := !s.busy && !s.fault

/-- The block accepts the command at the head of the host's moves: the move is consumed and BUSY = 1
(70_reset_and_hazards.md R245). `rest` is the moves after it. -/
def State.accept (s : State) (rest : List HostMove) : State := { s with inputs := rest, busy := true }

/-- A START while READY = 0 is ignored: it is consumed, "not queued, not counted and not reported", and no state element
of the block changes (70_reset_and_hazards.md R245, 60_exceptions.md R228; log 3). -/
def State.ignoreStart (s : State) (rest : List HostMove) : State := { s with inputs := rest }

/-- Asserting RST: every state element takes its value of 10_state.md R36; the build parameters are kept
(70_reset_and_hazards.md R240, R243), and so are the host's later moves, which are the host's. -/
def State.applyReset (s : State) (rest : List HostMove) : State := { State.reset with cfg := s.cfg, inputs := rest }

/-- raise InvalidTrap(OP, A, B): FAULT, CAUSE = 1, the report, INV = 1; RES is not written (60_exceptions.md R226).
BUSY returns to 0 (70_reset_and_hazards.md R245). -/
def raiseInvalidTrap (c : Command) (s : State) : State :=
  { s with fault := true, cause := causeInvalidTrap, fop := c.op, fa := c.a, fb := c.b, inv := true, busy := false }

/-- raise IllegalCommand(OP, A, B): FAULT, CAUSE = 2, the report; RES and INV are not written (60_exceptions.md R227).
BUSY returns to 0 (70_reset_and_hazards.md R245). -/
def raiseIllegalCommand (c : Command) (s : State) : State :=
  { s with fault := true, cause := causeIllegalCommand, fop := c.op, fa := c.a, fb := c.b, busy := false }

/-- Normal completion: RES <- r, INV <- inv, "and nothing else" (60_exceptions.md R220). BUSY returns to 0
(70_reset_and_hazards.md R245). -/
def completeNormally (o : Result) (s : State) : State := { s with res := o.r, inv := o.inv, busy := false }

/-- The end of every accepted command: the trap when inv = 1 and TRAP_ON_INVALID is true, else normal completion
(60_exceptions.md R220, R222). -/
def complete (c : Command) (o : Result) (s : State) : State :=
  if o.inv && s.cfg.trapOnInvalid then raiseInvalidTrap c s else completeNormally o s

/-- The host places a command as its next move. -/
def State.placeCommand (s : State) (c : Command) : State := { s with inputs := .start c :: s.inputs }

end Sys2Proof.Machine
end

