-- ==== Sys2Proof/Machine/Flags.lean ====
section
/-! DEFINITION. INV, the block's only flag (spec/10_state.md R23, R38; spec/60_exceptions.md R221), the status word
(10_state.md R27) and the output ports (R34). -/

namespace Sys2Proof.Machine

/-- inv of the five float commands: 1 exactly when the result r is FLT_QNAN (60_exceptions.md R221). -/
def floatInv (cfg : Config) (r : Word) : Bool := r == cfg.fltQnan

/-- The outcome of a float arithmetic command with result r. -/
def floatResult (cfg : Config) (r : Word) : Result := .narrow r (floatInv cfg r)

/-- The outcome of a command that is never invalid and has a 32-bit result: I2F, F2I, I2P, P2I, F2P, P2F, D2P
(60_exceptions.md R221). -/
def neverInvalid (r : Word) : Result := .narrow r false

/-- STATUS: [0] INV, [1] FAULT, [2] READY, [3] TRAP_ON_INVALID, [7:4] CAUSE (10_state.md R27). -/
def State.status (s : State) : BitVec 8 :=
  s.cause ++ BitVec.ofBool s.cfg.trapOnInvalid ++ BitVec.ofBool s.ready ++ BitVec.ofBool s.fault ++ BitVec.ofBool s.inv

/-- The output ports (10_state.md R34). -/
structure Outputs where
  ready  : Bool
  res    : DWord
  inv    : Bool
  fault  : Bool
  cause  : BitVec 4
  fop    : OpCode
  fa     : DWord
  fb     : Word
  status : BitVec 8
  deriving DecidableEq, Repr

/-- What the host reads on the output ports; reading has no side effect (10_state.md R34; 20_memory.md R46). -/
def State.outputs (s : State) : Outputs :=
  { ready := s.ready, res := s.res, inv := s.inv, fault := s.fault, cause := s.cause, fop := s.fop, fa := s.fa,
    fb := s.fb, status := s.status }

end Sys2Proof.Machine
end

