-- ==== Sys2Proof/Machine/FloatCore.lean ====
section
/-! DEFINITION. The binary-float unit's core: classification, unpacking, values, the special-value tables, and the one
rounding-and-packing function (spec/41_float_core.md R120 to R132). -/

namespace Sys2Proof.Machine

/-! ### Named patterns (10_state.md R31, R33) -/

def fPZero : Word := 0x00000000#32
def fNZero : Word := 0x80000000#32
def fPInf : Word := 0x7F800000#32
def fNInf : Word := 0xFF800000#32
def fOne : Word := 0x3F800000#32
def fTwo : Word := 0x40000000#32
def int32Max : Word := 0x7FFFFFFF#32
def int32Min : Word := 0x80000000#32

/-! ### Classification and unpacking -/

/-- The float categories (41_float_core.md R120). -/
inductive FClass where
  | nan
  | posInf
  | negInf
  | posZero
  | negZero
  | normal
  deriving DecidableEq, Repr

/-- The category codes; no port shows them (41_float_core.md R120). -/
def FClass.code : FClass → Nat
  | .nan => 0
  | .posInf => 1
  | .negInf => 2
  | .posZero => 3
  | .negZero => 4
  | .normal => 5

/-- The biased exponent field x[30:23] (30_encoding.md R70). -/
def fexpField (x : Word) : Nat := (x.extractLsb' 23 8).toNat

/-- The fraction field x[22:0] (30_encoding.md R70). -/
def ffracField (x : Word) : Nat := (x.extractLsb' 0 23).toNat

/-- fclass(x) (41_float_core.md R121). -/
def fclass (x : Word) : FClass :=
  if fexpField x = 255 ∧ ffracField x ≠ 0 then .nan
  else if fexpField x = 255 then (if signOf x then .negInf else .posInf)
  else if fexpField x = 0 ∧ ffracField x = 0 then (if signOf x then .negZero else .posZero)
  else .normal

/-- An unpacked Normal: sign, unbiased exponent, 24-bit significand (41_float_core.md R122). -/
structure FUnpacked where
  s : Bool
  e : Int
  m : Nat
  deriving DecidableEq, Repr

/-- funpack(x), for a Normal x; a subnormal is renormalised with the leading-zero count (41_float_core.md R122). -/
def funpack (x : Word) : FUnpacked :=
  if fexpField x ≠ 0 then ⟨signOf x, (fexpField x : Int) - fltBias, 2 ^ 23 + ffracField x⟩
  else
    let f := BitVec.ofNat 32 (ffracField x)
    let sh := lzc32 f - 8
    ⟨signOf x, fltEmin - (sh : Int), (shl f sh).toNat⟩

/-- fvalue(x): (-1)^s x m x 2^(e-23) for a Normal x, 0 for the zeros (41_float_core.md R123). Infinities and NaNs have
no rational value; the tables handle them and this function's 0 for them reaches no result (log 7). -/
def fvalue (x : Word) : Exact :=
  match fclass x with
  | .normal => Exact.scaled (funpack x).s (funpack x).m ((funpack x).e - 23)
  | .nan => ⟨0, 1⟩
  | .posInf => ⟨0, 1⟩
  | .negInf => ⟨0, 1⟩
  | .posZero => ⟨0, 1⟩
  | .negZero => ⟨0, 1⟩

/-- fneg(x) = x ^ 0x80000000, for every pattern (41_float_core.md R125). -/
def fneg (x : Word) : Word := x ^^^ 0x80000000#32

/-! ### Special-value tables: the row is the class of a, the column the class of b; none is the cell K -/

/-- Inf(s) (41_float_core.md section 4). -/
def fInf (s : Bool) : Word := signBit s ||| 0x7F800000#32

/-- 0(s) (41_float_core.md section 4). -/
def fZero (s : Bool) : Word := signBit s

/-- The sign a[31] ^ b[31]. -/
def signXor (a b : Word) : Bool := xor (signOf a) (signOf b)

/-- fspecial_add(a, b) (41_float_core.md R127); q is FLT_QNAN. -/
def fspecialAdd (q a b : Word) : Option Word :=
  match fclass a, fclass b with
  | .nan, _ => some q
  | _, .nan => some q
  | .posInf, .posInf => some fPInf
  | .posInf, .negInf => some q
  | .posInf, _ => some fPInf
  | .negInf, .posInf => some q
  | .negInf, .negInf => some fNInf
  | .negInf, _ => some fNInf
  | _, .posInf => some fPInf
  | _, .negInf => some fNInf
  | .posZero, .posZero => some fPZero
  | .posZero, .negZero => some fPZero
  | .posZero, .normal => some b
  | .negZero, .posZero => some fPZero
  | .negZero, .negZero => some fNZero
  | .negZero, .normal => some b
  | .normal, .posZero => some a
  | .normal, .negZero => some a
  | .normal, .normal => none

/-- fspecial_mul(a, b) (41_float_core.md R128); q is FLT_QNAN. Every cell but Q and K has sign a[31] ^ b[31]. -/
def fspecialMul (q a b : Word) : Option Word :=
  match fclass a, fclass b with
  | .nan, _ => some q
  | _, .nan => some q
  | .posInf, .posInf => some fPInf
  | .posInf, .negInf => some fNInf
  | .posInf, .posZero => some q
  | .posInf, .negZero => some q
  | .posInf, .normal => some (fInf (signXor a b))
  | .negInf, .posInf => some fNInf
  | .negInf, .negInf => some fPInf
  | .negInf, .posZero => some q
  | .negInf, .negZero => some q
  | .negInf, .normal => some (fInf (signXor a b))
  | .posZero, .posInf => some q
  | .posZero, .negInf => some q
  | .posZero, .posZero => some fPZero
  | .posZero, .negZero => some fNZero
  | .posZero, .normal => some (fZero (signXor a b))
  | .negZero, .posInf => some q
  | .negZero, .negInf => some q
  | .negZero, .posZero => some fNZero
  | .negZero, .negZero => some fPZero
  | .negZero, .normal => some (fZero (signXor a b))
  | .normal, .posInf => some (fInf (signXor a b))
  | .normal, .negInf => some (fInf (signXor a b))
  | .normal, .posZero => some (fZero (signXor a b))
  | .normal, .negZero => some (fZero (signXor a b))
  | .normal, .normal => none

/-- fspecial_div(a, b) for a / b (41_float_core.md R129); q is FLT_QNAN. -/
def fspecialDiv (q a b : Word) : Option Word :=
  match fclass a, fclass b with
  | .nan, _ => some q
  | _, .nan => some q
  | .posInf, .posInf => some q
  | .posInf, .negInf => some q
  | .posInf, .posZero => some fPInf
  | .posInf, .negZero => some fNInf
  | .posInf, .normal => some (fInf (signXor a b))
  | .negInf, .posInf => some q
  | .negInf, .negInf => some q
  | .negInf, .posZero => some fNInf
  | .negInf, .negZero => some fPInf
  | .negInf, .normal => some (fInf (signXor a b))
  | .posZero, .posInf => some fPZero
  | .posZero, .negInf => some fNZero
  | .posZero, .posZero => some q
  | .posZero, .negZero => some q
  | .posZero, .normal => some (fZero (signXor a b))
  | .negZero, .posInf => some fNZero
  | .negZero, .negInf => some fPZero
  | .negZero, .posZero => some q
  | .negZero, .negZero => some q
  | .negZero, .normal => some (fZero (signXor a b))
  | .normal, .posInf => some (fZero (signXor a b))
  | .normal, .negInf => some (fZero (signXor a b))
  | .normal, .posZero => some (fInf (signXor a b))
  | .normal, .negZero => some (fInf (signXor a b))
  | .normal, .normal => none

/-! ### Rounding and packing -/

/-- The quantum exponent Q = max(E, -126) - 23 of RoundPack32: 2^Q is the weight of the last kept bit
(41_float_core.md R130). -/
def quantumExp (n d : Nat) : Int := max (ilog2 n d) fltEmin - 23

/-- N = rne(r / 2^Q) for r = n / d (41_float_core.md R130). -/
def roundedSig (n d : Nat) : Nat :=
  let q := quantumExp n d
  rne (n * 2 ^ (-q).toNat) (d * 2 ^ q.toNat)

/-- The packing half of RoundPack32: a significand N at quantum exponent Q becomes a normal, a subnormal or zero, or the
signed infinity past the largest biased exponent (41_float_core.md R130 to R132). -/
def packRounded (s : Bool) (n : Nat) (q : Int) : Word :=
  if 2 ^ 23 ≤ n then
    let b := q + 150
    if 255 ≤ b then signBit s ||| 0x7F800000#32
    else signBit s ||| (BitVec.ofNat 32 b.toNat <<< 23) ||| BitVec.ofNat 32 (n - 2 ^ 23)
  else signBit s ||| BitVec.ofNat 32 n

/-- RoundPack32(s, r) for the exact rational r = n / d > 0: round to nearest, ties to even, gradual underflow, overflow
to infinity (41_float_core.md R130). -/
def roundPack32 (s : Bool) (n d : Nat) : Word :=
  let sig := roundedSig n d
  let q := quantumExp n d
  if sig = 2 ^ 24 then packRounded s (2 ^ 23) (q + 1) else packRounded s sig q

end Sys2Proof.Machine
end

