-- ==== Sys2Proof/Machine/Operands.lean ====
section
/-! DEFINITION. The operand forms (spec/30_encoding.md R62, spec/10_state.md R35): which bits of the operand fields a
command reads. No operand is extended, scaled or assembled from command bits. -/

namespace Sys2Proof.Machine

/-- The 32-bit operand a = A[31:0] of shapes RR, R and RW (30_encoding.md R62). -/
def operandA (a : DWord) : Word := a.extractLsb' 0 32

/-- The 32-bit operand b = B[31:0] of shape RR (30_encoding.md R62). -/
def operandB (b : Word) : Word := b

/-- The 64-bit operand d = A[63:0] of shape D (30_encoding.md R62). -/
def operandD (a : DWord) : DWord := a

end Sys2Proof.Machine
end

