-- ==== Sys2Proof/Machine/PositCore.lean ====
section
/-! DEFINITION. The posit unit's core: classes, negation, regime decode and encode, and the short-circuit tables
(spec/43_posit_core.md R160 to R172). -/

namespace Sys2Proof.Machine

/-! ### Named patterns (10_state.md R32) -/

def pZero : Word := 0x00000000#32
def pNaR : Word := 0x80000000#32
def pOne : Word := 0x40000000#32
def pTwo : Word := 0x48000000#32

/-- The posit classes (43_posit_core.md R161). -/
inductive PClass where
  | zero
  | nar
  | finite
  deriving DecidableEq, Repr

/-- The class of a pattern (43_posit_core.md R161). -/
def pclass (p : Word) : PClass := if p = pZero then .zero else if p = pNaR then .nar else .finite

/-- pneg(p): the two's complement of the whole pattern (43_posit_core.md R163). -/
def pneg (p : Word) : Word := neg32 p

/-- An unpacked posit: sign, true scale, left-justified significand with sig[31] = 1 (43_posit_core.md R164). -/
structure PUnpacked where
  s   : Bool
  exp : Int
  sig : Word
  deriving DecidableEq, Repr

/-- The 31 magnitude bits left-justified: t of pdecode (43_posit_core.md R165). -/
def pmagBits (p : Word) : Word := shl (if signOf p then neg32 p else p) 1

/-- The length m of the regime run, by leading-zero count on the possibly complemented pattern
(43_posit_core.md R165). -/
def regimeLen (t : Word) : Nat := if t.msb then lzc32 (~~~t) else lzc32 t

/-- The regime value k: m - 1 for a run of ones, -m for a run of zeros (43_posit_core.md R162, R165). -/
def regimeVal (t : Word) : Int := if t.msb then (regimeLen t : Int) - 1 else -(regimeLen t : Int)

/-- pdecode(p), for a Finite p (43_posit_core.md R165). What it gives for Zero and NaR reaches no result: the
short-circuit tables take them first (log 7). -/
def pdecode (p : Word) : PUnpacked :=
  let t := pmagBits p
  let r := shl t (regimeLen t + 1)
  { s := signOf p,
    exp := 4 * regimeVal t + ((r.extractLsb' 30 2).toNat : Int),
    sig := 0x80000000#32 ||| shr (shl r 2) 1 }

/-- The regime bit string of the value k, as (length, bits): k + 1 ones and a zero, or -k zeros and a one
(43_posit_core.md R166). -/
def regimeBits (k : Int) : Nat × Nat :=
  if 0 ≤ k then (k.toNat + 2, 2 ^ (k.toNat + 2) - 2) else ((-k).toNat + 1, 1)

/-- The magnitude of pencode: the first 31 bits of regime ++ exponent ++ sig[30:0] (43_posit_core.md R166). -/
def pmagnitude (exp : Int) (sig : Word) : Word :=
  let k := exp / 4
  let e := (exp - 4 * k).toNat
  let reg := regimeBits k
  let len := reg.1 + 2 + 31
  let str := (reg.2 * 4 + e) * 2 ^ 31 + sig.toNat % 2 ^ 31
  BitVec.ofNat 32 (str / 2 ^ (len - 31))

/-- pencode(s, exp, sig): truncating, and saturating to NaR above MAXEXP and to zero below MINEXP
(43_posit_core.md R166). -/
def pencode (s : Bool) (exp : Int) (sig : Word) : Word :=
  if maxExp < exp then pNaR
  else if exp < minExp then pZero
  else if s then neg32 (pmagnitude exp sig) else pmagnitude exp sig

/-! ### Short-circuit tables -/

/-- The result r and the invalid indicator inv of a posit command (44_posit_ops.md). -/
structure PResult where
  r   : Word
  inv : Bool
  deriving DecidableEq, Repr

/-- A plain result: inv = 0. -/
def PResult.valid (r : Word) : PResult := ⟨r, false⟩

/-- NaR! : NaR, and the command is invalid (43_posit_core.md section 3). -/
def PResult.invalidNaR : PResult := ⟨pNaR, true⟩

/-- pspecial_add(a, b) (43_posit_core.md R170). -/
def pspecialAdd (a b : Word) : Option PResult :=
  match pclass a, pclass b with
  | .zero, .zero => some (.valid pZero)
  | .zero, .nar => some (.valid pNaR)
  | .zero, .finite => some (.valid b)
  | .nar, .zero => some (.valid pNaR)
  | .nar, .nar => some .invalidNaR
  | .nar, .finite => some (.valid pNaR)
  | .finite, .zero => some (.valid a)
  | .finite, .nar => some (.valid pNaR)
  | .finite, .finite => none

/-- pspecial_mul(a, b) (43_posit_core.md R171). -/
def pspecialMul (a b : Word) : Option PResult :=
  match pclass a, pclass b with
  | .zero, .zero => some (.valid pZero)
  | .zero, .nar => some .invalidNaR
  | .zero, .finite => some (.valid pZero)
  | .nar, .zero => some .invalidNaR
  | .nar, .nar => some (.valid pNaR)
  | .nar, .finite => some (.valid pNaR)
  | .finite, .zero => some (.valid pZero)
  | .finite, .nar => some (.valid pNaR)
  | .finite, .finite => none

/-- pspecial_div(a, b) for a / b (43_posit_core.md R172). -/
def pspecialDiv (a b : Word) : Option PResult :=
  match pclass a, pclass b with
  | .zero, .zero => some .invalidNaR
  | .zero, .nar => some (.valid pZero)
  | .zero, .finite => some (.valid pZero)
  | .nar, .zero => some (.valid pNaR)
  | .nar, .nar => some .invalidNaR
  | .nar, .finite => some (.valid pNaR)
  | .finite, .zero => some (.valid pNaR)
  | .finite, .nar => some (.valid pZero)
  | .finite, .finite => none

end Sys2Proof.Machine
end

