-- ==== Sys2Proof/Machine/Convert.lean ====
section
/-! DEFINITION. The conversion unit's commands (spec/45_conversions.md R200 to R203). Every conversion has inv = 0 and
none traps (60_exceptions.md R221). -/

namespace Sys2Proof.Machine

/-! ### Result functions -/

/-- F2P(x) (45_conversions.md R200). -/
def f2p (x : Word) : Word :=
  match fclass x with
  | .nan => pNaR
  | .posInf => pNaR
  | .negInf => pNaR
  | .posZero => pZero
  | .negZero => pZero
  | .normal =>
    let u := funpack x
    pencode u.s u.e (shl (BitVec.ofNat 32 u.m) 8)

/-- P2F of a Finite posit, truncating; the two range branches are "unreachable at ES = 2" (45_conversions.md R201). -/
def p2fFinite (u : PUnpacked) : Word :=
  if 127 < u.exp then signBit u.s ||| 0x7F800000#32
  else if u.exp < -126 then signBit u.s ||| shr u.sig (8 + (-126 - u.exp)).toNat
  else signBit u.s ||| (BitVec.ofNat 32 (u.exp + fltBias).toNat <<< 23) |||
    ((shr u.sig 8).extractLsb' 0 23).setWidth 32

/-- P2F(p); q is FLT_QNAN (45_conversions.md R201). -/
def p2f (q p : Word) : Word :=
  match pclass p with
  | .zero => fPZero
  | .nar => q
  | .finite => p2fFinite (pdecode p)

/-- The biased exponent field d[62:52] of a binary64 (30_encoding.md R71). -/
def dexpField (d : DWord) : Nat := (d.extractLsb' 52 11).toNat

/-- The fraction field d[51:0] of a binary64 (30_encoding.md R71). -/
def dfracField (d : DWord) : Nat := (d.extractLsb' 0 52).toNat

/-- D2P(d) (45_conversions.md R202). -/
def d2p (d : DWord) : Word :=
  if dexpField d = 2047 then pNaR
  else if dexpField d = 0 then pZero
  else
    let sig := (shr (BitVec.ofNat 64 (2 ^ 52 + dfracField d)) 21).extractLsb' 0 32
    pencode d.msb ((dexpField d : Int) - dblBias) sig

/-- P2D of a Finite posit, exact (45_conversions.md R203). -/
def p2dFinite (u : PUnpacked) : DWord :=
  (if u.s then 0x8000000000000000#64 else 0#64) ||| (BitVec.ofNat 64 (u.exp + dblBias).toNat <<< 52) |||
    (((u.sig.extractLsb' 0 31).setWidth 64) <<< 21)

/-- P2D(p); q is DBL_QNAN (45_conversions.md R203). -/
def p2d (q : DWord) (p : Word) : DWord :=
  match pclass p with
  | .zero => 0#64
  | .nar => q
  | .finite => p2dFinite (pdecode p)

/-! ### Meanings -/

/-- F2P (45_conversions.md R200); B is ignored. -/
def execF2p (a : DWord) (b : Word) (s : State) : Host.Outcome State Fault Refusal :=
  .next (complete (encode (.f2p a b)) (neverInvalid (f2p (operandA a))) s)

/-- P2F (45_conversions.md R201); B is ignored. -/
def execP2f (a : DWord) (b : Word) (s : State) : Host.Outcome State Fault Refusal :=
  .next (complete (encode (.p2f a b)) (neverInvalid (p2f s.cfg.fltQnan (operandA a))) s)

/-- D2P (45_conversions.md R202); B is ignored. -/
def execD2p (a : DWord) (b : Word) (s : State) : Host.Outcome State Fault Refusal :=
  .next (complete (encode (.d2p a b)) (neverInvalid (d2p (operandD a))) s)

/-- P2D (45_conversions.md R203), the one command with a 64-bit result; B is ignored. -/
def execP2d (a : DWord) (b : Word) (s : State) : Host.Outcome State Fault Refusal :=
  .next (complete (encode (.p2d a b)) (.wide (p2d s.cfg.dblQnan (operandA a)) false) s)

end Sys2Proof.Machine
end

