-- ==== Sys2Proof/Machine/Float.lean ====
section
/-! DEFINITION. The binary-float unit's commands (spec/42_float_ops.md R140 to R148): the result function of each, and
its meaning, which completes by spec/60_exceptions.md R220. In the result functions q is FLT_QNAN. -/

namespace Sys2Proof.Machine

/-! ### Result functions -/

/-- FADD(a, b) (42_float_ops.md R140). -/
def fAdd (q a b : Word) : Word :=
  match fspecialAdd q a b with
  | some t => t
  | none =>
    let v := (fvalue a).add (fvalue b)
    if v.num = 0 then fPZero else roundPack32 (decide (v.num < 0)) v.num.natAbs v.den

/-- FSUB(a, b) = FADD(a, fneg(b)) (42_float_ops.md R141). -/
def fSub (q a b : Word) : Word := fAdd q a (fneg b)

/-- FMUL(a, b) (42_float_ops.md R142). -/
def fMul (q a b : Word) : Word :=
  match fspecialMul q a b with
  | some t => t
  | none =>
    let v := (fvalue a).mul (fvalue b)
    roundPack32 (signXor a b) v.num.natAbs v.den

/-- FDIV(a, b) (42_float_ops.md R143). -/
def fDiv (q a b : Word) : Word :=
  match fspecialDiv q a b with
  | some t => t
  | none =>
    let v := (fvalue a).divAbs (fvalue b)
    roundPack32 (signXor a b) v.num.natAbs v.den

/-- fsqrt_guess(x): the exponent halved by floor, the normalised fraction kept (42_float_ops.md R144). -/
def fsqrtGuess (x : Word) : Word :=
  let u := funpack x
  (BitVec.ofNat 32 (u.e / 2 + fltBias).toNat <<< 23) ||| BitVec.ofNat 32 (u.m - 2 ^ 23)

/-- fconverged(d): d[30:23] <= 127 + SQRT_THRESH = 110 (42_float_ops.md R145). -/
def fconverged (d : Word) : Bool := decide ((fexpField d : Int) ≤ fltBias + sqrtThresh)

/-- One Newton step: s <- FDIV(FADD(s, FDIV(x, s)), F_TWO) (42_float_ops.md R146). -/
def fsqrtStep (q x s : Word) : Word := fDiv q (fAdd q s (fDiv q x s)) fTwo

/-- The residual d <- FSUB(FMUL(s, s), x) (42_float_ops.md R146). -/
def fsqrtResidual (q x s : Word) : Word := fSub q (fMul q s s) x

/-- The loop of FSQRT with `n` iterations left: update, then test (42_float_ops.md R146). -/
def fsqrtLoop (q x : Word) : Nat → Word → Word
  | 0, s => s
  | n + 1, s =>
    let s' := fsqrtStep q x s
    if fconverged (fsqrtResidual q x s') then s' else fsqrtLoop q x n s'

/-- FSQRT(x) (42_float_ops.md R146). -/
def fSqrt (q x : Word) : Word :=
  match fclass x with
  | .nan => q
  | .negInf => q
  | .posInf => fPInf
  | .posZero => fPZero
  | .negZero => fNZero
  | .normal => if signOf x then q else fsqrtLoop q x sqrtMaxIter (fsqrtGuess x)

/-- I2F(n) (42_float_ops.md R147). -/
def i2f (n : Word) : Word :=
  if n = 0x00000000#32 then 0x00000000#32
  else if n = 0x80000000#32 then 0xCF000000#32
  else roundPack32 (decide (n.toInt < 0)) n.toInt.natAbs 1

/-- F2I of a Normal: truncate toward zero, saturate (42_float_ops.md R148). -/
def f2iNormal (u : FUnpacked) : Word :=
  if u.e < 0 then 0x00000000#32
  else if 31 ≤ u.e then (if u.s then int32Min else int32Max)
  else
    let m := BitVec.ofNat 32 u.m
    let mag := if u.e ≤ 23 then shr m (23 - u.e).toNat else shl m (u.e - 23).toNat
    if u.s then neg32 mag else mag

/-- F2I(x) (42_float_ops.md R148). -/
def f2i (x : Word) : Word :=
  match fclass x with
  | .nan => 0x00000000#32
  | .posInf => int32Max
  | .negInf => int32Min
  | .posZero => 0x00000000#32
  | .negZero => 0x00000000#32
  | .normal => f2iNormal (funpack x)

/-! ### Meanings -/

/-- FADD (42_float_ops.md R140). -/
def execFadd (a : DWord) (b : Word) (s : State) : Host.Outcome State Fault Refusal :=
  .next (complete (encode (.fadd a b)) (floatResult s.cfg (fAdd s.cfg.fltQnan (operandA a) (operandB b))) s)

/-- FSUB (42_float_ops.md R141). -/
def execFsub (a : DWord) (b : Word) (s : State) : Host.Outcome State Fault Refusal :=
  .next (complete (encode (.fsub a b)) (floatResult s.cfg (fSub s.cfg.fltQnan (operandA a) (operandB b))) s)

/-- FMUL (42_float_ops.md R142). -/
def execFmul (a : DWord) (b : Word) (s : State) : Host.Outcome State Fault Refusal :=
  .next (complete (encode (.fmul a b)) (floatResult s.cfg (fMul s.cfg.fltQnan (operandA a) (operandB b))) s)

/-- FDIV (42_float_ops.md R143). -/
def execFdiv (a : DWord) (b : Word) (s : State) : Host.Outcome State Fault Refusal :=
  .next (complete (encode (.fdiv a b)) (floatResult s.cfg (fDiv s.cfg.fltQnan (operandA a) (operandB b))) s)

/-- FSQRT (42_float_ops.md R146); B is ignored. -/
def execFsqrt (a : DWord) (b : Word) (s : State) : Host.Outcome State Fault Refusal :=
  .next (complete (encode (.fsqrt a b)) (floatResult s.cfg (fSqrt s.cfg.fltQnan (operandA a))) s)

/-- I2F (42_float_ops.md R147); B is ignored. -/
def execI2f (a : DWord) (b : Word) (s : State) : Host.Outcome State Fault Refusal :=
  .next (complete (encode (.i2f a b)) (neverInvalid (i2f (operandA a))) s)

/-- F2I (42_float_ops.md R148); B is ignored. -/
def execF2i (a : DWord) (b : Word) (s : State) : Host.Outcome State Fault Refusal :=
  .next (complete (encode (.f2i a b)) (neverInvalid (f2i (operandA a))) s)

end Sys2Proof.Machine
end

