-- ==== Sys2Proof/Machine/Posit.lean ====
section
/-! DEFINITION. The posit unit's commands (spec/44_posit_ops.md R180 to R188): the result function of each, and its
meaning, which completes by spec/60_exceptions.md R220. The unit truncates and never rounds. -/

namespace Sys2Proof.Machine

/-! ### Result functions -/

/-- The kernel of PADD on two unpacked operands, the first with the larger or equal exponent: same signs
(44_posit_ops.md R180). -/
def paddSame (u v : PUnpacked) : Word :=
  let d := (u.exp - v.exp).toNat
  let sum := shr u.sig 1 + shr v.sig (d + 1)
  if sum.msb then pencode u.s (u.exp + 1) sum else pencode u.s u.exp (shl sum 1)

/-- The kernel of PADD on two unpacked operands, the first with the larger or equal exponent: different signs
(44_posit_ops.md R180). -/
def paddDiff (u v : PUnpacked) : Word :=
  let d := (u.exp - v.exp).toNat
  let m2 := shr v.sig d
  let s := if m2.toNat ≤ u.sig.toNat then u.s else v.s
  let diff := if m2.toNat ≤ u.sig.toNat then u.sig - m2 else m2 - u.sig
  if diff = 0#32 then pZero
  else
    let lz := lzc32 diff
    pencode s (u.exp - (lz : Int)) (shl diff lz)

/-- The kernel of PADD: order by exponent, then add or subtract (44_posit_ops.md R180). -/
def paddKernel (u v : PUnpacked) : Word :=
  let x := if u.exp < v.exp then v else u
  let y := if u.exp < v.exp then u else v
  if x.s = y.s then paddSame x y else paddDiff x y

/-- PADD(a, b) (44_posit_ops.md R180). -/
def pAdd (a b : Word) : PResult :=
  match pspecialAdd a b with
  | some t => t
  | none => .valid (paddKernel (pdecode a) (pdecode b))

/-- PSUB(a, b) = PADD(a, pneg(b)) (44_posit_ops.md R181). -/
def pSub (a b : Word) : PResult := pAdd a (pneg b)

/-- The kernel of PMUL (44_posit_ops.md R182). -/
def pmulKernel (u v : PUnpacked) : Word :=
  let s := xor u.s v.s
  let p := mul64 u.sig v.sig
  if p.msb then pencode s (u.exp + v.exp + 1) (p.extractLsb' 32 32)
  else pencode s (u.exp + v.exp) (p.extractLsb' 31 32)

/-- PMUL(a, b) (44_posit_ops.md R182). -/
def pMul (a b : Word) : PResult :=
  match pspecialMul a b with
  | some t => t
  | none => .valid (pmulKernel (pdecode a) (pdecode b))

/-- The kernel of PDIV; the divisor significand is at least 2^31, so never zero (44_posit_ops.md R183). -/
def pdivKernel (u v : PUnpacked) : Word :=
  let s := xor u.s v.s
  let q : Word := BitVec.ofNat 32 (udiv (u.sig.toNat * 2 ^ 31) v.sig.toNat)
  if q.msb then pencode s (u.exp - v.exp) q else pencode s (u.exp - v.exp - 1) (shl q 1)

/-- PDIV(a, b) (44_posit_ops.md R183). -/
def pDiv (a b : Word) : PResult :=
  match pspecialDiv a b with
  | some t => t
  | none => .valid (pdivKernel (pdecode a) (pdecode b))

/-- psqrt_guess(x): the exponent halved by floor (44_posit_ops.md R184). -/
def psqrtGuess (x : Word) : Word :=
  let u := pdecode x
  pencode false (u.exp / 2) u.sig

/-- pconverged(d): d is zero, or Finite with exponent at most SQRT_THRESH; a NaR residual is not converged
(44_posit_ops.md R185). -/
def pconverged (d : Word) : Bool :=
  match pclass d with
  | .zero => true
  | .nar => false
  | .finite => decide ((pdecode d).exp ≤ sqrtThresh)

/-- One Newton step: s <- PDIV(PADD(s, PDIV(x, s)), P_TWO) (44_posit_ops.md R186). -/
def psqrtStep (x s : Word) : Word := (pDiv (pAdd s (pDiv x s).r).r pTwo).r

/-- The residual d <- PSUB(PMUL(s, s), x) (44_posit_ops.md R186). -/
def psqrtResidual (x s : Word) : Word := (pSub (pMul s s).r x).r

/-- The loop of PSQRT with `n` iterations left: update, then test (44_posit_ops.md R186). -/
def psqrtLoop (x : Word) : Nat → Word → Word
  | 0, s => s
  | n + 1, s =>
    let s' := psqrtStep x s
    if pconverged (psqrtResidual x s') then s' else psqrtLoop x n s'

/-- PSQRT(x) (44_posit_ops.md R186). -/
def pSqrt (x : Word) : PResult :=
  match pclass x with
  | .zero => .valid pZero
  | .nar => .valid pNaR
  | .finite => if signOf x then .invalidNaR else .valid (psqrtLoop x sqrtMaxIter (psqrtGuess x))

/-- I2P(n) (44_posit_ops.md R187). -/
def i2p (n : Word) : Word :=
  if n = 0x00000000#32 then 0x00000000#32
  else if n = 0x80000000#32 then pencode true 31 0x80000000#32
  else
    let u := BitVec.ofNat 32 n.toInt.natAbs
    let lz := lzc32 u
    pencode (decide (n.toInt < 0)) (31 - (lz : Int)) (shl u lz)

/-- P2I of a Finite posit: truncate toward zero, saturate (44_posit_ops.md R188). -/
def p2iFinite (u : PUnpacked) : Word :=
  if u.exp < 0 then 0x00000000#32
  else if 31 ≤ u.exp then (if u.s then 0x80000000#32 else 0x7FFFFFFF#32)
  else
    let mag := shr u.sig (31 - u.exp).toNat
    if u.s then neg32 mag else mag

/-- P2I(p) (44_posit_ops.md R188). -/
def p2i (p : Word) : Word :=
  match pclass p with
  | .zero => 0x00000000#32
  | .nar => 0x00000000#32
  | .finite => p2iFinite (pdecode p)

/-! ### Meanings -/

/-- A posit result at the width of RES. -/
def PResult.toResult (p : PResult) : Result := .narrow p.r p.inv

/-- PADD (44_posit_ops.md R180). -/
def execPadd (a : DWord) (b : Word) (s : State) : Host.Outcome State Fault Refusal :=
  .next (complete (encode (.padd a b)) (pAdd (operandA a) (operandB b)).toResult s)

/-- PSUB (44_posit_ops.md R181). -/
def execPsub (a : DWord) (b : Word) (s : State) : Host.Outcome State Fault Refusal :=
  .next (complete (encode (.psub a b)) (pSub (operandA a) (operandB b)).toResult s)

/-- PMUL (44_posit_ops.md R182). -/
def execPmul (a : DWord) (b : Word) (s : State) : Host.Outcome State Fault Refusal :=
  .next (complete (encode (.pmul a b)) (pMul (operandA a) (operandB b)).toResult s)

/-- PDIV (44_posit_ops.md R183). -/
def execPdiv (a : DWord) (b : Word) (s : State) : Host.Outcome State Fault Refusal :=
  .next (complete (encode (.pdiv a b)) (pDiv (operandA a) (operandB b)).toResult s)

/-- PSQRT (44_posit_ops.md R186); B is ignored. -/
def execPsqrt (a : DWord) (b : Word) (s : State) : Host.Outcome State Fault Refusal :=
  .next (complete (encode (.psqrt a b)) (pSqrt (operandA a)).toResult s)

/-- I2P (44_posit_ops.md R187); B is ignored. -/
def execI2p (a : DWord) (b : Word) (s : State) : Host.Outcome State Fault Refusal :=
  .next (complete (encode (.i2p a b)) (neverInvalid (i2p (operandA a))) s)

/-- P2I (44_posit_ops.md R188); B is ignored. -/
def execP2i (a : DWord) (b : Word) (s : State) : Host.Outcome State Fault Refusal :=
  .next (complete (encode (.p2i a b)) (neverInvalid (p2i (operandA a))) s)

end Sys2Proof.Machine
end

