-- ==== Sys2Proof/Machine/Dispatch.lean ====
section
/-! DEFINITION. One arm per instruction (spec/30_encoding.md R63). -/

namespace Sys2Proof.Machine

def exec (i : Instr) (s : State) : Host.Outcome State Fault Refusal :=
  match i with
  | .fadd a b => Sys2Proof.Machine.execFadd a b s
  | .fsub a b => Sys2Proof.Machine.execFsub a b s
  | .fmul a b => Sys2Proof.Machine.execFmul a b s
  | .fdiv a b => Sys2Proof.Machine.execFdiv a b s
  | .fsqrt a b => Sys2Proof.Machine.execFsqrt a b s
  | .i2f a b => Sys2Proof.Machine.execI2f a b s
  | .f2i a b => Sys2Proof.Machine.execF2i a b s
  | .padd a b => Sys2Proof.Machine.execPadd a b s
  | .psub a b => Sys2Proof.Machine.execPsub a b s
  | .pmul a b => Sys2Proof.Machine.execPmul a b s
  | .pdiv a b => Sys2Proof.Machine.execPdiv a b s
  | .psqrt a b => Sys2Proof.Machine.execPsqrt a b s
  | .i2p a b => Sys2Proof.Machine.execI2p a b s
  | .p2i a b => Sys2Proof.Machine.execP2i a b s
  | .f2p a b => Sys2Proof.Machine.execF2p a b s
  | .p2f a b => Sys2Proof.Machine.execP2f a b s
  | .d2p a b => Sys2Proof.Machine.execD2p a b s
  | .p2d a b => Sys2Proof.Machine.execP2d a b s

end Sys2Proof.Machine
end

