-- ==== Sys2Proof/Machine/Step.lean ====
section
/-! DEFINITION. One step: the host's next move, taken whole (spec/70_reset_and_hazards.md R246;
spec/60_exceptions.md R220, R224). -/

namespace Sys2Proof.Machine

/-- The host's next move, with the checks in the order of 60_exceptions.md R224: not ready, reserved OP, execution.
With no move left the block holds its state (60_exceptions.md R239). -/
def step (s : State) : Host.Outcome State Fault Refusal :=
  match s.inputs with
  | [] => .next s
  | .rst :: rest => .next (s.applyReset rest)
  | .start c :: rest =>
    if s.ready then
      match decode c with
      | .instr i => exec i (s.accept rest)
      | .reserved _ => .next (raiseIllegalCommand c (s.accept rest))
    else .next (s.ignoreStart rest)

/-- s with the command of a table word placed as the host's next move, before every move already placed. It runs at the
next step whenever s is ready; a faulted block accepts no command (60_exceptions.md R228). -/
def State.withFetchWord (s : State) (nbits w : Nat) : State := s.placeCommand (commandOfTableWord nbits w)

end Sys2Proof.Machine
end

