-- ==== Sys2Proof/Machine/Value.lean ====
section
/-! DEFINITION. The rational value each pattern stands for, written from the format layouts alone
(spec/30_encoding.md R70 to R73, spec/41_float_core.md R123, spec/43_posit_core.md R164). No step computes with these:
they are what claims compare the machine's results with. -/

namespace Sys2Proof.Machine

/-- (-1)^s. -/
def sgn (s : Bool) : ℚ := if s then -1 else 1

/-- The value of a finite float32 from its fields: an implicit leading one unless the biased exponent is 0
(30_encoding.md R70; 00_scope.md R9). Not meant for infinities and NaNs. -/
def fval (x : Word) : ℚ :=
  sgn (signOf x) * ((if fexpField x = 0 then ffracField x else 2 ^ 23 + ffracField x : Nat) : ℚ) *
    2 ^ ((max (fexpField x) 1 : Nat) - 150 : ℤ)

/-- The value of an unpacked posit, (-1)^s x sig x 2^(exp - 31) (43_posit_core.md R164). -/
def PUnpacked.val (u : PUnpacked) : ℚ := sgn u.s * (u.sig.toNat : ℚ) * 2 ^ (u.exp - 31)

/-- The value of a posit32 that is not NaR (43_posit_core.md R161, R164). -/
def pval (p : Word) : ℚ := if p = pZero then 0 else (pdecode p).val

/-- The value of a finite binary64 from its fields (30_encoding.md R71). -/
def dval (d : DWord) : ℚ :=
  sgn d.msb * ((if dexpField d = 0 then dfracField d else 2 ^ 52 + dfracField d : Nat) : ℚ) *
    2 ^ ((max (dexpField d) 1 : Nat) - 1075 : ℤ)

/-- The rational an exact fraction stands for. -/
def Exact.toRat (p : Exact) : ℚ := (p.num : ℚ) / (p.den : ℚ)

end Sys2Proof.Machine
end

