-- ==== Sys2Proof/WellFormed.lean ====
section
/-! DEFINITION. Which commands spell an operation (spec/30_encoding.md R61, R63, R64) and which instructions the
command syntax of R75 can write.

An Instr carries its operand fields as bit vectors of the ports' own widths, and R62 takes "each operand field ... as
the bit pattern of its data type", so no value of an operand makes an instruction ill formed. -/

namespace Sys2Proof

/-- OP[7:4], the unit (30_encoding.md R61). -/
def Command.unit (c : Command) : BitVec 4 := c.op.extractLsb' 4 4

/-- OP[3:0], the function within the unit (30_encoding.md R61). -/
def Command.function (c : Command) : BitVec 4 := c.op.extractLsb' 0 4

/-- The command's OP is assigned: seven float functions, seven posit functions, four conversions; units 0x3 to 0xF are
unassigned (30_encoding.md R61, R63, R64). Written from the unit and function fields, not from the decoder. -/
def Command.wellFormed (c : Command) : Bool :=
  (c.unit == 0x0#4 && decide (c.function.toNat < 7)) ||
  (c.unit == 0x1#4 && decide (c.function.toNat < 7)) ||
  (c.unit == 0x2#4 && decide (c.function.toNat < 4))

/-- A[63:32] is zero: the command syntax writes a 32-bit operand as A = zext_64(a) (30_encoding.md R75). -/
def Instr.upperAClear (i : Instr) : Bool := i.fieldA.extractLsb' 32 32 == 0#32

/-- B is zero: the command syntax writes B = 0 for every shape but RR (30_encoding.md R75). -/
def Instr.bClear (i : Instr) : Bool := i.fieldB == 0#32

/-- The command syntax of 30_encoding.md R75 can write the instruction. A raw command need not be of this form
(95_test_vectors.md P5 step 3), and the block runs it all the same (10_state.md R35). -/
def Instr.spellable (i : Instr) : Bool :=
  match i.shape with
  | .rr => i.upperAClear
  | .r => i.upperAClear && i.bClear
  | .d => i.bClear
  | .rw => i.upperAClear && i.bClear

end Sys2Proof
end

