-- ==== Sys2Proof/Safety.lean ====
section
/-! DEFINITION. The terms claims use: what an accepted command does when it completes or traps, which operands are
invalid, truncation to the posit grid, the machine's invariant, and a run and its normal end (spec/60_exceptions.md,
spec/70_reset_and_hazards.md R252). -/

namespace Sys2Proof.Machine

/-! ### The two ways an accepted command ends -/

/-- The instruction completes normally: RES and INV are written, BUSY returns to 0, and nothing else changes
(60_exceptions.md R220; 70_reset_and_hazards.md R245). -/
def Completes (i : Instr) (s : State) (r : DWord) (v : Bool) : Prop :=
  exec i s = .next { s with res := r, inv := v, busy := false }

/-- The instruction takes InvalidTrap: the fault latch, the report of the command as presented, INV = 1, and RES kept
(60_exceptions.md R226). -/
def Traps (i : Instr) (s : State) : Prop :=
  exec i s = .next { s with fault := true, cause := 1#4, fop := (encode i).op, fa := i.fieldA, fb := i.fieldB,
                            inv := true, busy := false }

/-! ### Which operands are invalid (60_exceptions.md R221; 42_float_ops.md R140 to R143, R146) -/

/-- A float infinity. -/
def isInf (x : Word) : Bool := fclass x == .posInf || fclass x == .negInf

/-- A float zero. -/
def isZero (x : Word) : Bool := fclass x == .posZero || fclass x == .negZero

/-- A float NaN. -/
def isNan (x : Word) : Bool := fclass x == .nan

/-- A float with a rational value: Normal or zero. -/
def isFinite (x : Word) : Bool := fclass x == .normal || isZero x

/-- An operand pair or operand on which the command is an invalid operation, from the operands alone. -/
def invalidOperands : Instr → Bool
  | .fadd a b => let x := operandA a; let y := operandB b
                 isNan x || isNan y || (isInf x && isInf y && signOf x != signOf y)
  | .fsub a b => let x := operandA a; let y := operandB b
                 isNan x || isNan y || (isInf x && isInf y && signOf x == signOf y)
  | .fmul a b => let x := operandA a; let y := operandB b
                 isNan x || isNan y || (isZero x && isInf y) || (isInf x && isZero y)
  | .fdiv a b => let x := operandA a; let y := operandB b
                 isNan x || isNan y || (isZero x && isZero y) || (isInf x && isInf y)
  | .fsqrt a _ => let x := operandA a
                  isNan x || (signOf x && !isZero x)
  | .i2f _ _ => false
  | .f2i _ _ => false
  | .padd a b => operandA a == pNaR && operandB b == pNaR
  | .psub a b => operandA a == pNaR && operandB b == pNaR
  | .pmul a b => (operandA a == pNaR && operandB b == pZero) || (operandA a == pZero && operandB b == pNaR)
  | .pdiv a b => (operandA a == pZero && operandB b == pZero) || (operandA a == pNaR && operandB b == pNaR)
  | .psqrt a _ => pclass (operandA a) == .finite && signOf (operandA a)
  | .i2p _ _ => false
  | .p2i _ _ => false
  | .f2p _ _ => false
  | .p2f _ _ => false
  | .d2p _ _ => false
  | .p2d _ _ => false

/-! ### Truncation to the posit grid -/

/-- r is the nonzero rational v truncated toward zero to the Finite posits: it has v's sign, its magnitude does not
exceed v's, and no Finite posit of magnitude at most v's is larger (43_posit_core.md R166). -/
def IsTruncation (v : ℚ) (r : Word) : Prop :=
  pclass r = .finite ∧ 0 < pval r * v ∧ |pval r| ≤ |v| ∧
    ∀ q : Word, pclass q = .finite → |pval q| ≤ |v| → |pval q| ≤ |pval r|

/-- r is the nonzero rational v on the posit grid as the posit unit delivers it: NaR from 2^121 up, zero below 2^-120,
and truncated toward zero in between (44_posit_ops.md, introduction; 43_posit_core.md R166). -/
def IsPositOf (v : ℚ) (r : Word) : Prop :=
  if 2 ^ 121 ≤ |v| then r = pNaR else if |v| < 2 ^ (-120 : ℤ) then r = pZero else IsTruncation v r

/-! ### The machine's invariant -/

/-- What holds in every state between two steps. -/
structure Inv (s : State) : Prop where
  /-- BUSY is 0 in every state between steps (10_state.md R26). -/
  notBusy : s.busy = false
  /-- The build parameters are ones the spec allows (00_scope.md R14). -/
  params : s.cfg.wf = true
  /-- Without a fault the cause and the report are 0 (60_exceptions.md R220). -/
  clean : s.fault = false → s.cause = 0#4 ∧ s.fop = 0#8 ∧ s.fa = 0#64 ∧ s.fb = 0#32
  /-- A fault has one of the two causes (60_exceptions.md R223). -/
  named : s.fault = true → s.cause = 1#4 ∨ s.cause = 2#4
  /-- Under CAUSE = 1 the trap mode is on, INV = 1, and the report is a command whose operands are invalid
  (60_exceptions.md R226). -/
  trapReport : s.cause = 1#4 → s.cfg.trapOnInvalid = true ∧ s.inv = true ∧
    ∃ i, decode ⟨s.fop, s.fa, s.fb⟩ = .instr i ∧ invalidOperands i = true
  /-- Under CAUSE = 2 the report is a command with a reserved OP (60_exceptions.md R227). -/
  illegalReport : s.cause = 2#4 → Command.wellFormed ⟨s.fop, s.fa, s.fb⟩ = false
  /-- With the trap mode on, INV = 1 is seen only after an InvalidTrap (60_exceptions.md R222). -/
  trapModeInv : s.cfg.trapOnInvalid = true → s.inv = true → s.cause = 1#4

/-! ### Runs -/

/-- The host has the commands of a list still to present, one by one (70_reset_and_hazards.md R252). -/
def State.load (s : State) (cs : List Command) : State := { s with inputs := cs.map HostMove.start }

/-- The state in which the block stands after one reset, with the build parameters of s and no move placed. -/
def State.fresh (s : State) : State := { State.reset with cfg := s.cfg }

/-- A run ends normally when every command of its list has been taken with FAULT = 0 (70_reset_and_hazards.md R252). -/
def State.endsNormally (s : State) : Bool := s.inputs.isEmpty && !s.fault

/-- k steps of the machine. -/
def runSteps (k : Nat) (s : State) : Host.Outcome State Fault Refusal := Host.Core.run Sys2Proof.core k s

end Sys2Proof.Machine
end

