-- ==== Sys2Proof/Certificates/Slice0/Obligations.lean ====
section
/-! DEFINITION. The statements for the provers. Each docstring names the rule of spec/ it formalises. "Completes i s r v"
says that exec answers the next state in which RES = r, INV = v, BUSY = 0 and NOTHING ELSE differs from s, so every
statement with that conclusion is also the instruction's frame. -/

open Sys2Proof Sys2Proof.Machine

/-! ### Commands and their encoding -/

/-- 30_encoding.md R63: each assigned OP, written in the bits of the table, decodes to its instruction with the operand
fields whole. The last two clauses read one whole command word and one bare table word (the layout of a word is the
model's, log 5). -/
def Obligations.AssignedOpcodesDecode : Prop :=
  (∀ (a : DWord) (b : Word),
    decode ⟨0b00000000#8, a, b⟩ = .instr (.fadd a b) ∧ decode ⟨0b00000001#8, a, b⟩ = .instr (.fsub a b) ∧
    decode ⟨0b00000010#8, a, b⟩ = .instr (.fmul a b) ∧ decode ⟨0b00000011#8, a, b⟩ = .instr (.fdiv a b) ∧
    decode ⟨0b00000100#8, a, b⟩ = .instr (.fsqrt a b) ∧ decode ⟨0b00000101#8, a, b⟩ = .instr (.i2f a b) ∧
    decode ⟨0b00000110#8, a, b⟩ = .instr (.f2i a b) ∧ decode ⟨0b00010000#8, a, b⟩ = .instr (.padd a b) ∧
    decode ⟨0b00010001#8, a, b⟩ = .instr (.psub a b) ∧ decode ⟨0b00010010#8, a, b⟩ = .instr (.pmul a b) ∧
    decode ⟨0b00010011#8, a, b⟩ = .instr (.pdiv a b) ∧ decode ⟨0b00010100#8, a, b⟩ = .instr (.psqrt a b) ∧
    decode ⟨0b00010101#8, a, b⟩ = .instr (.i2p a b) ∧ decode ⟨0b00010110#8, a, b⟩ = .instr (.p2i a b) ∧
    decode ⟨0b00100000#8, a, b⟩ = .instr (.f2p a b) ∧ decode ⟨0b00100001#8, a, b⟩ = .instr (.p2f a b) ∧
    decode ⟨0b00100010#8, a, b⟩ = .instr (.d2p a b) ∧ decode ⟨0b00100011#8, a, b⟩ = .instr (.p2d a b)) ∧
  decodeWord 0x40000000000000003F80000000#104 = .instr (.fadd 0x000000003F800000#64 0x40000000#32) ∧
  decodeTableWord 8 0x12 = some (.pmul 0#64 0#32)

/-- Encoding and then decoding a whole command word gives the instruction back, every operand bit kept; and every command
word that decodes to an instruction is that instruction's encoding: one word, one meaning (30_encoding.md R60 to R63; the
word's layout is the model's, log 5). -/
def Obligations.DecodeAndEncodeAgree : Prop :=
  (∀ i : Instr, decodeWord (encodeWord i) = .instr i) ∧
  (∀ (w : CommandWord) (i : Instr), decodeWord w = .instr i → encodeWord i = w)

/-- 30_encoding.md R64 (the first sentence): the decoder rejects exactly the 238 reserved OPs, whatever A and B hold,
and they are the ones the unit and function fields of R61 leave unassigned. -/
def Obligations.ReservedOpcodesAreTheUnassignedOnes : Prop :=
  (∀ c : Command, decode c = .reserved c.op ↔
    (0x07 ≤ c.op.toNat ∧ c.op.toNat ≤ 0x0F) ∨ (0x17 ≤ c.op.toNat ∧ c.op.toNat ≤ 0x1F) ∨
    (0x24 ≤ c.op.toNat ∧ c.op.toNat ≤ 0x2F) ∨ (0x30 ≤ c.op.toNat ∧ c.op.toNat ≤ 0xFF)) ∧
  (∀ c : Command, c.wellFormed = true ↔ ∃ i, decode c = .instr i) ∧
  ((List.range 256).filter fun n => !(Command.wellFormed ⟨BitVec.ofNat 8 n, 0#64, 0#32⟩)).length = 238

/-! ### The step -/

/-- A step runs the decoded instruction: an accepted command consumes its move, sets BUSY and is executed
(60_exceptions.md R220, R224; 70_reset_and_hazards.md R245, R246). -/
def Obligations.StepRunsTheAcceptedCommand : Prop :=
  ∀ (s : State) (c : Command) (rest : List HostMove) (i : Instr),
    s.ready = true → s.inputs = .start c :: rest → decode c = .instr i →
    step s = exec i { s with inputs := rest, busy := true }

/-- 60_exceptions.md R227: a reserved OP, presented while READY = 1, enters the fault state with CAUSE = 2 and the
command's report; RES and INV are not written. The list `inputs` is the model's form of the host (log 2). -/
def Obligations.ReservedCommandRaisesIllegalCommand : Prop :=
  ∀ (s : State) (c : Command) (rest : List HostMove),
    s.ready = true → s.inputs = .start c :: rest → c.wellFormed = false →
    step s = .next { s with fault := true, cause := 2#4, fop := c.op, fa := c.a, fb := c.b, busy := false,
                            inputs := rest }

/-- 60_exceptions.md R228: in the faulted state READY = 0, a START changes no state element of the block, nothing else
changes it, it is never a normal end of a run, and RST clears FAULT, CAUSE, FOP, FA, FB, RES and INV. That the START leaves
the host's list is the model's reading (log 2, log 3). -/
def Obligations.FaultedStateIsLeftOnlyByReset : Prop :=
  ∀ s : State, s.fault = true →
    s.ready = false ∧ s.endsNormally = false ∧ (s.inputs = [] → step s = .next s) ∧
    (∀ (c : Command) (rest : List HostMove), s.inputs = .start c :: rest → step s = .next { s with inputs := rest }) ∧
    (∀ rest : List HostMove, s.inputs = .rst :: rest →
      step s = .next { res := 0#64, inv := false, fault := false, cause := 0#4, fop := 0#8, fa := 0#64, fb := 0#32,
                       busy := false, cfg := s.cfg, inputs := rest })

/-- 70_reset_and_hazards.md R240: RST at any time, busy or faulted or neither, gives the reset state; READY is then 1.
The build parameters and the host's later moves are kept (R243; log 2). -/
def Obligations.ResetFromAnyState : Prop :=
  ∀ (s : State) (rest : List HostMove), s.inputs = .rst :: rest →
    ∃ t : State, step s = .next t ∧ t.res = 0#64 ∧ t.inv = false ∧ t.fault = false ∧ t.cause = 0#4 ∧ t.fop = 0#8 ∧
      t.fa = 0#64 ∧ t.fb = 0#32 ∧ t.busy = false ∧ t.ready = true ∧ t.cfg = s.cfg ∧ t.inputs = rest

/-- 10_state.md R36: the values after reset, and STATUS = 0x04 | (TRAP_ON_INVALID << 3) whatever the build
parameters. -/
def Obligations.ResetStateHasTheStatedValues : Prop :=
  State.reset.res = 0#64 ∧ State.reset.inv = false ∧ State.reset.fault = false ∧ State.reset.cause = 0#4 ∧
  State.reset.fop = 0#8 ∧ State.reset.fa = 0#64 ∧ State.reset.fb = 0#32 ∧ State.reset.busy = false ∧
  State.reset.ready = true ∧
  ∀ c : Config, ({ State.reset with cfg := c } : State).status =
    0x04#8 ||| ((BitVec.ofBool c.trapOnInvalid).setWidth 8 <<< 3)

/-- 10_state.md R27 and R28: the fields of STATUS, and READY. -/
def Obligations.StatusShowsTheStateBits : Prop :=
  ∀ s : State,
    s.status.getLsbD 0 = s.inv ∧ s.status.getLsbD 1 = s.fault ∧ s.status.getLsbD 2 = s.ready ∧
    s.status.getLsbD 3 = s.cfg.trapOnInvalid ∧ s.status.extractLsb' 4 4 = s.cause ∧
    (s.ready = true ↔ s.busy = false ∧ s.fault = false)

/-- The block never hangs (70_reset_and_hazards.md R249): every step from every state answers a next state. It leaves
BUSY = 0 if BUSY was 0 (10_state.md R26), it changes no build parameter (00_scope.md R13; 70 R243), with no move it
changes nothing (60_exceptions.md R239), and a START while READY = 0 only leaves the host's list (70 R245; log 3). -/
def Obligations.EveryStepAnswersANextState : Prop :=
  ∀ s : State, ∃ t : State, step s = .next t ∧ (s.busy = false → t.busy = false) ∧ t.cfg = s.cfg ∧
    (s.inputs = [] → t = s) ∧
    (∀ (c : Command) (rest : List HostMove), s.ready = false → s.inputs = .start c :: rest →
      t = { s with inputs := rest })

/-- 60_exceptions.md R223: exactly two exceptions, each caused by the command being executed: FAULT rises only by an
invalid operation under TRAP_ON_INVALID (CAUSE = 1, INV = 1) or by a reserved OP (CAUSE = 2), with the command in the
report; and both do raise it. The list `inputs` is the model's form of the host (log 2). -/
def Obligations.FaultRisesExactlyOnTheTwoExceptions : Prop :=
  ∀ (s t : State), s.cfg.fltQnanOk = true → s.fault = false → step s = .next t →
    (t.fault = true ↔ s.busy = false ∧ ∃ c rest, s.inputs = .start c :: rest ∧
      ((∃ i, decode c = .instr i ∧ invalidOperands i = true ∧ s.cfg.trapOnInvalid = true) ∨ c.wellFormed = false)) ∧
    (t.fault = true → ∀ c rest, s.inputs = .start c :: rest →
      t.fop = c.op ∧ t.fa = c.a ∧ t.fb = c.b ∧
      ((c.wellFormed = true ∧ t.cause = 1#4 ∧ t.inv = true) ∨ (c.wellFormed = false ∧ t.cause = 2#4)))

/-- The invariant holds in the reset state. -/
def Obligations.ResetStateMeetsTheInvariant : Prop := Inv State.reset

/-- Every step from every state that meets the invariant gives a state that meets it: BUSY is 0, an unfaulted block has
an empty fault record, a faulted one has one of the two causes and a report that explains it (60_exceptions.md R220 to
R229). -/
def Obligations.EveryStepKeepsTheFaultRecordInvariant : Prop :=
  ∀ s t : State, Inv s → step s = .next t → Inv t

/-! ### Completion, traps and INV -/

/-- 60_exceptions.md R220 and 10_state.md R22: what any instruction can change. Normal completion writes RES and INV and
nothing else, and a command with a 32-bit result (every command but P2D) clears RES[63:32]; a trap writes the fault latch,
the report and INV and keeps RES; BUSY ends at 0; the build parameters and the host's moves are kept. Every instruction
answers one of these two next states. -/
def Obligations.EveryInstructionCompletesOrTraps : Prop :=
  ∀ (i : Instr) (s : State),
    (∃ r v, Completes i s r v ∧ (v = true → s.cfg.trapOnInvalid = false) ∧
      (i.shape ≠ .rw → r.extractLsb' 32 32 = 0#32)) ∨
    (Traps i s ∧ s.cfg.trapOnInvalid = true)

/-- 60_exceptions.md R221, the no-invalid half: on operands that are not invalid EVERY instruction completes with
INV = 0, whatever the trap mode. -/
def Obligations.ValidOperandsCompleteInEitherMode : Prop :=
  ∀ (i : Instr) (s : State), s.cfg.fltQnanOk = true → invalidOperands i = false → ∃ r, Completes i s r false

/-- 60_exceptions.md R221: with the trap mode off every command completes, with INV = 1 exactly on the invalid operands
of the table; by the table's row for FADD, FSUB, FMUL, FDIV and FSQRT, such a command does so exactly when its result is
FLT_QNAN. -/
def Obligations.InvFollowsTheInvalidOperandTable : Prop :=
  ∀ (i : Instr) (s : State), s.cfg.fltQnanOk = true → s.cfg.trapOnInvalid = false →
    ∃ r, Completes i s r (invalidOperands i) ∧
      ((∃ a b, i = .fadd a b ∨ i = .fsub a b ∨ i = .fmul a b ∨ i = .fdiv a b ∨ i = .fsqrt a b) →
        (invalidOperands i = true ↔ r = zext64 s.cfg.fltQnan))

/-- 60_exceptions.md R226: with the trap mode on, an invalid command enters the fault state with CAUSE = 1, the command
as presented in FOP, FA and FB, INV = 1, and RES kept. -/
def Obligations.InvalidOperandsTrapInTrapMode : Prop :=
  ∀ (i : Instr) (s : State), s.cfg.fltQnanOk = true → s.cfg.trapOnInvalid = true → invalidOperands i = true → Traps i s

/-- 10_state.md R35: bits a command does not read have no effect except in the report of a fault, which copies A and B
whole. -/
def Obligations.UnreadOperandBitsOnlyReachTheReport : Prop :=
  ∀ (i j : Instr) (s : State), (encode i).op = (encode j).op →
    (match i.shape with
      | .rr => operandA i.fieldA = operandA j.fieldA ∧ i.fieldB = j.fieldB
      | .r => operandA i.fieldA = operandA j.fieldA
      | .d => i.fieldA = j.fieldA
      | .rw => operandA i.fieldA = operandA j.fieldA) →
    ∃ t u : State, exec i s = .next t ∧ exec j s = .next u ∧
      ((∃ r v, t = { s with res := r, inv := v, busy := false } ∧ u = t) ∨
       (t.fa = i.fieldA ∧ t.fb = i.fieldB ∧ u = { t with fa := j.fieldA, fb := j.fieldB }))

/-! ### Runs -/

/-- 70_reset_and_hazards.md R254: the results of a fault-free run are the per-command results, whatever the earlier
commands were: after any list of commands ending in c, RES and INV are those c leaves when it is presented to a freshly
reset block with the same build parameters. Every prefix of a run is such a list. `load` is the model's form of the host
(log 2). -/
def Obligations.FaultFreeRunGivesPerCommandResults : Prop :=
  ∀ (s t : State) (cs : List Command) (c : Command), s.ready = true →
    runSteps (cs.length + 1) (s.load (cs ++ [c])) = .next t → t.fault = false →
    t.endsNormally = true ∧ t.ready = true ∧
    ∃ u : State, step (s.fresh.load [c]) = .next u ∧ u.fault = false ∧ u.res = t.res ∧ u.inv = t.inv

/-- 70_reset_and_hazards.md R252 and 60_exceptions.md R229: a run ends at the command that enters the fault state: the
later commands change nothing, so the record describes the first and only faulting command. That each presented START
takes a step that removes it from the host's list is the model's reading: the list is log 2's, the dropped START is
log 3's (DEDUCED). -/
def Obligations.CommandsAfterAFaultChangeNothing : Prop :=
  ∀ (s : State) (cs : List Command), s.fault = true →
    runSteps cs.length (s.load cs) = .next { s with inputs := [] } ∧ (s.load []).endsNormally = false

/-! ### Primitives -/

/-- 40_primitives.md R100: lzc32 counts the zero bits from bit 31 downward; 32 for 0. -/
def Obligations.LeadingZeroCountIsTheRunOfZeros : Prop :=
  lzc32 0#32 = 32 ∧
  ∀ x : Word, x ≠ 0#32 → lzc32 x ≤ 31 ∧ x.getLsbD (31 - lzc32 x) = true ∧
    ∀ j, j < lzc32 x → x.getLsbD (31 - j) = false

/-- 40_primitives.md R107: rne is the nearest integer, the even one on an exact tie. -/
def Obligations.RneIsTheNearestEvenInteger : Prop :=
  ∀ n d : Nat, 0 < d →
    |(rne n d : ℚ) - (n : ℚ) / d| ≤ 1 / 2 ∧ (|(rne n d : ℚ) - (n : ℚ) / d| = 1 / 2 → rne n d % 2 = 0)

/-- 40_primitives.md R108: the correction table increments on exactly 7 of its 16 indices LGRS (0101, 0110, 0111, 1100,
1101, 1110, 1111) and rounds as rne does; with R104, the sticky shift of any wider value loses nothing of the
decision. -/
def Obligations.CorrectionTableRoundsToNearestEven : Prop :=
  (∀ l g r s : Bool, correction l g r s = true ↔
    (l, g, r, s) ∈ [(false, true, false, true), (false, true, true, false), (false, true, true, true),
      (true, true, false, false), (true, true, false, true), (true, true, true, false), (true, true, true, true)]) ∧
  (∀ v : Nat, roundByTable v = rne v 8) ∧
  (∀ (v : DWord) (k : Nat), 3 ≤ k → roundByTable (srs v (k - 3)).toNat = rne v.toNat (2 ^ k))

/-! ### The float core -/

/-- 41_float_core.md R122 and R123: a Normal unpacks to a normalised significand (its bit 23 set) and an exponent in
[-149, 127], and both funpack and fvalue give the value of the binary32 fields. -/
def Obligations.UnpackedNormalHasTheFieldsValue : Prop :=
  ∀ x : Word, fclass x = .normal →
    2 ^ 23 ≤ (funpack x).m ∧ (funpack x).m < 2 ^ 24 ∧ -149 ≤ (funpack x).e ∧ (funpack x).e ≤ 127 ∧
    (funpack x).s = signOf x ∧
    fval x = sgn (funpack x).s * ((funpack x).m : ℚ) * 2 ^ ((funpack x).e - 23) ∧ (fvalue x).toRat = fval x

/-- RoundPack32 is a function of the rational alone, not of the fraction that writes it, and s only sets the sign bit
(41_float_core.md R130). -/
def Obligations.RoundPackDependsOnTheRationalOnly : Prop :=
  ∀ (s : Bool) (n d n' d' : Nat), 0 < n → 0 < d → 0 < n' → 0 < d' → n * d' = n' * d →
    roundPack32 s n d = roundPack32 s n' d' ∧ roundPack32 true n d = roundPack32 false n d ||| 0x80000000#32

/-- 41_float_core.md R130: below the overflow bound, RoundPack32 gives a finite pattern nearest to the rational among all
finite patterns of its sign, and on a tie the one whose lowest bit is 0. -/
def Obligations.RoundPackIsTheNearestFloat : Prop :=
  ∀ (n d : Nat), 0 < n → 0 < d → n < (2 ^ 128 - 2 ^ 103) * d →
    isFinite (roundPack32 false n d) = true ∧ signOf (roundPack32 false n d) = false ∧
    ∀ z : Word, isFinite z = true → signOf z = false → z ≠ roundPack32 false n d →
      |fval (roundPack32 false n d) - (n : ℚ) / d| ≤ |fval z - (n : ℚ) / d| ∧
      (|fval (roundPack32 false n d) - (n : ℚ) / d| = |fval z - (n : ℚ) / d| →
        (roundPack32 false n d).getLsbD 0 = false)

/-- 41_float_core.md R131: RoundPack32 gives the signed infinity exactly from 2^128 - 2^103 up. -/
def Obligations.RoundPackOverflowsToInfinity : Prop :=
  ∀ (s : Bool) (n d : Nat), 0 < n → 0 < d →
    (roundPack32 s n d = (if s then 0xFF800000#32 else 0x7F800000#32) ↔ (2 ^ 128 - 2 ^ 103) * d ≤ n)

/-- 41_float_core.md R132: below 2^-126 the result is a zero, a subnormal or the smallest normal, rounded at the fixed
quantum 2^-149; it is the signed zero exactly up to 2^-150. -/
def Obligations.RoundPackUnderflowsGradually : Prop :=
  ∀ (s : Bool) (n d : Nat), 0 < n → 0 < d → n * 2 ^ 126 < d →
    roundPack32 s n d = (if s then 0x80000000#32 else 0#32) ||| BitVec.ofNat 32 (rne (n * 2 ^ 149) d) ∧
    rne (n * 2 ^ 149) d ≤ 2 ^ 23 ∧
    (roundPack32 s n d = (if s then 0x80000000#32 else 0#32) ↔ n * 2 ^ 150 ≤ d)

/-- 41_float_core.md R124: packing inverts unpacking on every Normal pattern, subnormals included. -/
def Obligations.PackInvertsUnpackOnNormals : Prop :=
  ∀ x : Word, fclass x = .normal → roundPack32 (signOf x) (fvalue x).num.natAbs (fvalue x).den = x

/-! ### Float commands -/

/-- 41_float_core.md R127 through FADD: every cell of the addition table. The cells that are FLT_QNAN are invalid, so
they complete only with the trap mode off; the others complete in either mode. -/
def Obligations.FaddFollowsTheSpecialTable : Prop :=
  ∀ (a : DWord) (b : Word) (s : State), s.cfg.fltQnanOk = true →
    let x := operandA a
    let y := b
    (s.cfg.trapOnInvalid = false → (isNan x || isNan y || (isInf x && isInf y && signOf x != signOf y)) = true →
      Completes (.fadd a b) s (zext64 s.cfg.fltQnan) true) ∧
    (isInf x = true → (isFinite y || (isInf y && signOf x == signOf y)) = true →
      Completes (.fadd a b) s (zext64 x) false) ∧
    (isFinite x = true → isInf y = true → Completes (.fadd a b) s (zext64 y) false) ∧
    (isZero x = true → isZero y = true →
      Completes (.fadd a b) s (if signOf x && signOf y then 0x80000000#64 else 0#64) false) ∧
    (isZero x = true → fclass y = .normal → Completes (.fadd a b) s (zext64 y) false) ∧
    (fclass x = .normal → isZero y = true → Completes (.fadd a b) s (zext64 x) false) ∧
    (fclass x = .normal → fclass y = .normal → fspecialAdd s.cfg.fltQnan x y = none)

/-- 42_float_ops.md R140, the kernel: the exact sum of two Normals, +0 when it is zero, else rounded once with its own
sign. n / d is any way to write the magnitude of the exact sum. -/
def Obligations.FaddRoundsTheExactSum : Prop :=
  ∀ (a : DWord) (b : Word) (s : State) (n d : Nat), s.cfg.fltQnanOk = true →
    fclass (operandA a) = .normal → fclass b = .normal → 0 < d →
    (n : ℚ) / d = |fval (operandA a) + fval b| →
    (fval (operandA a) + fval b = 0 → Completes (.fadd a b) s 0#64 false) ∧
    (fval (operandA a) + fval b ≠ 0 →
      Completes (.fadd a b) s (zext64 (roundPack32 (decide (fval (operandA a) + fval b < 0)) n d)) false)

/-- 42_float_ops.md R141: FSUB is FADD with the second operand's sign bit inverted, bit for bit: the two commands leave
the same state but for the report of a trap, which records each command as presented. -/
def Obligations.FsubIsFaddOfTheNegatedOperand : Prop :=
  ∀ (a : DWord) (b : Word) (s : State), ∃ t u : State,
    exec (.fsub a b) s = .next t ∧ exec (.fadd a (b ^^^ 0x80000000#32)) s = .next u ∧
    ((∃ r v, t = { s with res := r, inv := v, busy := false } ∧ u = t) ∨
     (Traps (.fsub a b) s ∧ Traps (.fadd a (b ^^^ 0x80000000#32)) s))

/-- 41_float_core.md R128 through FMUL: every cell of the multiplication table. -/
def Obligations.FmulFollowsTheSpecialTable : Prop :=
  ∀ (a : DWord) (b : Word) (s : State), s.cfg.fltQnanOk = true →
    let x := operandA a
    let y := b
    (s.cfg.trapOnInvalid = false →
      (isNan x || isNan y || (isZero x && isInf y) || (isInf x && isZero y)) = true →
      Completes (.fmul a b) s (zext64 s.cfg.fltQnan) true) ∧
    (((isInf x && (isInf y || fclass y == .normal)) || (fclass x == .normal && isInf y)) = true →
      Completes (.fmul a b) s (if signOf x != signOf y then 0xFF800000#64 else 0x7F800000#64) false) ∧
    (((isZero x && isFinite y) || (fclass x == .normal && isZero y)) = true →
      Completes (.fmul a b) s (if signOf x != signOf y then 0x80000000#64 else 0#64) false) ∧
    (fclass x = .normal → fclass y = .normal → fspecialMul s.cfg.fltQnan x y = none)

/-- 42_float_ops.md R142, the kernel: the exact product of two Normals, rounded once, with the XOR of the signs; it is
never invalid, also when it overflows or underflows (10_state.md R39). -/
def Obligations.FmulRoundsTheExactProduct : Prop :=
  ∀ (a : DWord) (b : Word) (s : State) (n d : Nat), s.cfg.fltQnanOk = true →
    fclass (operandA a) = .normal → fclass b = .normal → 0 < d →
    (n : ℚ) / d = |fval (operandA a) * fval b| →
    Completes (.fmul a b) s (zext64 (roundPack32 (signOf (operandA a) != signOf b) n d)) false

/-- 41_float_core.md R129 through FDIV: every cell of the division table; x / 0 is the signed infinity and not
invalid. -/
def Obligations.FdivFollowsTheSpecialTable : Prop :=
  ∀ (a : DWord) (b : Word) (s : State), s.cfg.fltQnanOk = true →
    let x := operandA a
    let y := b
    (s.cfg.trapOnInvalid = false →
      (isNan x || isNan y || (isZero x && isZero y) || (isInf x && isInf y)) = true →
      Completes (.fdiv a b) s (zext64 s.cfg.fltQnan) true) ∧
    (((isInf x && isFinite y) || (fclass x == .normal && isZero y)) = true →
      Completes (.fdiv a b) s (if signOf x != signOf y then 0xFF800000#64 else 0x7F800000#64) false) ∧
    (((isFinite x && isInf y) || (isZero x && fclass y == .normal)) = true →
      Completes (.fdiv a b) s (if signOf x != signOf y then 0x80000000#64 else 0#64) false) ∧
    (fclass x = .normal → fclass y = .normal → fspecialDiv s.cfg.fltQnan x y = none)

/-- 42_float_ops.md R143, the kernel: the exact quotient of two Normals, rounded once, with the XOR of the signs. -/
def Obligations.FdivRoundsTheExactQuotient : Prop :=
  ∀ (a : DWord) (b : Word) (s : State) (n d : Nat), s.cfg.fltQnanOk = true →
    fclass (operandA a) = .normal → fclass b = .normal → 0 < d →
    (n : ℚ) / d = |fval (operandA a) / fval b| →
    Completes (.fdiv a b) s (zext64 (roundPack32 (signOf (operandA a) != signOf b) n d)) false

/-- Addition and multiplication commute in both units, bit for bit and for all operands, INV included
(42_float_ops.md R140, R142; 44_posit_ops.md R180, R182). -/
def Obligations.AddAndMultiplyCommute : Prop :=
  ∀ q a b : Word, fAdd q a b = fAdd q b a ∧ fMul q a b = fMul q b a ∧ pAdd a b = pAdd b a ∧ pMul a b = pMul b a

/-- 42_float_ops.md R144 and R145: the first iterate of FSQRT is a positive Normal with the halved exponent (by floor) and
the normalised fraction of x, and a residual is converged exactly when its biased exponent field is at most 110, that is,
when it is finite and below 2^-16 in magnitude. -/
def Obligations.FsqrtGuessAndConvergence : Prop :=
  (∀ x : Word, fclass x = .normal → signOf x = false →
    fclass (fsqrtGuess x) = .normal ∧ signOf (fsqrtGuess x) = false ∧ fexpField (fsqrtGuess x) ≠ 0 ∧
    fval (fsqrtGuess x) = ((funpack x).m : ℚ) * 2 ^ ((funpack x).e / 2 - 23)) ∧
  ∀ d : Word, (fconverged d = true ↔ fexpField d ≤ 110) ∧
    (fconverged d = true ↔ isFinite d = true ∧ |fval d| < 2 ^ (-16 : ℤ))

/-- 42_float_ops.md R146: the special radicands by lookup, and for a positive Normal the k-th Newton iterate, where k is
the first of at most 100 iterations whose residual converges, or 100; such a radicand is never invalid. -/
def Obligations.FsqrtIsTheFirstConvergedNewtonIterate : Prop :=
  ∀ (a : DWord) (b : Word) (s : State), s.cfg.fltQnanOk = true →
    let x := operandA a
    let q := s.cfg.fltQnan
    let iter : Nat → Word := fun k => (fun t => fDiv q (fAdd q t (fDiv q x t)) 0x40000000#32)^[k] (fsqrtGuess x)
    let done : Nat → Bool := fun k => fconverged (fSub q (fMul q (iter k) (iter k)) x)
    (s.cfg.trapOnInvalid = false → (isNan x || (signOf x && !isZero x)) = true →
      Completes (.fsqrt a b) s (zext64 q) true) ∧
    ((fclass x = .posInf ∨ isZero x = true) → Completes (.fsqrt a b) s (zext64 x) false) ∧
    (fclass x = .normal → signOf x = false →
      ∃ k, 1 ≤ k ∧ k ≤ 100 ∧ Completes (.fsqrt a b) s (zext64 (iter k)) false ∧
        (∀ j, 1 ≤ j → j < k → done j = false) ∧ (done k = true ∨ k = 100))

/-- 42_float_ops.md R147: I2F gives +0 for 0 and otherwise the integer's exact magnitude rounded once, with its sign;
integers of magnitude up to 2^24 are exact; INV = 0 in either mode. -/
def Obligations.I2fRoundsTheInteger : Prop :=
  ∀ (a : DWord) (b : Word) (s : State),
    let n := operandA a
    (n = 0#32 → Completes (.i2f a b) s 0#64 false) ∧
    (n ≠ 0#32 → Completes (.i2f a b) s (zext64 (roundPack32 (decide (n.toInt < 0)) n.toInt.natAbs 1)) false) ∧
    (n.toInt.natAbs ≤ 2 ^ 24 → ∃ r : Word, Completes (.i2f a b) s (zext64 r) false ∧ fval r = n.toInt)

/-- 42_float_ops.md R148: F2I truncates the value toward zero and saturates to INT32_MAX and INT32_MIN; a NaN gives 0;
INV = 0 in either mode. -/
def Obligations.F2iTruncatesAndSaturates : Prop :=
  ∀ (a : DWord) (b : Word) (s : State),
    let x := operandA a
    (isNan x = true → Completes (.f2i a b) s 0#64 false) ∧
    (fclass x = .posInf → Completes (.f2i a b) s 0x7FFFFFFF#64 false) ∧
    (fclass x = .negInf → Completes (.f2i a b) s 0x80000000#64 false) ∧
    (isFinite x = true → 2 ^ 31 ≤ fval x → Completes (.f2i a b) s 0x7FFFFFFF#64 false) ∧
    (isFinite x = true → fval x ≤ -2 ^ 31 → Completes (.f2i a b) s 0x80000000#64 false) ∧
    (isFinite x = true → |fval x| < 2 ^ 31 → ∃ r : Word, Completes (.f2i a b) s (zext64 r) false ∧
      (0 ≤ fval x → r.toInt = ⌊fval x⌋) ∧ (fval x ≤ 0 → r.toInt = ⌈fval x⌉))

/-! ### The posit core -/

/-- 43_posit_core.md R165 (its range sentence) and R164: a Finite pattern decodes to an exponent in [-120, 120] and a
significand with its top bit set and its low four bits clear. -/
def Obligations.DecodedPositIsInRange : Prop :=
  ∀ p : Word, pclass p = .finite →
    -120 ≤ (pdecode p).exp ∧ (pdecode p).exp ≤ 120 ∧ (pdecode p).sig.msb = true ∧
    (pdecode p).sig.extractLsb' 0 4 = 0#4 ∧ (pdecode p).s = signOf p

/-- 43_posit_core.md R168: encoding inverts decoding on every Finite pattern; the exponent survives encode and decode
for [-112, 112] and six more exponents and becomes the stated one for the other ten; and no fraction bit remains for
exp >= 108 or exp <= -109. -/
def Obligations.PositEncodeInvertsDecode : Prop :=
  (∀ p : Word, pclass p = .finite → pencode (pdecode p).s (pdecode p).exp (pdecode p).sig = p) ∧
  (∀ e : Int, ((-112 ≤ e ∧ e ≤ 112) ∨ e ∈ [-120, -116, -114, 114, 116, 120]) →
    (pdecode (pencode false e 0x80000000#32)).exp = e) ∧
  (∀ e f : Int, (e, f) ∈ [(113, 112), (115, 114), (117, 116), (118, 116), (119, 116), (-113, -114), (-115, -116),
      (-117, -120), (-118, -120), (-119, -120)] → (pdecode (pencode false e 0x80000000#32)).exp = f) ∧
  (∀ (e : Int) (m m' : Word), (108 ≤ e ∨ e ≤ -109) → m.msb = true → m'.msb = true →
    pencode false e m = pencode false e m')

/-- 43_posit_core.md R166: encoding truncates. In range the result is Finite and is the value truncated toward zero;
above MAXEXP it is NaR and below MINEXP it is zero, for both signs. -/
def Obligations.PositEncodeTruncatesTowardZero : Prop :=
  ∀ (s : Bool) (e : Int) (m : Word), m.msb = true →
    (120 < e → pencode s e m = 0x80000000#32) ∧ (e < -120 → pencode s e m = 0#32) ∧
    (-120 ≤ e → e ≤ 120 → IsTruncation (sgn s * (m.toNat : ℚ) * 2 ^ (e - 31)) (pencode s e m))

/-- 43_posit_core.md R163: posit negation keeps zero and NaR, and on a Finite pattern keeps exponent and significand and
inverts the sign. -/
def Obligations.PositNegationKeepsExponentAndSignificand : Prop :=
  pneg 0#32 = 0#32 ∧ pneg 0x80000000#32 = 0x80000000#32 ∧
  ∀ p : Word, pclass (pneg p) = pclass p ∧
    (pclass p = .finite → (pdecode (pneg p)).exp = (pdecode p).exp ∧ (pdecode (pneg p)).sig = (pdecode p).sig ∧
      (pdecode (pneg p)).s = !(pdecode p).s)

/-- 43_posit_core.md R169: Finite posits are ordered as two's-complement integers. -/
def Obligations.PositOrderIsIntegerOrder : Prop :=
  ∀ p q : Word, pclass p = .finite → pclass q = .finite → p.toInt < q.toInt → pval p < pval q

/-! ### Posit commands -/

/-- 43_posit_core.md R170, R171 and R172 through PADD, PMUL and PDIV: every cell. NaR! cells
complete with INV = 1 when the trap mode is off; the others complete with INV = 0 in either mode. -/
def Obligations.PositShortCircuitTables : Prop :=
  ∀ (a : DWord) (b : Word) (s : State),
    let x := operandA a
    let y := b
    (x = pZero → Completes (.padd a b) s (zext64 y) false) ∧
    (y = pZero → Completes (.padd a b) s (zext64 x) false) ∧
    ((x = pNaR ∧ pclass y = .finite ∨ pclass x = .finite ∧ y = pNaR) → Completes (.padd a b) s 0x80000000#64 false) ∧
    (x = pNaR → y = pNaR → s.cfg.trapOnInvalid = false → Completes (.padd a b) s 0x80000000#64 true) ∧
    ((x = pZero ∧ y ≠ pNaR ∨ x ≠ pNaR ∧ y = pZero) → Completes (.pmul a b) s 0#64 false) ∧
    ((x = pNaR ∧ y ≠ pZero ∨ x ≠ pZero ∧ y = pNaR) → Completes (.pmul a b) s 0x80000000#64 false) ∧
    ((x = pNaR ∧ y = pZero ∨ x = pZero ∧ y = pNaR) → s.cfg.trapOnInvalid = false →
      Completes (.pmul a b) s 0x80000000#64 true) ∧
    (x = pZero → y ≠ pZero → Completes (.pdiv a b) s 0#64 false) ∧
    (pclass x = .finite → y = pNaR → Completes (.pdiv a b) s 0#64 false) ∧
    (x = pNaR → y ≠ pNaR → Completes (.pdiv a b) s 0x80000000#64 false) ∧
    (pclass x = .finite → y = pZero → Completes (.pdiv a b) s 0x80000000#64 false) ∧
    ((x = pZero ∧ y = pZero ∨ x = pNaR ∧ y = pNaR) → s.cfg.trapOnInvalid = false →
      Completes (.pdiv a b) s 0x80000000#64 true) ∧
    (pclass x = .finite → pclass y = .finite →
      pspecialAdd x y = none ∧ pspecialMul x y = none ∧ pspecialDiv x y = none)

/-- 44_posit_ops.md R180, same signs: PADD of two Finite posits of one sign is their exact sum truncated toward zero, or
NaR past the largest exponent; never invalid. -/
def Obligations.PaddOfSameSignsTruncatesTheExactSum : Prop :=
  ∀ (a : DWord) (b : Word) (s : State), pclass (operandA a) = .finite → pclass b = .finite →
    signOf (operandA a) = signOf b →
    ∃ r : Word, Completes (.padd a b) s (zext64 r) false ∧ IsPositOf (pval (operandA a) + pval b) r

/-- 44_posit_ops.md R180, different signs: with (x, y) the operands ordered so that x has the larger or equal exponent, y's
significand is aligned to x's by a truncating shift; an exact cancellation gives 0, and otherwise the result is the
difference, on the posit grid. -/
def Obligations.PaddOfDifferentSignsSubtractsTheAlignedOperand : Prop :=
  ∀ (a : DWord) (b : Word) (s : State), pclass (operandA a) = .finite → pclass b = .finite →
    signOf (operandA a) ≠ signOf b →
    let x := if (pdecode (operandA a)).exp < (pdecode b).exp then pdecode b else pdecode (operandA a)
    let y := if (pdecode (operandA a)).exp < (pdecode b).exp then pdecode (operandA a) else pdecode b
    let v := sgn x.s * ((x.sig.toNat : ℚ) - ((y.sig.toNat / 2 ^ (x.exp - y.exp).toNat : Nat) : ℚ)) * 2 ^ (x.exp - 31)
    ∃ r : Word, Completes (.padd a b) s (zext64 r) false ∧ (v = 0 → r = pZero) ∧ (v ≠ 0 → IsPositOf v r)

/-- PSUB is PADD with the second operand negated (44_posit_ops.md R181), and x - x is 0 for every Finite x. -/
def Obligations.PsubIsPaddOfTheNegatedOperand : Prop :=
  ∀ (a : DWord) (b : Word) (s : State),
    (∃ t u : State, exec (.psub a b) s = .next t ∧ exec (.padd a (pneg b)) s = .next u ∧
      ((∃ r v, t = { s with res := r, inv := v, busy := false } ∧ u = t) ∨
       (Traps (.psub a b) s ∧ Traps (.padd a (pneg b)) s))) ∧
    (operandA a = b → b ≠ pNaR → Completes (.psub a b) s 0#64 false)

/-- 44_posit_ops.md R182: PMUL of two Finite posits is the exact product truncated toward zero; overflow is NaR,
underflow is 0, and neither is invalid. -/
def Obligations.PmulTruncatesTheExactProduct : Prop :=
  ∀ (a : DWord) (b : Word) (s : State), pclass (operandA a) = .finite → pclass b = .finite →
    ∃ r : Word, Completes (.pmul a b) s (zext64 r) false ∧ IsPositOf (pval (operandA a) * pval b) r

/-- 44_posit_ops.md R183: PDIV of two Finite posits is the exact quotient truncated toward zero; overflow is NaR,
underflow is 0, and neither is invalid. -/
def Obligations.PdivTruncatesTheExactQuotient : Prop :=
  ∀ (a : DWord) (b : Word) (s : State), pclass (operandA a) = .finite → pclass b = .finite →
    ∃ r : Word, Completes (.pdiv a b) s (zext64 r) false ∧ IsPositOf (pval (operandA a) / pval b) r

/-- 44_posit_ops.md R184 and R185: the guess keeps every significand bit and halves the exponent by floor, and a residual
is converged exactly when it is not NaR and below 2^-16 in magnitude. -/
def Obligations.PsqrtGuessAndConvergence : Prop :=
  (∀ x : Word, pclass x = .finite → signOf x = false →
    pclass (psqrtGuess x) = .finite ∧ signOf (psqrtGuess x) = false ∧
    pval (psqrtGuess x) = ((pdecode x).sig.toNat : ℚ) * 2 ^ ((pdecode x).exp / 2 - 31)) ∧
  ∀ d : Word, pconverged d = true ↔ d ≠ pNaR ∧ |pval d| < 2 ^ (-16 : ℤ)

/-- 44_posit_ops.md R186: zero and NaR by lookup and not invalid, a negative radicand NaR and invalid, and for a positive
Finite posit the k-th Newton iterate, where k is the first of at most 100 iterations whose residual converges, or
100. -/
def Obligations.PsqrtIsTheFirstConvergedNewtonIterate : Prop :=
  ∀ (a : DWord) (b : Word) (s : State),
    let x := operandA a
    let iter : Nat → Word := fun k => (fun t => (pDiv (pAdd t (pDiv x t).r).r 0x48000000#32).r)^[k] (psqrtGuess x)
    let done : Nat → Bool := fun k => pconverged (pSub (pMul (iter k) (iter k)).r x).r
    ((x = pZero ∨ x = pNaR) → Completes (.psqrt a b) s (zext64 x) false) ∧
    (pclass x = .finite → signOf x = true → s.cfg.trapOnInvalid = false →
      Completes (.psqrt a b) s 0x80000000#64 true) ∧
    (pclass x = .finite → signOf x = false →
      ∃ k, 1 ≤ k ∧ k ≤ 100 ∧ Completes (.psqrt a b) s (zext64 (iter k)) false ∧
        (∀ j, 1 ≤ j → j < k → done j = false) ∧ (done k = true ∨ k = 100))

/-- 44_posit_ops.md R187: I2P gives 0 for 0 and otherwise the integer truncated toward zero to the posit grid, INT32_MIN
being 0x80500000; no integer saturates and INV = 0 in either mode. -/
def Obligations.I2pTruncatesTheInteger : Prop :=
  ∀ (a : DWord) (b : Word) (s : State),
    let n := operandA a
    (n = 0#32 → Completes (.i2p a b) s 0#64 false) ∧
    (n = 0x80000000#32 → Completes (.i2p a b) s 0x80500000#64 false) ∧
    (n ≠ 0#32 → ∃ r : Word, Completes (.i2p a b) s (zext64 r) false ∧ IsTruncation (n.toInt : ℚ) r)

/-- 44_posit_ops.md R188: P2I truncates the value toward zero and saturates to INT32_MAX and INT32_MIN; zero and NaR give
0; INV = 0 in either mode. -/
def Obligations.P2iTruncatesAndSaturates : Prop :=
  ∀ (a : DWord) (b : Word) (s : State),
    let p := operandA a
    (p = pNaR → Completes (.p2i a b) s 0#64 false) ∧
    (p ≠ pNaR → 2 ^ 31 ≤ pval p → Completes (.p2i a b) s 0x7FFFFFFF#64 false) ∧
    (p ≠ pNaR → pval p ≤ -2 ^ 31 → Completes (.p2i a b) s 0x80000000#64 false) ∧
    (p ≠ pNaR → |pval p| < 2 ^ 31 → ∃ r : Word, Completes (.p2i a b) s (zext64 r) false ∧
      (0 ≤ pval p → r.toInt = ⌊pval p⌋) ∧ (pval p ≤ 0 → r.toInt = ⌈pval p⌉))

/-! ### Conversions -/

/-- 45_conversions.md R200: F2P maps NaN and the infinities to NaR, the zeros to 0, and a Normal, subnormals included, to
the posit grid: truncated, NaR from 2^121 up and 0 below 2^-120; INV = 0 in either mode. -/
def Obligations.F2pTruncatesTheFloat : Prop :=
  ∀ (a : DWord) (b : Word) (s : State),
    let x := operandA a
    ((isNan x || isInf x) = true → Completes (.f2p a b) s 0x80000000#64 false) ∧
    (isZero x = true → Completes (.f2p a b) s 0#64 false) ∧
    (fclass x = .normal → ∃ r : Word, Completes (.f2p a b) s (zext64 r) false ∧ IsPositOf (fval x) r)

/-- 45_conversions.md R201: P2F gives +0 for zero, FLT_QNAN for NaR, and otherwise the Normal with the posit's sign and
exponent whose significand is the posit's with its low eight bits dropped; F2P undoes it on every posit with at most 23
fraction bits; INV = 0 in either mode. -/
def Obligations.P2fTruncatesTheFraction : Prop :=
  ∀ (a : DWord) (b : Word) (s : State),
    let p := operandA a
    (p = pZero → Completes (.p2f a b) s 0#64 false) ∧
    (p = pNaR → Completes (.p2f a b) s (zext64 s.cfg.fltQnan) false) ∧
    (pclass p = .finite → ∃ r : Word, Completes (.p2f a b) s (zext64 r) false ∧ fclass r = .normal ∧
      fval r = sgn (pdecode p).s * (((pdecode p).sig.toNat / 2 ^ 8 : Nat) : ℚ) * 2 ^ ((pdecode p).exp - 23) ∧
      ((pdecode p).sig.extractLsb' 0 8 = 0#8 → f2p r = p))

/-- 45_conversions.md R202: D2P maps infinities and NaNs to NaR, zeros and subnormals to 0, and every other double to the
posit grid, truncated; INV = 0 in either mode. -/
def Obligations.D2pTruncatesTheDouble : Prop :=
  ∀ (a : DWord) (b : Word) (s : State),
    (dexpField a = 2047 → Completes (.d2p a b) s 0x80000000#64 false) ∧
    (dexpField a = 0 → Completes (.d2p a b) s 0#64 false) ∧
    (dexpField a ≠ 0 → dexpField a ≠ 2047 →
      ∃ r : Word, Completes (.d2p a b) s (zext64 r) false ∧ IsPositOf (dval a) r)

/-- 45_conversions.md R203: P2D gives +0 for zero, DBL_QNAN for NaR, and otherwise a binary64 Normal of exactly the
posit's value, in all 64 bits of RES; and D2P(P2D(p)) = p for every p. That DBL_QNAN is a quiet NaN is DEDUCED
(log 10). -/
def Obligations.P2dIsExactAndD2pUndoesIt : Prop :=
  ∀ (a : DWord) (b : Word) (s : State),
    let p := operandA a
    (p = pZero → Completes (.p2d a b) s 0#64 false) ∧
    (p = pNaR → Completes (.p2d a b) s s.cfg.dblQnan false) ∧
    (pclass p = .finite → ∃ r : DWord, Completes (.p2d a b) s r false ∧ dval r = pval p ∧
      dexpField r ≠ 0 ∧ dexpField r ≠ 2047) ∧
    (s.cfg.dblQnanOk = true → d2p (p2d s.cfg.dblQnan p) = p)
end

