-- ==== Sys2Proof/Laws/State.lean ====
section
/-! SUPPORT. One lemma per field of State and per operation that updates it: what the field is afterwards. -/

namespace Sys2Proof.Machine

/-! ### accept -/

@[simp] theorem accept_res (s : State) (rest : List HostMove) : (s.accept rest).res = s.res := rfl
@[simp] theorem accept_inv (s : State) (rest : List HostMove) : (s.accept rest).inv = s.inv := rfl
@[simp] theorem accept_fault (s : State) (rest : List HostMove) : (s.accept rest).fault = s.fault := rfl
@[simp] theorem accept_cause (s : State) (rest : List HostMove) : (s.accept rest).cause = s.cause := rfl
@[simp] theorem accept_fop (s : State) (rest : List HostMove) : (s.accept rest).fop = s.fop := rfl
@[simp] theorem accept_fa (s : State) (rest : List HostMove) : (s.accept rest).fa = s.fa := rfl
@[simp] theorem accept_fb (s : State) (rest : List HostMove) : (s.accept rest).fb = s.fb := rfl
@[simp] theorem accept_busy (s : State) (rest : List HostMove) : (s.accept rest).busy = true := rfl
@[simp] theorem accept_cfg (s : State) (rest : List HostMove) : (s.accept rest).cfg = s.cfg := rfl
@[simp] theorem accept_inputs (s : State) (rest : List HostMove) : (s.accept rest).inputs = rest := rfl

/-! ### ignoreStart -/

@[simp] theorem ignoreStart_res (s : State) (rest : List HostMove) : (s.ignoreStart rest).res = s.res := rfl
@[simp] theorem ignoreStart_inv (s : State) (rest : List HostMove) : (s.ignoreStart rest).inv = s.inv := rfl
@[simp] theorem ignoreStart_fault (s : State) (rest : List HostMove) : (s.ignoreStart rest).fault = s.fault := rfl
@[simp] theorem ignoreStart_cause (s : State) (rest : List HostMove) : (s.ignoreStart rest).cause = s.cause := rfl
@[simp] theorem ignoreStart_fop (s : State) (rest : List HostMove) : (s.ignoreStart rest).fop = s.fop := rfl
@[simp] theorem ignoreStart_fa (s : State) (rest : List HostMove) : (s.ignoreStart rest).fa = s.fa := rfl
@[simp] theorem ignoreStart_fb (s : State) (rest : List HostMove) : (s.ignoreStart rest).fb = s.fb := rfl
@[simp] theorem ignoreStart_busy (s : State) (rest : List HostMove) : (s.ignoreStart rest).busy = s.busy := rfl
@[simp] theorem ignoreStart_cfg (s : State) (rest : List HostMove) : (s.ignoreStart rest).cfg = s.cfg := rfl
@[simp] theorem ignoreStart_inputs (s : State) (rest : List HostMove) : (s.ignoreStart rest).inputs = rest := rfl

/-! ### applyReset -/

@[simp] theorem applyReset_res (s : State) (rest : List HostMove) : (s.applyReset rest).res = 0#64 := rfl
@[simp] theorem applyReset_inv (s : State) (rest : List HostMove) : (s.applyReset rest).inv = false := rfl
@[simp] theorem applyReset_fault (s : State) (rest : List HostMove) : (s.applyReset rest).fault = false := rfl
@[simp] theorem applyReset_cause (s : State) (rest : List HostMove) : (s.applyReset rest).cause = 0#4 := rfl
@[simp] theorem applyReset_fop (s : State) (rest : List HostMove) : (s.applyReset rest).fop = 0#8 := rfl
@[simp] theorem applyReset_fa (s : State) (rest : List HostMove) : (s.applyReset rest).fa = 0#64 := rfl
@[simp] theorem applyReset_fb (s : State) (rest : List HostMove) : (s.applyReset rest).fb = 0#32 := rfl
@[simp] theorem applyReset_busy (s : State) (rest : List HostMove) : (s.applyReset rest).busy = false := rfl
@[simp] theorem applyReset_cfg (s : State) (rest : List HostMove) : (s.applyReset rest).cfg = s.cfg := rfl
@[simp] theorem applyReset_inputs (s : State) (rest : List HostMove) : (s.applyReset rest).inputs = rest := rfl

/-! ### raiseInvalidTrap -/

@[simp] theorem raiseInvalidTrap_res (c : Command) (s : State) : (raiseInvalidTrap c s).res = s.res := rfl
@[simp] theorem raiseInvalidTrap_inv (c : Command) (s : State) : (raiseInvalidTrap c s).inv = true := rfl
@[simp] theorem raiseInvalidTrap_fault (c : Command) (s : State) : (raiseInvalidTrap c s).fault = true := rfl
@[simp] theorem raiseInvalidTrap_cause (c : Command) (s : State) : (raiseInvalidTrap c s).cause = 1#4 := rfl
@[simp] theorem raiseInvalidTrap_fop (c : Command) (s : State) : (raiseInvalidTrap c s).fop = c.op := rfl
@[simp] theorem raiseInvalidTrap_fa (c : Command) (s : State) : (raiseInvalidTrap c s).fa = c.a := rfl
@[simp] theorem raiseInvalidTrap_fb (c : Command) (s : State) : (raiseInvalidTrap c s).fb = c.b := rfl
@[simp] theorem raiseInvalidTrap_busy (c : Command) (s : State) : (raiseInvalidTrap c s).busy = false := rfl
@[simp] theorem raiseInvalidTrap_cfg (c : Command) (s : State) : (raiseInvalidTrap c s).cfg = s.cfg := rfl
@[simp] theorem raiseInvalidTrap_inputs (c : Command) (s : State) : (raiseInvalidTrap c s).inputs = s.inputs := rfl

/-! ### raiseIllegalCommand -/

@[simp] theorem raiseIllegalCommand_res (c : Command) (s : State) : (raiseIllegalCommand c s).res = s.res := rfl
@[simp] theorem raiseIllegalCommand_inv (c : Command) (s : State) : (raiseIllegalCommand c s).inv = s.inv := rfl
@[simp] theorem raiseIllegalCommand_fault (c : Command) (s : State) : (raiseIllegalCommand c s).fault = true := rfl
@[simp] theorem raiseIllegalCommand_cause (c : Command) (s : State) : (raiseIllegalCommand c s).cause = 2#4 := rfl
@[simp] theorem raiseIllegalCommand_fop (c : Command) (s : State) : (raiseIllegalCommand c s).fop = c.op := rfl
@[simp] theorem raiseIllegalCommand_fa (c : Command) (s : State) : (raiseIllegalCommand c s).fa = c.a := rfl
@[simp] theorem raiseIllegalCommand_fb (c : Command) (s : State) : (raiseIllegalCommand c s).fb = c.b := rfl
@[simp] theorem raiseIllegalCommand_busy (c : Command) (s : State) : (raiseIllegalCommand c s).busy = false := rfl
@[simp] theorem raiseIllegalCommand_cfg (c : Command) (s : State) : (raiseIllegalCommand c s).cfg = s.cfg := rfl
@[simp] theorem raiseIllegalCommand_inputs (c : Command) (s : State) : (raiseIllegalCommand c s).inputs = s.inputs := rfl

/-! ### completeNormally -/

@[simp] theorem completeNormally_res (o : Result) (s : State) : (completeNormally o s).res = o.r := rfl
@[simp] theorem completeNormally_inv (o : Result) (s : State) : (completeNormally o s).inv = o.inv := rfl
@[simp] theorem completeNormally_fault (o : Result) (s : State) : (completeNormally o s).fault = s.fault := rfl
@[simp] theorem completeNormally_cause (o : Result) (s : State) : (completeNormally o s).cause = s.cause := rfl
@[simp] theorem completeNormally_fop (o : Result) (s : State) : (completeNormally o s).fop = s.fop := rfl
@[simp] theorem completeNormally_fa (o : Result) (s : State) : (completeNormally o s).fa = s.fa := rfl
@[simp] theorem completeNormally_fb (o : Result) (s : State) : (completeNormally o s).fb = s.fb := rfl
@[simp] theorem completeNormally_busy (o : Result) (s : State) : (completeNormally o s).busy = false := rfl
@[simp] theorem completeNormally_cfg (o : Result) (s : State) : (completeNormally o s).cfg = s.cfg := rfl
@[simp] theorem completeNormally_inputs (o : Result) (s : State) : (completeNormally o s).inputs = s.inputs := rfl

/-! ### placeCommand -/

@[simp] theorem placeCommand_res (s : State) (c : Command) : (s.placeCommand c).res = s.res := rfl
@[simp] theorem placeCommand_inv (s : State) (c : Command) : (s.placeCommand c).inv = s.inv := rfl
@[simp] theorem placeCommand_fault (s : State) (c : Command) : (s.placeCommand c).fault = s.fault := rfl
@[simp] theorem placeCommand_cause (s : State) (c : Command) : (s.placeCommand c).cause = s.cause := rfl
@[simp] theorem placeCommand_fop (s : State) (c : Command) : (s.placeCommand c).fop = s.fop := rfl
@[simp] theorem placeCommand_fa (s : State) (c : Command) : (s.placeCommand c).fa = s.fa := rfl
@[simp] theorem placeCommand_fb (s : State) (c : Command) : (s.placeCommand c).fb = s.fb := rfl
@[simp] theorem placeCommand_busy (s : State) (c : Command) : (s.placeCommand c).busy = s.busy := rfl
@[simp] theorem placeCommand_cfg (s : State) (c : Command) : (s.placeCommand c).cfg = s.cfg := rfl
@[simp] theorem placeCommand_inputs (s : State) (c : Command) : (s.placeCommand c).inputs = .start c :: s.inputs := rfl

/-! ### load -/

@[simp] theorem load_res (s : State) (cs : List Command) : (s.load cs).res = s.res := rfl
@[simp] theorem load_inv (s : State) (cs : List Command) : (s.load cs).inv = s.inv := rfl
@[simp] theorem load_fault (s : State) (cs : List Command) : (s.load cs).fault = s.fault := rfl
@[simp] theorem load_cause (s : State) (cs : List Command) : (s.load cs).cause = s.cause := rfl
@[simp] theorem load_fop (s : State) (cs : List Command) : (s.load cs).fop = s.fop := rfl
@[simp] theorem load_fa (s : State) (cs : List Command) : (s.load cs).fa = s.fa := rfl
@[simp] theorem load_fb (s : State) (cs : List Command) : (s.load cs).fb = s.fb := rfl
@[simp] theorem load_busy (s : State) (cs : List Command) : (s.load cs).busy = s.busy := rfl
@[simp] theorem load_cfg (s : State) (cs : List Command) : (s.load cs).cfg = s.cfg := rfl
@[simp] theorem load_inputs (s : State) (cs : List Command) : (s.load cs).inputs = cs.map HostMove.start := rfl

/-! ### fresh -/

@[simp] theorem fresh_res (s : State) : (s.fresh).res = 0#64 := rfl
@[simp] theorem fresh_inv (s : State) : (s.fresh).inv = false := rfl
@[simp] theorem fresh_fault (s : State) : (s.fresh).fault = false := rfl
@[simp] theorem fresh_cause (s : State) : (s.fresh).cause = 0#4 := rfl
@[simp] theorem fresh_fop (s : State) : (s.fresh).fop = 0#8 := rfl
@[simp] theorem fresh_fa (s : State) : (s.fresh).fa = 0#64 := rfl
@[simp] theorem fresh_fb (s : State) : (s.fresh).fb = 0#32 := rfl
@[simp] theorem fresh_busy (s : State) : (s.fresh).busy = false := rfl
@[simp] theorem fresh_cfg (s : State) : (s.fresh).cfg = s.cfg := rfl
@[simp] theorem fresh_inputs (s : State) : (s.fresh).inputs = [] := rfl

/-! ### reset -/

@[simp] theorem reset_res : State.reset.res = 0#64 := rfl
@[simp] theorem reset_inv : State.reset.inv = false := rfl
@[simp] theorem reset_fault : State.reset.fault = false := rfl
@[simp] theorem reset_cause : State.reset.cause = 0#4 := rfl
@[simp] theorem reset_fop : State.reset.fop = 0#8 := rfl
@[simp] theorem reset_fa : State.reset.fa = 0#64 := rfl
@[simp] theorem reset_fb : State.reset.fb = 0#32 := rfl
@[simp] theorem reset_busy : State.reset.busy = false := rfl
@[simp] theorem reset_cfg : State.reset.cfg = Config.default := rfl
@[simp] theorem reset_inputs : State.reset.inputs = [] := rfl

end Sys2Proof.Machine
end

