-- ==== Sys2Proof/Laws/Core.lean ====
section
/-! SUPPORT. One lemma per core function that says once what it gives: shifts and negation on naturals, the classes, the
special cells, the shape of a packed result. -/

namespace Sys2Proof.Machine

/-! ### Primitives -/

/-- R102: shr is floor division by 2^k, also past the width. -/
theorem shr_toNat {n : Nat} (v : BitVec n) (k : Nat) : (shr v k).toNat = v.toNat / 2 ^ k := by
  unfold shr
  split
  · simp [Nat.shiftRight_eq_div_pow]
  · next h =>
    have : v.toNat < 2 ^ k := lt_of_lt_of_le v.isLt (Nat.pow_le_pow_right (by decide) (by omega))
    simp [Nat.div_eq_of_lt this]

/-- R103: shl is multiplication by 2^k modulo the width, also past the width. -/
theorem shl_toNat {n : Nat} (v : BitVec n) (k : Nat) : (shl v k).toNat = v.toNat * 2 ^ k % 2 ^ n := by
  unfold shl
  split
  · simp [Nat.shiftLeft_eq]
  · next h =>
    have hd : 2 ^ n ∣ v.toNat * 2 ^ k := Dvd.dvd.mul_left (pow_dvd_pow 2 (by omega)) _
    simp [Nat.mod_eq_zero_of_dvd hd]

/-- R105: negation on naturals. -/
theorem neg32_toNat (x : Word) : (neg32 x).toNat = (2 ^ 32 - x.toNat) % 2 ^ 32 := by
  simp [neg32]

/-- R105: negating twice gives the pattern back. -/
@[simp] theorem neg32_neg32 (x : Word) : neg32 (neg32 x) = x := by
  simp [neg32]

/-- R106: the remainder of a division. -/
theorem urem_eq_mod (n d : Nat) : urem n d = n % d := by
  have := Nat.div_add_mod n d
  simp only [urem, udiv]; omega

/-- R106: the product fits in 64 bits. -/
theorem mul64_toNat (a b : Word) : (mul64 a b).toNat = a.toNat * b.toNat := by
  have h : a.toNat * b.toNat < 2 ^ 64 :=
    calc a.toNat * b.toNat < 2 ^ 32 * 2 ^ 32 := Nat.mul_lt_mul'' a.isLt b.isLt
      _ = 2 ^ 64 := by norm_num
  have ha : a.toNat < 2 ^ 64 := lt_trans a.isLt (by norm_num)
  have hb : b.toNat < 2 ^ 64 := lt_trans b.isLt (by norm_num)
  simp only [mul64, BitVec.toNat_mul, BitVec.toNat_setWidth, Nat.mod_eq_of_lt ha, Nat.mod_eq_of_lt hb,
    Nat.mod_eq_of_lt h]

/-- The exact sum is the sum of the rationals. -/
theorem Exact.toRat_add {p q : Exact} (hp : p.den ≠ 0) (hq : q.den ≠ 0) : (p.add q).toRat = p.toRat + q.toRat := by
  have hp' : (p.den : ℚ) ≠ 0 := Nat.cast_ne_zero.mpr hp
  have hq' : (q.den : ℚ) ≠ 0 := Nat.cast_ne_zero.mpr hq
  simp only [Exact.toRat, Exact.add, Int.cast_add, Int.cast_mul, Int.cast_natCast, Nat.cast_mul]
  field_simp

/-- The exact product is the product of the rationals. -/
theorem Exact.toRat_mul (p q : Exact) : (p.mul q).toRat = p.toRat * q.toRat := by
  simp only [Exact.toRat, Exact.mul, Int.cast_mul, Nat.cast_mul]
  rw [div_mul_div_comm]

/-! ### Classes -/

/-- The posit classes as equations (43_posit_core.md R161). -/
@[simp] theorem pclass_eq_zero {p : Word} : pclass p = .zero ↔ p = pZero := by
  unfold pclass; split <;> rename_i h
  · simp [h]
  · split <;> simp [h]

@[simp] theorem pclass_eq_nar {p : Word} : pclass p = .nar ↔ p = pNaR := by
  unfold pclass; split <;> rename_i h
  · subst h; decide
  · split <;> rename_i h' <;> simp [h']

theorem pclass_eq_finite {p : Word} : pclass p = .finite ↔ p ≠ pZero ∧ p ≠ pNaR := by
  unfold pclass; split <;> rename_i h
  · simp [h]
  · split <;> rename_i h' <;> simp [h, h']

/-- A NaN pattern has exponent field 255 and a nonzero fraction (41_float_core.md R121). -/
theorem fclass_eq_nan {x : Word} : fclass x = .nan ↔ fexpField x = 255 ∧ ffracField x ≠ 0 := by
  unfold fclass
  by_cases h : fexpField x = 255 ∧ ffracField x ≠ 0
  · rw [if_pos h]; exact ⟨fun _ => h, fun _ => rfl⟩
  · rw [if_neg h]
    refine ⟨fun hc => ?_, fun hc => absurd hc h⟩
    split_ifs at hc

/-- A Normal is a finite pattern that is no zero (41_float_core.md R121). -/
theorem fclass_eq_normal {x : Word} :
    fclass x = .normal ↔ fexpField x ≠ 255 ∧ ¬(fexpField x = 0 ∧ ffracField x = 0) := by
  unfold fclass
  constructor
  · intro hc
    split_ifs at hc with h1 h2 h3 h4 h5
    exact ⟨h2, h4⟩
  · rintro ⟨h2, h4⟩
    rw [if_neg (fun h => h2 h.1), if_neg h2, if_neg h4]

/-- FLT_QNAN is a NaN pattern (00_scope.md R14). -/
theorem fclass_fltQnan {c : Config} (h : c.fltQnanOk = true) : fclass c.fltQnan = .nan := by
  simp only [Config.fltQnanOk, Bool.and_eq_true, beq_iff_eq] at h
  refine fclass_eq_nan.mpr ⟨?_, fun hz => ?_⟩
  · simp [fexpField, h.1]
  · have h0 : c.fltQnan.extractLsb' 0 23 = 0#23 := BitVec.eq_of_toNat_eq (by simpa [ffracField] using hz)
    have h22 : (c.fltQnan.extractLsb' 0 23).getLsbD 22 = true := by simpa [BitVec.getLsbD_extractLsb'] using h.2
    rw [h0] at h22
    simp at h22

/-! ### Special cells and packing -/

/-- The addition table leaves exactly the Normal-Normal cell to the kernel (41_float_core.md R127). -/
theorem fspecialAdd_eq_none {q a b : Word} :
    fspecialAdd q a b = none ↔ fclass a = .normal ∧ fclass b = .normal := by
  unfold fspecialAdd
  cases fclass a <;> cases fclass b <;> simp

/-- The multiplication table leaves exactly the Normal-Normal cell to the kernel (41_float_core.md R128). -/
theorem fspecialMul_eq_none {q a b : Word} :
    fspecialMul q a b = none ↔ fclass a = .normal ∧ fclass b = .normal := by
  unfold fspecialMul
  cases fclass a <;> cases fclass b <;> simp

/-- The division table leaves exactly the Normal-Normal cell to the kernel (41_float_core.md R129). -/
theorem fspecialDiv_eq_none {q a b : Word} :
    fspecialDiv q a b = none ↔ fclass a = .normal ∧ fclass b = .normal := by
  unfold fspecialDiv
  cases fclass a <;> cases fclass b <;> simp

/-- The posit tables leave exactly the Finite-Finite cell to the kernel (43_posit_core.md R170). -/
theorem pspecialAdd_eq_none {a b : Word} :
    pspecialAdd a b = none ↔ pclass a = .finite ∧ pclass b = .finite := by
  unfold pspecialAdd
  cases pclass a <;> cases pclass b <;> simp

theorem pspecialMul_eq_none {a b : Word} :
    pspecialMul a b = none ↔ pclass a = .finite ∧ pclass b = .finite := by
  unfold pspecialMul
  cases pclass a <;> cases pclass b <;> simp

theorem pspecialDiv_eq_none {a b : Word} :
    pspecialDiv a b = none ↔ pclass a = .finite ∧ pclass b = .finite := by
  unfold pspecialDiv
  cases pclass a <;> cases pclass b <;> simp

/-- Every result of RoundPack32 is one packed significand: N at Q, or 2^23 at Q + 1 when rounding carried
(41_float_core.md R130). -/
theorem roundPack32_cases (s : Bool) (n d : Nat) :
    (roundedSig n d = 2 ^ 24 ∧ roundPack32 s n d = packRounded s (2 ^ 23) (quantumExp n d + 1)) ∨
    (roundedSig n d ≠ 2 ^ 24 ∧ roundPack32 s n d = packRounded s (roundedSig n d) (quantumExp n d)) := by
  by_cases h : roundedSig n d = 2 ^ 24
  · exact .inl ⟨h, if_pos h⟩
  · exact .inr ⟨h, if_neg h⟩

/-- The quantum exponent is never below -149 (41_float_core.md R130). -/
theorem quantumExp_ge (n d : Nat) : -149 ≤ quantumExp n d := by
  have : fltEmin ≤ max (ilog2 n d) fltEmin := le_max_right _ _
  simp only [quantumExp, fltEmin] at *
  omega

/-- Everything pencode can be: the two saturations, or the magnitude with its sign (43_posit_core.md R166). -/
theorem pencode_cases (s : Bool) (e : Int) (m : Word) :
    (120 < e ∧ pencode s e m = pNaR) ∨ (e < -120 ∧ pencode s e m = pZero) ∨
    (-120 ≤ e ∧ e ≤ 120 ∧ pencode s e m = if s then neg32 (pmagnitude e m) else pmagnitude e m) := by
  unfold pencode maxExp minExp
  by_cases h1 : 120 < e
  · exact .inl ⟨h1, if_pos h1⟩
  · by_cases h2 : e < -120
    · exact .inr (.inl ⟨h2, by rw [if_neg h1, if_pos h2]⟩)
    · exact .inr (.inr ⟨by omega, by omega, by rw [if_neg h1, if_neg h2]⟩)

/-! ### The square-root loops -/

/-- FSQRT's loop from an iterate gives a later iterate: the first converged one, or the last (42_float_ops.md R146). -/
theorem fsqrtLoop_cases (q x : Word) (n : Nat) (s : Word) :
    ∃ k, k ≤ n ∧ fsqrtLoop q x n s = (fsqrtStep q x)^[k] s ∧
      (∀ j, 1 ≤ j → j < k → fconverged (fsqrtResidual q x ((fsqrtStep q x)^[j] s)) = false) ∧
      (k = n ∨ 1 ≤ k ∧ fconverged (fsqrtResidual q x ((fsqrtStep q x)^[k] s)) = true) := by
  induction n generalizing s with
  | zero => exact ⟨0, le_rfl, rfl, fun j h1 h2 => by omega, .inl rfl⟩
  | succ n ih =>
    cases hc : fconverged (fsqrtResidual q x (fsqrtStep q x s)) with
    | true => exact ⟨1, by omega, by simp [fsqrtLoop, hc], fun j h1 h2 => by omega, .inr ⟨le_rfl, hc⟩⟩
    | false =>
      obtain ⟨k, hk, he, hj, hd⟩ := ih (fsqrtStep q x s)
      refine ⟨k + 1, by omega, by simpa [fsqrtLoop, hc] using he, fun j h1 h2 => ?_, ?_⟩
      · obtain rfl | ⟨i, rfl⟩ : j = 1 ∨ ∃ i, j = i + 2 := by
          rcases j with _ | _ | i <;> [omega; exact .inl rfl; exact .inr ⟨i, rfl⟩]
        · exact hc
        · exact hj (i + 1) (by omega) (by omega)
      · exact hd.imp (by omega) fun h => ⟨by omega, h.2⟩

/-- PSQRT's loop from an iterate gives a later iterate: the first converged one, or the last (44_posit_ops.md R186). -/
theorem psqrtLoop_cases (x : Word) (n : Nat) (s : Word) :
    ∃ k, k ≤ n ∧ psqrtLoop x n s = (psqrtStep x)^[k] s ∧
      (∀ j, 1 ≤ j → j < k → pconverged (psqrtResidual x ((psqrtStep x)^[j] s)) = false) ∧
      (k = n ∨ 1 ≤ k ∧ pconverged (psqrtResidual x ((psqrtStep x)^[k] s)) = true) := by
  induction n generalizing s with
  | zero => exact ⟨0, le_rfl, rfl, fun j h1 h2 => by omega, .inl rfl⟩
  | succ n ih =>
    cases hc : pconverged (psqrtResidual x (psqrtStep x s)) with
    | true => exact ⟨1, by omega, by simp [psqrtLoop, hc], fun j h1 h2 => by omega, .inr ⟨le_rfl, hc⟩⟩
    | false =>
      obtain ⟨k, hk, he, hj, hd⟩ := ih (psqrtStep x s)
      refine ⟨k + 1, by omega, by simpa [psqrtLoop, hc] using he, fun j h1 h2 => ?_, ?_⟩
      · obtain rfl | ⟨i, rfl⟩ : j = 1 ∨ ∃ i, j = i + 2 := by
          rcases j with _ | _ | i <;> [omega; exact .inl rfl; exact .inr ⟨i, rfl⟩]
        · exact hc
        · exact hj (i + 1) (by omega) (by omega)
      · exact hd.imp (by omega) fun h => ⟨by omega, h.2⟩

end Sys2Proof.Machine
end

