-- ==== Sys2Proof/Laws/Decode.lean ====
section
/-! SUPPORT. What the decoder can answer, and the fields of an encoded command. -/

namespace Sys2Proof

@[simp] theorem encode_a (i : Instr) : (encode i).a = i.fieldA := by cases i <;> rfl
@[simp] theorem encode_b (i : Instr) : (encode i).b = i.fieldB := by cases i <;> rfl

/-- The decoder reads an encoded command back. -/
@[simp] theorem decode_encode (i : Instr) : decode (encode i) = .instr i := by cases i <;> rfl

/-- Everything the decoder can answer: an instruction whose encoding the command is, or the rejection of the command's
own OP. -/
theorem decode_cases (c : Command) : (∃ i, decode c = .instr i ∧ encode i = c) ∨ decode c = .reserved c.op := by
  obtain ⟨op, a, b⟩ := c
  unfold decode
  split <;> rename_i h <;> first
    | (left; dsimp only at h; subst h; exact ⟨_, rfl, rfl⟩)
    | (right; rfl)

/-- A command that decodes to an instruction is that instruction's encoding. -/
theorem encode_of_decode {c : Command} {i : Instr} (h : decode c = .instr i) : encode i = c := by
  obtain ⟨j, hj, e⟩ | hr := decode_cases c
  · rw [hj] at h; cases h; exact e
  · rw [hr] at h; cases h

/-- A rejection names the command's own OP. -/
theorem op_of_decode_reserved {c : Command} {op : OpCode} (h : decode c = .reserved op) : op = c.op := by
  obtain ⟨j, hj, -⟩ | hr := decode_cases c
  · rw [hj] at h; cases h
  · rw [hr] at h; cases h; rfl

/-- Whether a command is well formed depends on its OP alone (30_encoding.md R60). -/
theorem wellFormed_congr {c d : Command} (h : c.op = d.op) : c.wellFormed = d.wellFormed := by
  unfold Command.wellFormed Command.unit Command.function; rw [h]

/-- The three fields of a command word are the command's (the layout of log 5). -/
@[simp] theorem Command.ofWord_toWord (c : Command) : Command.ofWord c.toWord = c := by
  obtain ⟨op, a, b⟩ := c
  simp only [Command.ofWord, Command.toWord, Command.mk.injEq]
  refine ⟨?_, ?_, ?_⟩ <;> ext i hi <;> simp <;> grind

end Sys2Proof
end

