-- ==== Sys2Proof/Laws/Ops.lean ====
section
/-! SUPPORT. One lemma per shared operation that says once what it can do. -/

namespace Sys2Proof.Machine

/-- When the block is ready (10_state.md R28). -/
theorem ready_iff (s : State) : s.ready = true ↔ s.busy = false ∧ s.fault = false := by
  simp [State.ready]

/-- Everything the end of a command can be: the trap, exactly when inv = 1 in trap mode, or normal completion
(60_exceptions.md R220). -/
theorem complete_cases (c : Command) (o : Result) (s : State) :
    (o.inv = true ∧ s.cfg.trapOnInvalid = true ∧ complete c o s = raiseInvalidTrap c s) ∨
    ((o.inv = false ∨ s.cfg.trapOnInvalid = false) ∧ complete c o s = completeNormally o s) := by
  unfold complete
  cases o.inv <;> cases s.cfg.trapOnInvalid <;> simp

/-- A command with inv = 0 completes normally in either mode. -/
theorem complete_of_valid {c : Command} {o : Result} {s : State} (h : o.inv = false) :
    complete c o s = completeNormally o s := by
  simp [complete, h]

/-- With the trap mode off every command completes normally. -/
theorem complete_of_silent {c : Command} {o : Result} {s : State} (h : s.cfg.trapOnInvalid = false) :
    complete c o s = completeNormally o s := by
  simp [complete, h]

/-- With inv = 1 in trap mode the command traps. -/
theorem complete_of_trap {c : Command} {o : Result} {s : State} (hi : o.inv = true)
    (ht : s.cfg.trapOnInvalid = true) : complete c o s = raiseInvalidTrap c s := by
  simp [complete, hi, ht]

@[simp] theorem complete_cfg (c : Command) (o : Result) (s : State) : (complete c o s).cfg = s.cfg := by
  obtain ⟨-, -, h⟩ | ⟨-, h⟩ := complete_cases c o s <;> rw [h] <;> rfl

@[simp] theorem complete_inputs (c : Command) (o : Result) (s : State) : (complete c o s).inputs = s.inputs := by
  obtain ⟨-, -, h⟩ | ⟨-, h⟩ := complete_cases c o s <;> rw [h] <;> rfl

@[simp] theorem complete_busy (c : Command) (o : Result) (s : State) : (complete c o s).busy = false := by
  obtain ⟨-, -, h⟩ | ⟨-, h⟩ := complete_cases c o s <;> rw [h] <;> rfl

end Sys2Proof.Machine
end

