-- ==== Sys2Proof/Laws/Exec.lean ====
section
/-! SUPPORT. Every meaning is one call of the completion rule on the instruction's own result and command
(spec/60_exceptions.md R220): cite exec_eq_complete instead of unfolding a meaning. -/

namespace Sys2Proof.Machine

/-- Execute(OP, A, B): the result and the invalid indicator, from the build parameters and the command alone
(70_reset_and_hazards.md R254). -/
def resultOf (cfg : Config) : Instr → Result
  | .fadd a b => floatResult cfg (fAdd cfg.fltQnan (operandA a) (operandB b))
  | .fsub a b => floatResult cfg (fSub cfg.fltQnan (operandA a) (operandB b))
  | .fmul a b => floatResult cfg (fMul cfg.fltQnan (operandA a) (operandB b))
  | .fdiv a b => floatResult cfg (fDiv cfg.fltQnan (operandA a) (operandB b))
  | .fsqrt a _ => floatResult cfg (fSqrt cfg.fltQnan (operandA a))
  | .i2f a _ => neverInvalid (i2f (operandA a))
  | .f2i a _ => neverInvalid (f2i (operandA a))
  | .padd a b => (pAdd (operandA a) (operandB b)).toResult
  | .psub a b => (pSub (operandA a) (operandB b)).toResult
  | .pmul a b => (pMul (operandA a) (operandB b)).toResult
  | .pdiv a b => (pDiv (operandA a) (operandB b)).toResult
  | .psqrt a _ => (pSqrt (operandA a)).toResult
  | .i2p a _ => neverInvalid (i2p (operandA a))
  | .p2i a _ => neverInvalid (p2i (operandA a))
  | .f2p a _ => neverInvalid (f2p (operandA a))
  | .p2f a _ => neverInvalid (p2f cfg.fltQnan (operandA a))
  | .d2p a _ => neverInvalid (d2p (operandD a))
  | .p2d a _ => .wide (p2d cfg.dblQnan (operandA a)) false

/-- Every instruction ends in the completion rule on its own result. -/
theorem exec_eq_complete (i : Instr) (s : State) :
    exec i s = .next (complete (encode i) (resultOf s.cfg i) s) := by
  cases i <;> rfl

/-- An instruction whose inv is 0 completes with its result. -/
theorem completes_of_valid {i : Instr} {s : State} (h : (resultOf s.cfg i).inv = false) :
    Completes i s (resultOf s.cfg i).r false := by
  rw [Completes, exec_eq_complete, complete_of_valid h, completeNormally, h]

/-- With the trap mode off an instruction completes with its result and its inv. -/
theorem completes_of_silent {i : Instr} {s : State} (h : s.cfg.trapOnInvalid = false) :
    Completes i s (resultOf s.cfg i).r (resultOf s.cfg i).inv := by
  rw [Completes, exec_eq_complete, complete_of_silent h, completeNormally]

/-- An instruction whose inv is 1 traps in trap mode. -/
theorem traps_of_invalid {i : Instr} {s : State} (h : (resultOf s.cfg i).inv = true)
    (ht : s.cfg.trapOnInvalid = true) : Traps i s := by
  rw [Traps, exec_eq_complete, complete_of_trap h ht, raiseInvalidTrap, encode_a', encode_b']
  rfl
where
  encode_a' : (encode i).a = i.fieldA := by cases i <;> rfl
  encode_b' : (encode i).b = i.fieldB := by cases i <;> rfl

end Sys2Proof.Machine
end

