-- ==== Sys2Proof/Laws/PerInstr.lean ====
section
/-! SUPPORT. A statement about every instruction, one lemma per constructor: the encoder gives each instruction an OP whose
unit and function fields spec/30_encoding.md R61 and R63 assign. -/

namespace Sys2Proof.Laws

/-- The instruction's OP is assigned (30_encoding.md R61, R63). -/
def Assigned.Statement (i : Instr) : Prop := (encode i).wellFormed = true

/-- Only the OP decides (30_encoding.md R60). -/
theorem Assigned.of_op {c : Command} (op : OpCode) (h : c.op = op)
    (hw : Command.wellFormed ⟨op, 0#64, 0#32⟩ = true) : c.wellFormed = true :=
  (wellFormed_congr (d := ⟨op, 0#64, 0#32⟩) h).trans hw

theorem Assigned.fadd (a : DWord) (b : Word) : Assigned.Statement (.fadd a b) := Assigned.of_op 0x00#8 rfl (by decide)
theorem Assigned.fsub (a : DWord) (b : Word) : Assigned.Statement (.fsub a b) := Assigned.of_op 0x01#8 rfl (by decide)
theorem Assigned.fmul (a : DWord) (b : Word) : Assigned.Statement (.fmul a b) := Assigned.of_op 0x02#8 rfl (by decide)
theorem Assigned.fdiv (a : DWord) (b : Word) : Assigned.Statement (.fdiv a b) := Assigned.of_op 0x03#8 rfl (by decide)
theorem Assigned.fsqrt (a : DWord) (b : Word) : Assigned.Statement (.fsqrt a b) := Assigned.of_op 0x04#8 rfl (by decide)
theorem Assigned.i2f (a : DWord) (b : Word) : Assigned.Statement (.i2f a b) := Assigned.of_op 0x05#8 rfl (by decide)
theorem Assigned.f2i (a : DWord) (b : Word) : Assigned.Statement (.f2i a b) := Assigned.of_op 0x06#8 rfl (by decide)
theorem Assigned.padd (a : DWord) (b : Word) : Assigned.Statement (.padd a b) := Assigned.of_op 0x10#8 rfl (by decide)
theorem Assigned.psub (a : DWord) (b : Word) : Assigned.Statement (.psub a b) := Assigned.of_op 0x11#8 rfl (by decide)
theorem Assigned.pmul (a : DWord) (b : Word) : Assigned.Statement (.pmul a b) := Assigned.of_op 0x12#8 rfl (by decide)
theorem Assigned.pdiv (a : DWord) (b : Word) : Assigned.Statement (.pdiv a b) := Assigned.of_op 0x13#8 rfl (by decide)
theorem Assigned.psqrt (a : DWord) (b : Word) : Assigned.Statement (.psqrt a b) := Assigned.of_op 0x14#8 rfl (by decide)
theorem Assigned.i2p (a : DWord) (b : Word) : Assigned.Statement (.i2p a b) := Assigned.of_op 0x15#8 rfl (by decide)
theorem Assigned.p2i (a : DWord) (b : Word) : Assigned.Statement (.p2i a b) := Assigned.of_op 0x16#8 rfl (by decide)
theorem Assigned.f2p (a : DWord) (b : Word) : Assigned.Statement (.f2p a b) := Assigned.of_op 0x20#8 rfl (by decide)
theorem Assigned.p2f (a : DWord) (b : Word) : Assigned.Statement (.p2f a b) := Assigned.of_op 0x21#8 rfl (by decide)
theorem Assigned.d2p (a : DWord) (b : Word) : Assigned.Statement (.d2p a b) := Assigned.of_op 0x22#8 rfl (by decide)
theorem Assigned.p2d (a : DWord) (b : Word) : Assigned.Statement (.p2d a b) := Assigned.of_op 0x23#8 rfl (by decide)

end Sys2Proof.Laws
end

