-- ==== Sys2Proof/Laws/Step.lean ====
section
/-! SUPPORT. Everything one step can do, said once; invariants follow from step_cases without unfolding the step. -/

namespace Sys2Proof.Machine

/-- The cases of a step: no move, reset, a START while not ready, a command executed, a reserved OP
(60_exceptions.md R224; 70_reset_and_hazards.md R245, R246). -/
theorem step_cases {s t : State} (h : step s = .next t) :
    (s.inputs = [] ∧ t = s) ∨
    (∃ rest, s.inputs = .rst :: rest ∧ t = s.applyReset rest) ∨
    (∃ c rest, s.inputs = .start c :: rest ∧ s.ready = false ∧ t = s.ignoreStart rest) ∨
    (∃ c rest i, s.inputs = .start c :: rest ∧ s.ready = true ∧ decode c = .instr i ∧
      t = complete c (resultOf s.cfg i) (s.accept rest)) ∨
    (∃ c rest, s.inputs = .start c :: rest ∧ s.ready = true ∧ decode c = .reserved c.op ∧
      t = raiseIllegalCommand c (s.accept rest)) := by
  unfold step at h
  split at h
  · next hi => cases h; exact .inl ⟨hi, rfl⟩
  · next rest hi => cases h; exact .inr (.inl ⟨rest, hi, rfl⟩)
  · next c rest hi =>
    cases hr : s.ready with
    | false => simp only [hr, Bool.false_eq_true, if_false] at h; cases h
               exact .inr (.inr (.inl ⟨c, rest, hi, rfl, rfl⟩))
    | true =>
      simp only [hr, if_true] at h
      split at h
      · next i hd =>
        rw [exec_eq_complete, encode_of_decode hd] at h; cases h
        exact .inr (.inr (.inr (.inl ⟨c, rest, i, hi, rfl, hd, rfl⟩)))
      · next op hd =>
        cases h
        exact .inr (.inr (.inr (.inr ⟨c, rest, hi, rfl, op_of_decode_reserved hd ▸ hd, rfl⟩)))

/-- The step on an accepted command that decodes. -/
theorem step_of_decode {s : State} {c : Command} {rest : List HostMove} {i : Instr} (hi : s.inputs = .start c :: rest)
    (hr : s.ready = true) (hd : decode c = .instr i) :
    step s = .next (complete c (resultOf s.cfg i) (s.accept rest)) := by
  simp only [step, hi, hr, if_true, hd]
  rw [exec_eq_complete, encode_of_decode hd]; rfl

end Sys2Proof.Machine
end

