-- ==== Sys2Proof/Machine/Assembler.lean ====
section
/-! DEFINITION. The command syntax of spec/30_encoding.md R75: one command per line, hexadecimal operands, ';' comments.
It is host-side text; the block itself takes (OP, A, B), and no step reads this file. -/

namespace Sys2Proof.Machine

/-- A row of the opcode map: OP, mnemonic, shape (30_encoding.md R63). -/
structure OpRow where
  op    : OpCode
  name  : String
  shape : Shape
  deriving DecidableEq, Repr

/-- The opcode map (30_encoding.md R63), row for row. -/
def opcodeMap : List OpRow :=
  [⟨0x00#8, "FADD", .rr⟩, ⟨0x01#8, "FSUB", .rr⟩, ⟨0x02#8, "FMUL", .rr⟩, ⟨0x03#8, "FDIV", .rr⟩, ⟨0x04#8, "FSQRT", .r⟩,
   ⟨0x05#8, "I2F", .r⟩, ⟨0x06#8, "F2I", .r⟩] ++
  [⟨0x10#8, "PADD", .rr⟩, ⟨0x11#8, "PSUB", .rr⟩, ⟨0x12#8, "PMUL", .rr⟩, ⟨0x13#8, "PDIV", .rr⟩, ⟨0x14#8, "PSQRT", .r⟩,
   ⟨0x15#8, "I2P", .r⟩, ⟨0x16#8, "P2I", .r⟩] ++
  [⟨0x20#8, "F2P", .r⟩, ⟨0x21#8, "P2F", .r⟩, ⟨0x22#8, "D2P", .d⟩, ⟨0x23#8, "P2D", .rw⟩]

/-- What a source line is. -/
inductive AsmLine where
  | command (c : Command)
  /-- nothing but space and comment -/
  | blank
  | malformed
  deriving DecidableEq, Repr

/-- "';' starts a comment to the end of the line" (30_encoding.md R75). -/
def stripComment (l : List Char) : List Char := l.takeWhile (· != ';')

/-- End the word read so far. -/
def endWord (w : List Char) (rest : List (List Char)) : List (List Char) := if w = [] then rest else w :: rest

/-- The words of a line; a comma is a word of its own, and spaces part words (log 11). -/
def words : List Char → List Char → List (List Char)
  | [], w => endWord w []
  | c :: cs, w =>
    if c = ' ' then endWord w (words cs [])
    else if c = ',' then endWord w ([','] :: words cs [])
    else words cs (w ++ [c])

/-- The value of a hexadecimal digit, in upper or lower case (log 11). -/
def hexDigit (c : Char) : Option Nat :=
  let n := c.toNat
  if 48 ≤ n ∧ n ≤ 57 then some (n - 48)
  else if 65 ≤ n ∧ n ≤ 70 then some (n - 55)
  else if 97 ≤ n ∧ n ≤ 102 then some (n - 87)
  else none

/-- The value of a string of hexadecimal digits read so far as acc. -/
def hexValue : List Char → Nat → Option Nat
  | [], acc => some acc
  | c :: cs, acc =>
    match hexDigit c with
    | some d => hexValue cs (16 * acc + d)
    | none => none

/-- "0x followed by 8 hex digits (16 for the D2P operand)" (30_encoding.md R75); `digits` is 8 or 16. -/
def asmOperand (digits : Nat) : List Char → Option Nat
  | '0' :: 'x' :: ds => if ds.length = digits then hexValue ds 0 else none
  | _ => none

/-- The row a mnemonic names, "in upper or lower case" (30_encoding.md R75). -/
def findRow (w : List Char) : Option OpRow :=
  opcodeMap.find? fun r => w == r.name.toList || w == r.name.toList.map Char.toLower

/-- The command of a row and its operand words: A = zext_64(a) (or d), B = b for RR and 0 otherwise
(30_encoding.md R75). -/
def asmCommand (r : OpRow) (operands : List (List Char)) : Option Command :=
  match r.shape, operands with
  | .rr, [a, [','], b] =>
    match asmOperand 8 a, asmOperand 8 b with
    | some x, some y => some ⟨r.op, BitVec.ofNat 64 x, BitVec.ofNat 32 y⟩
    | _, _ => none
  | .r, [a] => (asmOperand 8 a).map fun x => ⟨r.op, BitVec.ofNat 64 x, 0#32⟩
  | .rw, [a] => (asmOperand 8 a).map fun x => ⟨r.op, BitVec.ofNat 64 x, 0#32⟩
  | .d, [d] => (asmOperand 16 d).map fun x => ⟨r.op, BitVec.ofNat 64 x, 0#32⟩
  | _, _ => none

/-- Assemble one line (30_encoding.md R75). There are no pseudo-instructions (R76). -/
def assembleLine (line : List Char) : AsmLine :=
  match words (stripComment line) [] with
  | [] => .blank
  | m :: operands =>
    match (findRow m).bind fun r => asmCommand r operands with
    | some c => .command c
    | none => .malformed

end Sys2Proof.Machine
end

