-- ==== Sys2Proof/Tests/Slice0.lean ====
section
/-! SUPPORT. The model's own tests, each one step on a small state, with expected results from spec/95_test_vectors.md;
smoke tests of WellFormed; and the witnesses of the obligations' hypotheses. -/

namespace Sys2Proof.Machine

/-- The state an outcome answers, if it answers one. -/
def out? : Host.Outcome State Fault Refusal → Option State
  | .next t => some t
  | .fault _ => none
  | .refused _ => none

/-- The state after one step. -/
def next? (s : State) : Option State := out? (step s)

/-- RES and INV after one instruction in the reset state. -/
def resInv (i : Instr) : Option (DWord × Bool) := (out? (exec i State.reset)).map fun t => (t.res, t.inv)

/-- The reset state of a block built with TRAP_ON_INVALID = true. -/
def trapping : State := { State.reset with cfg := { Config.default with trapOnInvalid := true } }

/-- The reset state with one command to accept. -/
def presenting (c : Command) : State := { State.reset with inputs := [.start c] }

/-- The state after FDIV 0, 0 trapped in it (95_test_vectors.md P3, step 2). -/
def faulted : State :=
  { trapping with res := 0x40400000#64, inv := true, fault := true, cause := 1#4, fop := 0x03#8 }

/-! ### Smoke tests of WellFormed: an ill-formed term for each check, which the check refuses -/

theorem test_wellFormed_refuses_float_function_7 : Command.wellFormed ⟨0x07#8, 0#64, 0#32⟩ = false := by decide
theorem test_wellFormed_refuses_posit_function_7 : Command.wellFormed ⟨0x17#8, 0#64, 0#32⟩ = false := by decide
theorem test_wellFormed_refuses_conversion_function_4 : Command.wellFormed ⟨0x24#8, 0#64, 0#32⟩ = false := by decide
theorem test_wellFormed_refuses_unit_3 : Command.wellFormed ⟨0x30#8, 0#64, 0#32⟩ = false := by decide
theorem test_wellFormed_refuses_unit_15 : Command.wellFormed ⟨0xFF#8, 0#64, 0#32⟩ = false := by decide
theorem test_wellFormed_accepts_the_last_conversion : Command.wellFormed ⟨0x23#8, 0#64, 0#32⟩ = true := by decide
theorem test_spellable_refuses_upper_A_of_a_pair :
    Instr.spellable (.fadd 0xFFFFFFFF3F800000#64 0x3F800000#32) = false :=
  by decide
theorem test_spellable_refuses_upper_A_of_a_single :
    Instr.spellable (.p2i 0x0000000140000000#64 0#32) = false :=
  by decide
theorem test_spellable_refuses_B_of_a_single : Instr.spellable (.fsqrt 0x40800000#64 1#32) = false := by decide
theorem test_spellable_refuses_B_of_a_double : Instr.spellable (.d2p 0x3FF0000000000000#64 1#32) = false := by decide
theorem test_spellable_refuses_B_of_a_wide_result : Instr.spellable (.p2d 0x40000000#64 1#32) = false := by decide
theorem test_spellable_accepts_a_double : Instr.spellable (.d2p 0x3FF0000000000000#64 0#32) = true := by decide

/-! ### Decoding of whole commands written out in 95_test_vectors.md (OP, A, B), and of words of the model's layout (log 5) -/

theorem test_decode_P1_step_3 :
    decode ⟨0x00#8, 0x0000000041100000#64, 0x41800000#32⟩ = .instr (.fadd 0x41100000#64 0x41800000#32) :=
  by decide
theorem test_decode_P2_step_6 :
    decode ⟨0x23#8, 0x000000005C000000#64, 0x00000000#32⟩ = .instr (.p2d 0x5C000000#64 0#32) :=
  by decide
theorem test_decode_P4_step_3 : decode ⟨0x07#8, 0x0000000100000000#64, 0x12345678#32⟩ = .reserved 0x07#8 := by decide
theorem test_decodeWord_posit_multiply :
    decodeWord 0x50000000000000004C00000012#104 = .instr (.pmul 0x4C000000#64 0x50000000#32) :=
  by decide
theorem test_decodeTableWord_conversion : decodeTableWord 8 0x22 = some (.d2p 0#64 0#32) := by decide
theorem test_decodeTableWord_reserved : decodeTableWord 8 0x2F = none := by decide

/-! ### The command syntax of 30_encoding.md R75 (95_test_vectors.md P1 step 3, P5 step 1) -/

theorem test_assemble_pair :
    assembleLine "fadd 0x41100000, 0x41800000 ; 9.0 + 16.0".toList =
    .command ⟨0x00#8, 0x0000000041100000#64, 0x41800000#32⟩ :=
  by decide
theorem test_assemble_double :
    assembleLine "D2P 0x3FB999999999999A".toList = .command ⟨0x22#8, 0x3FB999999999999A#64, 0#32⟩ :=
  by decide
theorem test_assemble_refuses_short_operand : assembleLine "P2D 0x24CCCC".toList = .malformed := by decide
theorem test_opcodeMap_agrees_with_the_decoder :
    opcodeMap.length = 18 ∧ (opcodeMap.all fun r =>
      match decode ⟨r.op, 0#64, 0#32⟩ with
      | .instr i => i.shape == r.shape && (encode i).op == r.op
      | .reserved _ => false) = true :=
  by decide

/-! ### Instructions: vectors of 95_test_vectors.md section 2 (RES, INV after the command in the reset state) -/

theorem test_fadd_tie_up_to_even : resInv (.fadd 0x3F800001#64 0x33800000#32) = some (0x3F800002#64, false) := by decide
theorem test_fadd_opposite_infinities :
    resInv (.fadd 0x7F800000#64 0xFF800000#32) = some (0x7FC00000#64, true) :=
  by decide
theorem test_fsub_negative_zero : resInv (.fsub 0x80000000#64 0x00000000#32) = some (0x80000000#64, false) := by decide
theorem test_fsub_minus_infinity : resInv (.fsub 0x3F800000#64 0x7F800000#32) = some (0xFF800000#64, false) := by decide
theorem test_fmul_subnormal_rounds_up :
    resInv (.fmul 0x00000001#64 0x3F400000#32) = some (0x00000001#64, false) :=
  by decide
theorem test_fmul_sign : resInv (.fmul 0xC0000000#64 0x00800000#32) = some (0x81000000#64, false) := by decide
theorem test_fdiv_one_third : resInv (.fdiv 0x3F800000#64 0x40400000#32) = some (0x3EAAAAAB#64, false) := by decide
theorem test_fdiv_by_negative_zero :
    resInv (.fdiv 0xBF800000#64 0x80000000#32) = some (0x7F800000#64, false) :=
  by decide
theorem test_fsqrt_of_nine_three_iterations :
    resInv (.fsqrt 0x41100000#64 0#32) = some (0x40400004#64, false) :=
  by decide
theorem test_fsqrt_of_negative_zero : resInv (.fsqrt 0x80000000#64 0#32) = some (0x80000000#64, false) := by decide
theorem test_i2f_sticky : resInv (.i2f 0x08000009#64 0#32) = some (0x4D000001#64, false) := by decide
theorem test_i2f_int_min : resInv (.i2f 0x80000000#64 0#32) = some (0xCF000000#64, false) := by decide
theorem test_f2i_toward_zero : resInv (.f2i 0xBFC00000#64 0#32) = some (0xFFFFFFFF#64, false) := by decide
theorem test_f2i_int_min : resInv (.f2i 0xCF000000#64 0#32) = some (0x80000000#64, false) := by decide
theorem test_padd_different_signs_one_above :
    resInv (.padd 0x4C7D6DF0#64 0xFA7A5FE4#32) = some (0x4C7D61C3#64, false) :=
  by decide
theorem test_padd_larger_magnitude_sign :
    resInv (.padd 0x40000000#64 0xBC000000#32) = some (0xC8000000#64, false) :=
  by decide
theorem test_psub_three_minus_one :
    resInv (.psub 0x4C000000#64 0x40000000#32) = some (0x48000000#64, false) :=
  by decide
theorem test_psub_nar_minus_nar : resInv (.psub 0x80000000#64 0x80000000#32) = some (0x80000000#64, true) := by decide
theorem test_pmul_overflow_is_nar :
    resInv (.pmul 0x7FFFFFFF#64 0x48000000#32) = some (0x80000000#64, false) :=
  by decide
theorem test_pmul_truncates : resInv (.pmul 0x32AAAAB0#64 0x4C000000#32) = some (0x40000004#64, false) := by decide
theorem test_pdiv_negative_third : resInv (.pdiv 0xC0000000#64 0x4C000000#32) = some (0xCD555556#64, false) := by decide
theorem test_pdiv_finite_by_nar : resInv (.pdiv 0x40000000#64 0x80000000#32) = some (0x00000000#64, false) := by decide
theorem test_psqrt_of_two_three_iterations :
    resInv (.psqrt 0x48000000#64 0#32) = some (0x43505050#64, false) :=
  by decide
theorem test_psqrt_of_minpos : resInv (.psqrt 0x00000001#64 0#32) = some (0x00008000#64, false) := by decide
theorem test_i2p_truncates : resInv (.i2p 0x7FFFFFFF#64 0#32) = some (0x7FAFFFFF#64, false) := by decide
theorem test_i2p_int_min : resInv (.i2p 0x80000000#64 0#32) = some (0x80500000#64, false) := by decide
theorem test_p2i_toward_zero : resInv (.p2i 0xBC000000#64 0#32) = some (0xFFFFFFFF#64, false) := by decide
theorem test_p2i_saturates : resInv (.p2i 0x80000001#64 0#32) = some (0x80000000#64, false) := by decide
theorem test_f2p_truncates : resInv (.f2p 0x49FFFFFF#64 0#32) = some (0x7E3FFFFF#64, false) := by decide
theorem test_f2p_minpos : resInv (.f2p 0x03800000#64 0#32) = some (0x00000001#64, false) := by decide
theorem test_p2f_truncates : resInv (.p2f 0xBFFFFFFF#64 0#32) = some (0xBF800000#64, false) := by decide
theorem test_p2f_exact : resInv (.p2f 0x24CCCCD0#64 0#32) = some (0x3DCCCCCD#64, false) := by decide
theorem test_d2p_truncates : resInv (.d2p 0x3FB999999999999A#64 0#32) = some (0x24CCCCCC#64, false) := by decide
theorem test_d2p_maxpos : resInv (.d2p 0x4770000000000000#64 0#32) = some (0x7FFFFFFF#64, false) := by decide
theorem test_p2d_exact : resInv (.p2d 0x40000001#64 0#32) = some (0x3FF0000002000000#64, false) := by decide
theorem test_p2d_of_nar : resInv (.p2d 0x80000000#64 0#32) = some (0x7FF8000000000000#64, false) := by decide

/-! ### Steps: programs P3, P4 and P5 of 95_test_vectors.md -/

/-- P3 step 2: FDIV 0, 0 in trap mode enters the fault state, RES kept; STATUS = 0x1B. -/
theorem test_P3_trap :
    (next? { trapping with res := 0x40400000#64, inputs := [.start ⟨0x03#8, 0#64, 0#32⟩] }).map
      (fun t => (t.outputs, t.busy)) =
    some (⟨false, 0x40400000#64, true, true, 1#4, 0x03#8, 0#64, 0#32, 0x1B#8⟩, false) := by decide

/-- P3 step 3 and the RST line: a START while faulted changes nothing the host can read, and RST gives STATUS = 0x0C. -/
theorem test_P3_ignored_then_reset :
    (next? { faulted with inputs := [.start ⟨0x00#8, 0x3F800000#64, 0x3F800000#32⟩, .rst] }).map
      (fun t => (t.outputs, (next? t).map State.status)) = some (faulted.outputs, some 0x0C#8) := by decide

/-- P4 step 3: a reserved OP enters the fault state with the whole command in the report; STATUS = 0x22. -/
theorem test_P4_illegal :
    (next? { State.reset with res := 0x48000000#64, inputs := [.start ⟨0x07#8, 0x100000000#64, 0x12345678#32⟩] }).map
      State.outputs =
    some ⟨false, 0x48000000#64, false, true, 2#4, 0x07#8, 0x100000000#64, 0x12345678#32, 0x22#8⟩ := by decide

/-- P5 step 3: FADD ignores A[63:32] and clears RES[63:32]. -/
theorem test_P5_unread_bits :
    (next? { State.reset with res := 0x3FB9999998000000#64,
                              inputs := [.start ⟨0x00#8, 0xFFFFFFFF3F800000#64, 0x3F800000#32⟩] }).map State.res =
    some 0x40000000#64 := by decide

/-- The table's bare word 0x13 (PDIV 0, 0), placed by withFetchWord, is what the very next step runs. -/
theorem test_withFetchWord_runs_the_word :
    (next? (State.reset.withFetchWord 8 0x13)).map (fun t => (t.res, t.inv, t.inputs)) =
    some (0x80000000#64, true, []) := by decide


/-! ### Witnesses: a concrete state and operands for the hypotheses of every obligation, clause by clause -/

theorem witness_StepRunsTheAcceptedCommand :
    (presenting ⟨0x00#8, 1#64, 2#32⟩).ready = true ∧
    (presenting ⟨0x00#8, 1#64, 2#32⟩).inputs = .start ⟨0x00#8, 1#64, 2#32⟩ :: [] ∧
    decode ⟨0x00#8, 1#64, 2#32⟩ = .instr (.fadd 1#64 2#32) :=
  by decide
theorem witness_ReservedCommandRaisesIllegalCommand :
    (presenting ⟨0x07#8, 0#64, 0#32⟩).ready = true ∧
    (presenting ⟨0x07#8, 0#64, 0#32⟩).inputs = .start ⟨0x07#8, 0#64, 0#32⟩ :: [] ∧
    Command.wellFormed ⟨0x07#8, 0#64, 0#32⟩ = false :=
  by decide
theorem witness_FaultedStateIsLeftOnlyByReset :
    faulted.fault = true ∧ faulted.inputs = [] ∧
    ({ faulted with inputs := [.start ⟨0x00#8, 0#64, 0#32⟩] } : State).inputs = .start ⟨0x00#8, 0#64, 0#32⟩ :: [] ∧
    ({ faulted with inputs := [.rst] } : State).inputs = .rst :: [] :=
  by decide
theorem witness_ResetFromAnyState :
    ({ State.reset with busy := true, inputs := [.rst] } : State).inputs = .rst :: [] :=
  by decide
theorem witness_EveryStepAnswersANextState :
    State.reset.busy = false ∧ State.reset.inputs = [] ∧ faulted.ready = false ∧
    ({ presenting ⟨0x07#8, 0#64, 0#32⟩ with busy := true } : State).ready = false ∧
    (presenting ⟨0x07#8, 0#64, 0#32⟩).inputs = .start ⟨0x07#8, 0#64, 0#32⟩ :: [] :=
  by decide
/-- An unfaulted state that meets the invariant and whose next step raises a fault. -/
theorem witness_FaultRisesExactlyOnTheTwoExceptions :
    trapping.cfg.fltQnanOk = true ∧ trapping.fault = false ∧
    (next? { trapping with inputs := [.start ⟨0x03#8, 0#64, 0#32⟩] }).map State.fault = some true ∧
    (next? { trapping with inputs := [.start ⟨0x07#8, 0#64, 0#32⟩] }).map State.fault = some true ∧
    (next? { trapping with inputs := [.rst] }).map State.fault = some false := by decide

/-- A state that meets the invariant with a command to run (the reset state with a move placed). -/
theorem witness_EveryStepKeepsTheFaultRecordInvariant :
    Inv { trapping with inputs := [.start ⟨0x03#8, 0#64, 0#32⟩] } ∧
    (next? { trapping with inputs := [.start ⟨0x03#8, 0#64, 0#32⟩] }).isSome = true :=
  ⟨⟨rfl, by decide, fun _ => ⟨rfl, rfl, rfl, rfl⟩, fun h => (by cases h), fun h => absurd h (by decide),
    fun h => absurd h (by decide), fun _ h => (by cases h)⟩, by decide⟩

/-- A faulted state, reached by a trap, that meets the invariant. -/
theorem witness_faulted_meets_the_invariant : Inv faulted :=
  ⟨rfl, by decide, fun h => (by cases h), fun _ => .inl rfl,
    fun _ => ⟨rfl, rfl, .fdiv 0#64 0#32, rfl, by decide⟩, fun h => absurd h (by decide), fun _ _ => rfl⟩

theorem witness_EveryInstructionCompletesOrTraps : (Instr.fadd 0#64 0#32).shape ≠ .rw := by decide
theorem witness_ValidOperandsCompleteInEitherMode :
    trapping.cfg.fltQnanOk = true ∧ invalidOperands (.fdiv 0x3F800000#64 0#32) = false :=
  by decide
theorem witness_InvFollowsTheInvalidOperandTable :
    State.reset.cfg.fltQnanOk = true ∧ State.reset.cfg.trapOnInvalid = false ∧ invalidOperands (.fsqrt 0xBF800000#64 0#32) = true :=
  by decide
theorem witness_InvalidOperandsTrapInTrapMode :
    trapping.cfg.fltQnanOk = true ∧ trapping.cfg.trapOnInvalid = true ∧ invalidOperands (.psqrt 0xC0000000#64 0#32) = true :=
  by decide
theorem witness_UnreadOperandBitsOnlyReachTheReport :
    (encode (.fsqrt 0xFFFFFFFFBF800000#64 7#32)).op = (encode (.fsqrt 0xBF800000#64 0#32)).op ∧
    operandA 0xFFFFFFFFBF800000#64 = operandA 0xBF800000#64 :=
  by decide
/-- A two-command run from the reset state that ends without a fault. -/
theorem witness_FaultFreeRunGivesPerCommandResults :
    State.reset.ready = true ∧
    (out? (runSteps 2 (State.reset.load ([⟨0x12#8, 0#64, 0x80000000#32⟩] ++ [⟨0x10#8, 0x40000000#64, 0x40000000#32⟩])))).map
      (fun t => (t.fault, t.res)) = some (false, 0x48000000#64) := by decide

theorem witness_CommandsAfterAFaultChangeNothing : faulted.fault = true := by decide
theorem witness_LeadingZeroCountIsTheRunOfZeros : 1#32 ≠ 0#32 ∧ lzc32 1#32 = 31 ∧ lzc32 0x80000000#32 = 0 := by decide
theorem witness_RneIsTheNearestEvenInteger : 0 < 2 ∧ rne 5 2 = 2 ∧ rne 7 2 = 4 ∧ rne 13 4 = 3 := by decide
theorem witness_CorrectionTableRoundsToNearestEven : 3 ≤ 3 ∧ correction false true false true = true := by decide
theorem witness_UnpackedNormalHasTheFieldsValue :
    fclass 0x00000001#32 = .normal ∧ fclass 0x7F7FFFFF#32 = .normal ∧ funpack 0x00000001#32 = ⟨false, -149, 0x800000⟩ :=
  by decide
theorem witness_RoundPackDependsOnTheRationalOnly : 0 < 1 ∧ 0 < 3 ∧ 0 < 2 ∧ 0 < 6 ∧ 1 * 6 = 2 * 3 := by decide
theorem witness_RoundPackIsTheNearestFloat :
    0 < 1 ∧ 0 < 3 ∧ 1 < (2 ^ 128 - 2 ^ 103) * 3 ∧ isFinite 0x3F800000#32 = true ∧ signOf 0x3F800000#32 = false ∧
    0x3F800000#32 ≠ roundPack32 false 1 3 :=
  by decide
theorem witness_RoundPackOverflowsToInfinity :
    (2 ^ 128 - 2 ^ 103) * 1 ≤ 2 ^ 128 - 2 ^ 103 ∧ roundPack32 false (2 ^ 128 - 2 ^ 103) 1 = 0x7F800000#32 ∧
    roundPack32 false (2 ^ 128 - 2 ^ 103 - 1) 1 = 0x7F7FFFFF#32 :=
  by decide
theorem witness_RoundPackUnderflowsGradually :
    1 * 2 ^ 126 < 2 ^ 150 ∧ roundPack32 true 1 (2 ^ 150) = 0x80000000#32 ∧ roundPack32 false 3 (2 ^ 151) = 1#32 :=
  by decide
theorem witness_PackInvertsUnpackOnNormals :
    fclass 0x00000001#32 = .normal ∧ fclass 0x807FFFFF#32 = .normal ∧ fclass 0x7F7FFFFF#32 = .normal :=
  by decide
theorem witness_FaddFollowsTheSpecialTable :
    State.reset.cfg.fltQnanOk = true ∧ State.reset.cfg.trapOnInvalid = false ∧
    isNan (operandA 0x7F800001#64) = true ∧ isInf (operandA 0x7F800000#64) = true ∧ isInf 0xFF800000#32 = true ∧
    isFinite (operandA 0x80000001#64) = true ∧ isZero (operandA 0x80000000#64) = true ∧ isZero 0#32 = true ∧
    fclass 0x00000001#32 = .normal ∧ fclass (operandA 0x7F7FFFFF#64) = .normal :=
  by decide
theorem witness_FaddRoundsTheExactSum :
    State.reset.cfg.fltQnanOk = true ∧ fclass (operandA 0x3F800000#64) = .normal ∧ fclass 0x3F800000#32 = .normal ∧ fclass 0xBF800000#32 = .normal ∧
    ((2 : ℕ) : ℚ) / ((1 : ℕ) : ℚ) = |fval (operandA 0x3F800000#64) + fval 0x3F800000#32| ∧
    fval (operandA 0x3F800000#64) + fval 0x3F800000#32 ≠ 0 ∧
    ((0 : ℕ) : ℚ) / ((1 : ℕ) : ℚ) = |fval (operandA 0x3F800000#64) + fval 0xBF800000#32| ∧
    fval (operandA 0x3F800000#64) + fval 0xBF800000#32 = 0 :=
  by decide +kernel
theorem witness_FmulFollowsTheSpecialTable :
    State.reset.cfg.fltQnanOk = true ∧ State.reset.cfg.trapOnInvalid = false ∧ isZero (operandA 0#64) = true ∧ isInf 0xFF800000#32 = true ∧
    isInf (operandA 0x7F800000#64) = true ∧ fclass 0xBF800000#32 = .normal ∧ isFinite 0x80000000#32 = true ∧
    fclass (operandA 0x00000001#64) = .normal ∧ isZero 0x80000000#32 = true :=
  by decide
theorem witness_FmulRoundsTheExactProduct :
    State.reset.cfg.fltQnanOk = true ∧ fclass (operandA 0x3F800000#64) = .normal ∧ fclass 0xBF800000#32 = .normal ∧
    ((1 : ℕ) : ℚ) / ((1 : ℕ) : ℚ) = |fval (operandA 0x3F800000#64) * fval 0xBF800000#32| :=
  by decide +kernel
theorem witness_FdivFollowsTheSpecialTable :
    State.reset.cfg.fltQnanOk = true ∧ State.reset.cfg.trapOnInvalid = false ∧ isZero (operandA 0#64) = true ∧ isZero 0#32 = true ∧
    isInf (operandA 0x7F800000#64) = true ∧ isFinite 0x80000000#32 = true ∧ isFinite (operandA 0xC0000000#64) = true ∧
    isInf 0x7F800000#32 = true ∧ fclass (operandA 0x3F800000#64) = .normal ∧ fclass 0x00000001#32 = .normal :=
  by decide
theorem witness_FdivRoundsTheExactQuotient :
    State.reset.cfg.fltQnanOk = true ∧ fclass (operandA 0x3F800000#64) = .normal ∧ fclass 0x40400000#32 = .normal ∧
    ((2 : ℕ) : ℚ) / ((6 : ℕ) : ℚ) = |fval (operandA 0x3F800000#64) / fval 0x40400000#32| :=
  by decide +kernel
theorem witness_FsqrtGuessAndConvergence :
    fclass 0x00000001#32 = .normal ∧ signOf 0x00000001#32 = false ∧ fsqrtGuess 0x40800000#32 = 0x40000000#32 ∧
    fsqrtGuess 0x00000001#32 = 0x1A000000#32 :=
  by decide
theorem witness_FsqrtIsTheFirstConvergedNewtonIterate :
    State.reset.cfg.fltQnanOk = true ∧ State.reset.cfg.trapOnInvalid = false ∧
    isNan (operandA 0x7FC00001#64) = true ∧ (signOf (operandA 0xFF800000#64) && !isZero (operandA 0xFF800000#64)) = true ∧
    fclass (operandA 0x7F800000#64) = .posInf ∧ isZero (operandA 0x80000000#64) = true ∧
    fclass (operandA 0x00000001#64) = .normal ∧ signOf (operandA 0x00000001#64) = false :=
  by decide
theorem witness_I2fRoundsTheInteger :
    operandA 0#64 = 0#32 ∧ operandA 0x80000000#64 ≠ 0#32 ∧ (operandA 0x01000000#64).toInt.natAbs ≤ 2 ^ 24 :=
  by decide
theorem witness_F2iTruncatesAndSaturates :
    isNan (operandA 0x7F800001#64) = true ∧ fclass (operandA 0x7F800000#64) = .posInf ∧
    fclass (operandA 0xFF800000#64) = .negInf ∧ isFinite (operandA 0x4F000000#64) = true ∧
    2 ^ 31 ≤ fval (operandA 0x4F000000#64) ∧ isFinite (operandA 0xCF000000#64) = true ∧
    fval (operandA 0xCF000000#64) ≤ -2 ^ 31 ∧ isFinite (operandA 0x4EFFFFFF#64) = true ∧
    |fval (operandA 0x4EFFFFFF#64)| < 2 ^ 31 ∧ 0 ≤ fval (operandA 0x4EFFFFFF#64) ∧
    |fval (operandA 0xBFC00000#64)| < 2 ^ 31 ∧ fval (operandA 0xBFC00000#64) ≤ 0 :=
  by decide +kernel
theorem witness_DecodedPositIsInRange :
    pclass 1#32 = .finite ∧ pclass 0x7FFFFFFF#32 = .finite ∧ (pdecode 1#32).exp = -120 :=
  by decide
theorem witness_PositEncodeInvertsDecode :
    pclass 0x80000001#32 = .finite ∧ (0x80000000#32).msb = true ∧ (0xFFFFFFFF#32).msb = true :=
  by decide
theorem witness_PositEncodeTruncatesTowardZero :
    (0x80000000#32).msb = true ∧ pencode false 121 0x80000000#32 = pNaR ∧ pencode false (-121) 0x80000000#32 = pZero ∧
    pencode false 120 0x80000000#32 = 0x7FFFFFFF#32 :=
  by decide
theorem witness_PositNegationKeepsExponentAndSignificand :
    pclass 0x7FFFFFFF#32 = .finite ∧ pclass 0xFFFFFFFF#32 = .finite :=
  by decide
theorem witness_PositOrderIsIntegerOrder :
    pclass 0xFFFFFFFF#32 = .finite ∧ pclass 1#32 = .finite ∧ (0xFFFFFFFF#32).toInt < (1#32).toInt :=
  by decide
theorem witness_PositShortCircuitTables :
    operandA 0#64 = pZero ∧ (0#32) = pZero ∧ (0x80000000#32) = pNaR ∧ operandA 0x80000000#64 = pNaR ∧ pclass (operandA 1#64) = .finite ∧ pclass 1#32 = .finite ∧
    State.reset.cfg.trapOnInvalid = false :=
  by decide
theorem witness_PaddOfSameSignsTruncatesTheExactSum :
    pclass (operandA 0x7FFFFFFF#64) = .finite ∧ pclass 0x7FFFFFFF#32 = .finite ∧ signOf (operandA 0x7FFFFFFF#64) = signOf 0x7FFFFFFF#32 :=
  by decide
theorem witness_PaddOfDifferentSignsSubtractsTheAlignedOperand :
    pclass (operandA 0x40000000#64) = .finite ∧ pclass 0xFFFFFFFF#32 = .finite ∧ signOf (operandA 0x40000000#64) ≠ signOf 0xFFFFFFFF#32 :=
  by decide
theorem witness_PsubIsPaddOfTheNegatedOperand :
    operandA 0x40000000#64 = 0x40000000#32 ∧ 0x40000000#32 ≠ pNaR :=
  by decide
theorem witness_PmulTruncatesTheExactProduct :
    pclass (operandA 0x7FFFFFFF#64) = .finite ∧ pclass 0x80000001#32 = .finite :=
  by decide
theorem witness_PdivTruncatesTheExactQuotient :
    pclass (operandA 1#64) = .finite ∧ pclass 0x7FFFFFFF#32 = .finite :=
  by decide
theorem witness_PsqrtGuessAndConvergence :
    pclass 1#32 = .finite ∧ signOf 1#32 = false ∧ psqrtGuess 0x4C000000#32 = 0x44000000#32 :=
  by decide
theorem witness_PsqrtIsTheFirstConvergedNewtonIterate :
    State.reset.cfg.trapOnInvalid = false ∧ operandA 0#64 = pZero ∧ operandA 0x80000000#64 = pNaR ∧ pclass (operandA 0xC0000000#64) = .finite ∧
    signOf (operandA 0xC0000000#64) = true ∧ pclass (operandA 0x7FFFFFFF#64) = .finite ∧ signOf (operandA 0x7FFFFFFF#64) = false :=
  by decide
theorem witness_I2pTruncatesTheInteger :
    operandA 0#64 = 0#32 ∧ operandA 0x80000000#64 = 0x80000000#32 ∧ operandA 0x7FFFFFFF#64 ≠ 0#32 :=
  by decide
theorem witness_P2iTruncatesAndSaturates :
    operandA 0x80000000#64 = pNaR ∧ operandA 0x7FB00000#64 ≠ pNaR ∧ 2 ^ 31 ≤ pval (operandA 0x7FB00000#64) ∧
    pval (operandA 0x80500000#64) ≤ -2 ^ 31 ∧ |pval (operandA 0x7FAFFFFF#64)| < 2 ^ 31 ∧
    0 ≤ pval (operandA 0x7FAFFFFF#64) ∧ |pval (operandA 0xBC000000#64)| < 2 ^ 31 ∧ pval (operandA 0xBC000000#64) ≤ 0 :=
  by decide +kernel
theorem witness_F2pTruncatesTheFloat :
    isNan (operandA 0x7FC00000#64) = true ∧ isInf (operandA 0xFF800000#64) = true ∧ isZero (operandA 0x80000000#64) = true ∧
    fclass (operandA 0x00000001#64) = .normal :=
  by decide
theorem witness_P2fTruncatesTheFraction :
    operandA 0#64 = pZero ∧ operandA 0x80000000#64 = pNaR ∧ pclass (operandA 0x7FFFFFFF#64) = .finite ∧
    (pdecode (operandA 0x40000010#64)).sig.extractLsb' 0 8 = 0#8 :=
  by decide
theorem witness_D2pTruncatesTheDouble :
    dexpField 0x7FF0000000000000#64 = 2047 ∧ dexpField 1#64 = 0 ∧ dexpField 0x3FF0000000000000#64 ≠ 0 ∧
    dexpField 0x3FF0000000000000#64 ≠ 2047 :=
  by decide
theorem witness_P2dIsExactAndD2pUndoesIt :
    operandA 0#64 = pZero ∧ operandA 0x80000000#64 = pNaR ∧ pclass (operandA 1#64) = .finite ∧
    State.reset.cfg.dblQnanOk = true :=
  by decide

end Sys2Proof.Machine
end

section
/-! PROOFS. The statements of spec/10_state.md: the reset state (R36), STATUS (R27, R28), and what the operand bits a
command does not read can reach (R35). -/

namespace Sys2Proof

/-! ### An instruction given other operand fields -/

/-- The same operation with operand fields a and b. -/
def Instr.withFields (i : Instr) (a : DWord) (b : Word) : Instr :=
  match i with
  | .fadd _ _ => .fadd a b
  | .fsub _ _ => .fsub a b
  | .fmul _ _ => .fmul a b
  | .fdiv _ _ => .fdiv a b
  | .fsqrt _ _ => .fsqrt a b
  | .i2f _ _ => .i2f a b
  | .f2i _ _ => .f2i a b
  | .padd _ _ => .padd a b
  | .psub _ _ => .psub a b
  | .pmul _ _ => .pmul a b
  | .pdiv _ _ => .pdiv a b
  | .psqrt _ _ => .psqrt a b
  | .i2p _ _ => .i2p a b
  | .p2i _ _ => .p2i a b
  | .f2p _ _ => .f2p a b
  | .p2f _ _ => .p2f a b
  | .d2p _ _ => .d2p a b
  | .p2d _ _ => .p2d a b

@[simp] theorem encode_withFields (i : Instr) (a : DWord) (b : Word) :
    encode (i.withFields a b) = ⟨(encode i).op, a, b⟩ := by
  cases i <;> rfl

/-- The encoder loses nothing: the decoder reads the instruction back. -/
theorem encode_injective {i j : Instr} (h : encode i = encode j) : i = j := by
  have hd : Decoded.instr i = Decoded.instr j := by rw [← decode_encode i, h, decode_encode]
  exact Decoded.instr.inj hd

/-- OP alone identifies the operation (30_encoding.md R60): instructions of one OP differ in their operand fields
only. -/
theorem eq_withFields_of_op {i j : Instr} (h : (encode i).op = (encode j).op) :
    j = i.withFields j.fieldA j.fieldB := by
  apply encode_injective
  rw [encode_withFields, h, ← encode_a, ← encode_b]

end Sys2Proof

namespace Sys2Proof.Machine

/-! ### Unread operand bits (10_state.md R35) -/

/-- A command's result depends on A[31:0], on all of A only in shape D, and on B only in shape RR (30_encoding.md
R62). -/
theorem resultOf_withFields (cfg : Config) (i : Instr) (a : DWord) (b : Word)
    (hA : operandA a = operandA i.fieldA) (hD : i.shape = .d → a = i.fieldA) (hB : i.shape = .rr → b = i.fieldB) :
    resultOf cfg (i.withFields a b) = resultOf cfg i := by
  cases i with
  | fadd | fsub | fmul | fdiv | padd | psub | pmul | pdiv =>
    simp only [Instr.withFields, resultOf, hA, hB rfl, Instr.fieldA, Instr.fieldB]
  | d2p => simp only [Instr.withFields, resultOf, hD rfl, Instr.fieldA]
  | fsqrt | i2f | f2i | psqrt | i2p | p2i | f2p | p2f | p2d =>
    simp only [Instr.withFields, resultOf, hA, Instr.fieldA]

/-- Two commands of one OP with one result end alike: both complete in the same state, or both trap and only FA and FB
tell them apart (60_exceptions.md R220, R226). -/
theorem complete_of_same_op {c d : Command} (h : c.op = d.op) (o : Result) (s : State) :
    (complete c o s = completeNormally o s ∧ complete d o s = completeNormally o s) ∨
    (complete c o s = raiseInvalidTrap c s ∧
      complete d o s = { raiseInvalidTrap c s with fa := d.a, fb := d.b }) := by
  obtain ⟨hi, ht, hc⟩ | ⟨hv, hc⟩ := complete_cases c o s
  · right
    refine ⟨hc, ?_⟩
    rw [complete_of_trap hi ht, raiseInvalidTrap, raiseInvalidTrap, h]
  · left
    refine ⟨hc, ?_⟩
    obtain hi | ht := hv
    · exact complete_of_valid hi
    · exact complete_of_silent ht

/-- Settles O18: the two commands have one result, so the completion rule tells them apart in the report only. -/
theorem unreadOperandBitsOnlyReachTheReport : Obligations.UnreadOperandBitsOnlyReachTheReport := by
  unfold Obligations.UnreadOperandBitsOnlyReachTheReport
  intro i j s hop hread
  have hres : resultOf s.cfg j = resultOf s.cfg i := by
    rw [eq_withFields_of_op hop]
    cases hs : i.shape with
    | rr =>
      simp only [hs] at hread
      obtain ⟨hA, hB⟩ := hread
      exact resultOf_withFields _ _ _ _ hA.symm (by simp [hs]) fun _ => hB.symm
    | d =>
      simp only [hs] at hread
      exact resultOf_withFields _ _ _ _ (congrArg operandA hread.symm) (fun _ => hread.symm) (by simp [hs])
    | r | rw =>
      simp only [hs] at hread
      exact resultOf_withFields _ _ _ _ hread.symm (by simp [hs]) (by simp [hs])
  refine ⟨_, _, exec_eq_complete i s, exec_eq_complete j s, ?_⟩
  rw [hres]
  obtain ⟨hi, hj⟩ | ⟨hi, hj⟩ := complete_of_same_op hop (resultOf s.cfg i) s
  · exact .inl ⟨_, _, hi, hj.trans hi.symm⟩
  · rw [hi, hj, ← encode_a i, ← encode_b i, ← encode_a j, ← encode_b j]
    exact .inr ⟨rfl, rfl, rfl⟩

/-! ### STATUS (10_state.md R27) -/

/-- Every bit of STATUS: the four single-bit fields, and CAUSE from bit 4 up. -/
theorem status_getLsbD (s : State) (k : Nat) :
    s.status.getLsbD k =
      if 4 ≤ k then s.cause.getLsbD (k - 4) else if k = 3 then s.cfg.trapOnInvalid else
      if k = 2 then s.ready else if k = 1 then s.fault else s.inv := by
  have hs : s.status.getLsbD k = (s.cause ++ BitVec.ofBool s.cfg.trapOnInvalid ++ BitVec.ofBool s.ready ++
      BitVec.ofBool s.fault ++ BitVec.ofBool s.inv : BitVec (4 + 1 + 1 + 1 + 1)).getLsbD k := rfl
  rw [hs]
  simp only [BitVec.getLsbD_append, BitVec.getLsbD_ofBool]
  grind

/-- STATUS[7:4] is CAUSE. -/
theorem status_cause (s : State) : s.status.extractLsb' 4 4 = s.cause := by
  ext k hk
  simp [status_getLsbD, BitVec.getLsbD_eq_getElem hk]

/-- Settles O9, field by field. -/
theorem statusShowsTheStateBits : Obligations.StatusShowsTheStateBits := by
  unfold Obligations.StatusShowsTheStateBits
  intro s
  exact ⟨status_getLsbD s 0, status_getLsbD s 1, status_getLsbD s 2, status_getLsbD s 3, status_cause s, ready_iff s⟩

/-! ### The reset state (10_state.md R36) -/

@[simp] theorem reset_ready : State.reset.ready = true := by
  rw [ready_iff]
  exact ⟨reset_busy, reset_fault⟩

/-- STATUS after reset, whatever the build parameters: READY alone, and TRAP_ON_INVALID in bit 3. -/
theorem reset_status (c : Config) :
    ({ State.reset with cfg := c } : State).status = 0x04#8 ||| ((BitVec.ofBool c.trapOnInvalid).setWidth 8 <<< 3) := by
  have hbits : ∀ t : Bool,
      0#4 ++ BitVec.ofBool t ++ BitVec.ofBool true ++ BitVec.ofBool false ++ BitVec.ofBool false =
        0x04#8 ||| ((BitVec.ofBool t).setWidth 8 <<< 3) := by decide
  exact hbits c.trapOnInvalid

/-- Settles O8: the reset value of each field, READY from BUSY and FAULT, and STATUS. -/
theorem resetStateHasTheStatedValues : Obligations.ResetStateHasTheStatedValues := by
  unfold Obligations.ResetStateHasTheStatedValues
  exact ⟨reset_res, reset_inv, reset_fault, reset_cause, reset_fop, reset_fa, reset_fb, reset_busy, reset_ready,
    reset_status⟩

/-- Settles O12: BUSY is 0, the default parameters are allowed, and the fault record is empty, so no clause about a
cause or about INV = 1 applies. -/
theorem resetStateMeetsTheInvariant : Obligations.ResetStateMeetsTheInvariant where
  notBusy := reset_busy
  params := by decide
  clean := fun _ => ⟨reset_cause, reset_fop, reset_fa, reset_fb⟩
  named := by simp
  trapReport := by simp
  illegalReport := by simp
  trapModeInv := by simp

end Sys2Proof.Machine
end

section
/-! PROOFS. The statements of spec/30_encoding.md: the opcode map (R63), the round trip through a command word (R60 to
R63), and the reserved OPs (R61, R64). -/

namespace Sys2Proof

/-! ### Command words (the layout of log 5) -/

/-- A word is its three fields put together: the layout leaves no bit out. -/
@[simp] theorem Command.toWord_ofWord (w : CommandWord) : (Command.ofWord w).toWord = w := by
  have hBA : w.extractLsb' 72 32 ++ w.extractLsb' 8 64 = w.extractLsb' 8 96 :=
    BitVec.extractLsb'_append_extractLsb'_eq_extractLsb' rfl
  have hword : w.extractLsb' 8 96 ++ w.extractLsb' 0 8 = w.extractLsb' 0 104 :=
    BitVec.extractLsb'_append_extractLsb'_eq_extractLsb' rfl
  calc (Command.ofWord w).toWord
      = w.extractLsb' 72 32 ++ w.extractLsb' 8 64 ++ w.extractLsb' 0 8 := rfl
    _ = w.extractLsb' 0 104 := by rw [hBA, hword]
    _ = w := BitVec.extractLsb'_eq_self

@[simp] theorem decodeWord_encodeWord (i : Instr) : decodeWord (encodeWord i) = .instr i := by
  rw [decodeWord, encodeWord, Command.ofWord_toWord, decode_encode]

/-- A word that decodes to an instruction is that instruction's encoding. -/
theorem encodeWord_of_decodeWord {w : CommandWord} {i : Instr} (h : decodeWord w = .instr i) : encodeWord i = w := by
  rw [encodeWord, encode_of_decode h, Command.toWord_ofWord]

/-- Settles O2: a command and its word determine each other, and so do an instruction and its command. -/
theorem decodeAndEncodeAgree : Obligations.DecodeAndEncodeAgree :=
  ⟨decodeWord_encodeWord, fun _ _ => encodeWord_of_decodeWord⟩

/-! ### Reserved OPs (30_encoding.md R61, R64) -/

/-- OP alone decides whether a command is rejected (30_encoding.md R60): an instruction read under other operand fields
is the same operation with those fields. -/
theorem decode_reserved_of_op {c d : Command} (h : c.op = d.op) (hc : decode c = .reserved c.op) :
    decode d = .reserved d.op := by
  obtain ⟨i, -, hi⟩ | hd := decode_cases d
  · have hci : encode (i.withFields c.a c.b) = c := by rw [encode_withFields, hi, ← h]
    rw [← hci, decode_encode] at hc
    cases hc
  · exact hd

/-- The decoder rejects exactly the OPs whose unit and function fields are unassigned. -/
theorem decode_reserved_iff_not_wellFormed (c : Command) : decode c = .reserved c.op ↔ c.wellFormed = false := by
  have hzero : ∀ op : OpCode, decode ⟨op, 0#64, 0#32⟩ = .reserved op ↔
      Command.wellFormed ⟨op, 0#64, 0#32⟩ = false := by decide
  have hw : c.wellFormed = Command.wellFormed ⟨c.op, 0#64, 0#32⟩ := wellFormed_congr rfl
  rw [hw, ← hzero c.op]
  exact ⟨decode_reserved_of_op rfl, decode_reserved_of_op rfl⟩

theorem wellFormed_iff_exists_instr (c : Command) : c.wellFormed = true ↔ ∃ i, decode c = .instr i := by
  have hrej := decode_reserved_iff_not_wellFormed c
  obtain ⟨i, hi, -⟩ | hr := decode_cases c
  · have hw : c.wellFormed = true := by simpa [hi] using hrej
    exact iff_of_true hw ⟨i, hi⟩
  · have hw : c.wellFormed = false := hrej.mp hr
    simp [hw, hr]

theorem Command.unit_toNat (c : Command) : c.unit.toNat = c.op.toNat / 16 := by
  have := c.op.isLt
  simp only [Command.unit, BitVec.extractLsb'_toNat, Nat.shiftRight_eq_div_pow]
  omega

theorem Command.function_toNat (c : Command) : c.function.toNat = c.op.toNat % 16 := by
  simp [Command.function, BitVec.extractLsb'_toNat]

/-- The unassigned unit and function fields, as the ranges of R64. -/
theorem not_wellFormed_iff_op (c : Command) : c.wellFormed = false ↔
    (0x07 ≤ c.op.toNat ∧ c.op.toNat ≤ 0x0F) ∨ (0x17 ≤ c.op.toNat ∧ c.op.toNat ≤ 0x1F) ∨
    (0x24 ≤ c.op.toNat ∧ c.op.toNat ≤ 0x2F) ∨ (0x30 ≤ c.op.toNat ∧ c.op.toNat ≤ 0xFF) := by
  have hlt := c.op.isLt
  simp only [Command.wellFormed, Bool.or_eq_false_iff, Bool.and_eq_false_imp, beq_iff_eq, decide_eq_false_iff_not,
    ← BitVec.toNat_inj, Command.unit_toNat, Command.function_toNat, BitVec.toNat_ofNat]
  omega

/-- The OP n, under zero operands, is reserved. -/
def opReserved (n : Nat) : Bool := !(Command.wellFormed ⟨BitVec.ofNat 8 n, 0#64, 0#32⟩)

/-- Units 0x3 to 0xF have no assigned function. -/
theorem opReserved_of_unassigned_unit {n : Nat} (hlo : 48 ≤ n) (hhi : n < 256) : opReserved n = true := by
  rw [opReserved, Bool.not_eq_true', not_wellFormed_iff_op, BitVec.toNat_ofNat]
  omega

/-- 238 of the 256 OPs are reserved: 30 in the three assigned units, and all 208 of the others. -/
theorem length_filter_opReserved : ((List.range 256).filter opReserved).length = 238 := by
  have hunits : List.range 256 = List.range 48 ++ (List.range 208).map (48 + ·) := by rw [← List.range_add]
  have hassigned : ((List.range 48).filter opReserved).length = 30 := by decide
  have hothers : ((List.range 208).map (48 + ·)).filter opReserved = (List.range 208).map (48 + ·) := by
    rw [List.filter_eq_self]
    intro n hn
    obtain ⟨k, hk, rfl⟩ := List.mem_map.mp hn
    rw [List.mem_range] at hk
    exact opReserved_of_unassigned_unit (by omega) (by omega)
  rw [hunits, List.filter_append, List.length_append, hassigned, hothers, List.length_map, List.length_range]

/-- Settles O3: the decoder's rejections, the unassigned fields and the ranges of R64 are one set of OPs. -/
theorem reservedOpcodesAreTheUnassignedOnes : Obligations.ReservedOpcodesAreTheUnassignedOnes :=
  ⟨fun c => (decode_reserved_iff_not_wellFormed c).trans (not_wellFormed_iff_op c), wellFormed_iff_exists_instr,
    length_filter_opReserved⟩

/-! ### Assigned OPs (30_encoding.md R63) -/

/-- Settles O1: one row of the opcode map per clause. -/
theorem assignedOpcodesDecode : Obligations.AssignedOpcodesDecode := by
  unfold Obligations.AssignedOpcodesDecode
  refine ⟨fun a b => ?_, by decide, by decide⟩
  exact ⟨decode_fadd a b, decode_fsub a b, decode_fmul a b, decode_fdiv a b, decode_fsqrt a b, decode_i2f a b,
    decode_f2i a b, decode_padd a b, decode_psub a b, decode_pmul a b, decode_pdiv a b, decode_psqrt a b,
    decode_i2p a b, decode_p2i a b, decode_f2p a b, decode_p2f a b, decode_d2p a b, decode_p2d a b⟩

end Sys2Proof
end

section
/-! PROOFS. The statements of spec/40_primitives.md: the leading-zero count (R100), rounding to the nearest even integer
(R107), and the correction table with the sticky shift that feeds it (R104, R108). -/

namespace Sys2Proof.Machine

/-! ### The leading-zero count (40_primitives.md R100) -/

@[simp] theorem lzc32_zero : lzc32 0#32 = 32 := rfl

/-- R100 for a nonzero pattern: the count and the position of the highest 1 bit add up to 31. -/
theorem lzc32_add_log2 {x : Word} (hx : x ≠ 0#32) : lzc32 x + x.toNat.log2 = 31 := by
  have hlog : x.toNat.log2 < 32 := (Nat.log2_lt (BitVec.toNat_ne.mp hx)).mpr x.isLt
  rw [lzc32, if_neg hx]
  omega

/-- Settles O21: the bit below the run is the highest 1 bit, so every bit of the run lies above it. -/
theorem leadingZeroCountIsTheRunOfZeros : Obligations.LeadingZeroCountIsTheRunOfZeros := by
  unfold Obligations.LeadingZeroCountIsTheRunOfZeros
  refine ⟨lzc32_zero, fun x hx => ?_⟩
  have hsum := lzc32_add_log2 hx
  have hne : x.toNat ≠ 0 := BitVec.toNat_ne.mp hx
  have htop : 31 - lzc32 x = x.toNat.log2 := by omega
  refine ⟨by omega, ?_, fun j hj => ?_⟩
  · rw [htop]
    exact Nat.testBit_log2 hne
  · have habove : x.toNat.log2 < 31 - j := by omega
    exact Nat.testBit_lt_two_pow ((Nat.log2_lt hne).mp habove)

/-! ### Rounding to an integer (40_primitives.md R107) -/

/-- The three cases of R107: below the half, above it, and the tie. -/
theorem rne_cases (n d : Nat) :
    (2 * (n % d) < d ∧ rne n d = n / d) ∨ (d < 2 * (n % d) ∧ rne n d = n / d + 1) ∨
    (2 * (n % d) = d ∧ rne n d = n / d + n / d % 2) := by
  unfold rne udiv
  rw [urem_eq_mod]
  dsimp only
  split_ifs <;> omega

/-- rne depends on the floor and on how the remainder compares with the half only. -/
theorem rne_congr {n d m e : Nat} (hfloor : n / d = m / e) (hbelow : 2 * (n % d) < d ↔ 2 * (m % e) < e)
    (habove : d < 2 * (n % d) ↔ e < 2 * (m % e)) : rne n d = rne m e := by
  have hn := rne_cases n d
  have hm := rne_cases m e
  omega

/-- R107 in integers: rne is within half a divisor of the dividend, and even at exactly half. -/
theorem rne_nearest_even (n : Nat) {d : Nat} (hd : 0 < d) :
    2 * |(rne n d : ℤ) * d - n| ≤ d ∧ (2 * |(rne n d : ℤ) * d - n| = d → rne n d % 2 = 0) := by
  have hlt : n % d < d := Nat.mod_lt n hd
  have hdecomp : (n : ℤ) = (n / d : ℕ) * d + (n % d : ℕ) := by exact_mod_cast (Nat.div_add_mod' n d).symm
  have hdown : |((n / d : ℕ) : ℤ) * d - n| = (n % d : ℕ) := by
    rw [hdecomp, sub_add_cancel_left, abs_neg, Nat.abs_cast]
  have hup : |((n / d + 1 : ℕ) : ℤ) * d - n| = (d - n % d : ℕ) := by
    rw [hdecomp, Nat.cast_add_one, add_one_mul, add_sub_add_left_eq_sub, ← Nat.cast_sub hlt.le, Nat.abs_cast]
  obtain ⟨h, hr⟩ | ⟨h, hr⟩ | ⟨h, hr⟩ := rne_cases n d
  · rw [hr, hdown]
    omega
  · rw [hr, hup]
    omega
  · obtain heven | hodd := Nat.mod_two_eq_zero_or_one (n / d)
    · rw [hr, heven, Nat.add_zero, hdown]
      omega
    · rw [hr, hodd, hup]
      omega

/-- The distance from an integer to a fraction, over the fraction's denominator. -/
theorem abs_sub_div_eq (m n : Nat) {d : Nat} (hd : 0 < d) :
    |(m : ℚ) - (n : ℚ) / d| = ((|(m : ℤ) * d - n| : ℤ) : ℚ) / d := by
  have hd' : (0 : ℚ) < d := by exact_mod_cast hd
  calc |(m : ℚ) - (n : ℚ) / d| = |((m : ℚ) * d - n) / d| := by rw [sub_div, mul_div_cancel_right₀ _ hd'.ne']
    _ = ((|(m : ℤ) * d - n| : ℤ) : ℚ) / d := by rw [abs_div, abs_of_pos hd']; push_cast; rfl

/-- Settles O22: the integer form of R107, divided by the denominator. -/
theorem rneIsTheNearestEvenInteger : Obligations.RneIsTheNearestEvenInteger := by
  unfold Obligations.RneIsTheNearestEvenInteger
  intro n d hd
  have hd' : (0 : ℚ) < d := by exact_mod_cast hd
  obtain ⟨hnear, htie⟩ := rne_nearest_even n hd
  rw [abs_sub_div_eq _ _ hd, div_le_div_iff₀ hd' two_pos, div_eq_div_iff hd'.ne' two_ne_zero, one_mul, mul_comm]
  exact ⟨by exact_mod_cast hnear, fun h => htie (by exact_mod_cast h)⟩

/-! ### The correction table (40_primitives.md R104, R108) -/

/-- The table's decision, read from the value below the retained bit: above the half of 8, or at it with L odd. -/
theorem correction_testBit (v : Nat) :
    correction (v.testBit 3) (v.testBit 2) (v.testBit 1) (v.testBit 0) = true ↔
      4 < v % 8 ∨ (v % 8 = 4 ∧ v / 8 % 2 = 1) := by
  simp only [correction, Nat.testBit_eq_decide_div_mod_eq, Bool.and_eq_true, Bool.or_eq_true, decide_eq_true_eq]
  omega

/-- The table rounds a value with three extra bits to nearest even. -/
theorem roundByTable_eq_rne (v : Nat) : roundByTable v = rne v 8 := by
  simp only [roundByTable, correction_testBit]
  obtain ⟨h, hr⟩ | ⟨h, hr⟩ | ⟨h, hr⟩ := rne_cases v 8
  · rw [hr, if_neg (by omega)]
    rfl
  · rw [hr, if_pos (by omega)]
  · rw [hr]
    split <;> omega

/-- What the sticky shift leaves: the floor, with its lowest bit set when a 1 was shifted out. From the width up, the
floor is 0 and every bit is shifted out. -/
theorem srs_toNat {w : Nat} (hw : 0 < w) (v : BitVec w) (k : Nat) :
    (srs v k).toNat = v.toNat / 2 ^ k ||| (if v.toNat % 2 ^ k = 0 then 0 else 1) := by
  have hlost : v.toNat % 2 ^ min k w = v.toNat % 2 ^ k := by
    obtain hk | hk := le_total k w
    · rw [min_eq_left hk]
    · rw [min_eq_right hk, Nat.mod_eq_of_lt v.isLt,
        Nat.mod_eq_of_lt (v.isLt.trans_le (Nat.pow_le_pow_right two_pos hk))]
  have hone : 1 % 2 ^ w = 1 := Nat.mod_eq_of_lt (Nat.one_lt_two_pow hw.ne')
  rw [srs, BitVec.toNat_or, shr_toNat, hlost, apply_ite BitVec.toNat, BitVec.toNat_ofNat, BitVec.toNat_ofNat, hone,
    Nat.zero_mod]

/-- The sticky bit stands below the tie of three extra bits: ORing it in keeps the retained value and tells a value just
above the half from the half itself. -/
theorem rne_sticky (v : Nat) {p : Nat} (hp : 0 < p) :
    rne (v / p ||| (if v % p = 0 then 0 else 1)) 8 = rne v (p * 8) := by
  have hbelow (c : Nat) : v / p % 8 < c ↔ v % (p * 8) < c * p := by
    rw [← Nat.mod_mul_right_div_self, Nat.div_lt_iff_lt_mul hp]
  have htie (h : v / p % 8 = 4) : v % (p * 8) = v % p + p * 4 := by rw [Nat.mod_mul, h]
  have hfloor : v / (p * 8) = v / p / 8 := (Nat.div_div_eq_div_mul v p 8).symm
  generalize ht : (if v % p = 0 then 0 else 1) = t
  have hhigh : (v / p ||| t) / 2 = v / p / 2 := by
    have : t / 2 = 0 := by split at ht <;> omega
    rw [Nat.or_div_two, this, Nat.or_zero]
  have hlow : (v / p ||| t) % 2 = 1 ↔ v / p % 2 = 1 ∨ v % p ≠ 0 := by
    rw [Nat.or_mod_two_eq_one]
    split at ht <;> omega
  have h4 := hbelow 4
  have h5 := hbelow 5
  exact rne_congr (by omega) (by omega) (by omega)

/-- Settles O23: the table by its sixteen indices; the sticky shift leaves the shifted value with its sticky bit, which
rounds as the unshifted value does. -/
theorem correctionTableRoundsToNearestEven : Obligations.CorrectionTableRoundsToNearestEven := by
  unfold Obligations.CorrectionTableRoundsToNearestEven
  refine ⟨by decide, roundByTable_eq_rne, fun v k hk => ?_⟩
  have hpow : 2 ^ (k - 3) * 8 = 2 ^ k := pow_sub_mul_pow 2 hk
  rw [roundByTable_eq_rne, srs_toNat (by decide), rne_sticky _ (Nat.two_pow_pos _), hpow]

end Sys2Proof.Machine
end

section
/-! PROOFS. What the float core's rounding rests on: ilog2 and rne are functions of the rational (spec/00_scope.md R17,
spec/40_primitives.md R107). -/

namespace Sys2Proof.Machine

/-! ### The base-2 logarithm (00_scope.md R17) -/

/-- A power of two against a fraction, in integers. -/
theorem two_zpow_sub_le_div_iff (a b n : ℕ) {d : ℕ} (hd : 0 < d) :
    (2 : ℚ) ^ ((a : ℤ) - b) ≤ (n : ℚ) / d ↔ d * 2 ^ a ≤ n * 2 ^ b := by
  have hd' : (0 : ℚ) < d := by exact_mod_cast hd
  rw [zpow_natCast_sub_natCast₀ two_ne_zero, div_le_div_iff₀ (by positivity) hd', mul_comm]
  norm_cast

/-- R17: ilog2 is the floor of the rational's base-2 logarithm. The two bit lengths leave E and E + 1. -/
theorem ilog2_eq_log {n d : ℕ} (hn : 0 < n) (hd : 0 < d) : ilog2 n d = Int.log 2 ((n : ℚ) / d) := by
  have hr : (0 : ℚ) < (n : ℚ) / d := by positivity
  have hle (z : ℤ) : (2 : ℚ) ^ z ≤ (n : ℚ) / d ↔ z ≤ Int.log 2 ((n : ℚ) / d) :=
    Int.zpow_le_iff_le_log one_lt_two hr
  have hnlo := Nat.log2_self_le hn.ne'
  have hnhi := Nat.lt_log2_self (n := n)
  have hdlo := Nat.log2_self_le hd.ne'
  have hdhi := Nat.lt_log2_self (n := d)
  have hbelow : (n.log2 : ℤ) - (d.log2 + 1 : ℕ) ≤ Int.log 2 ((n : ℚ) / d) := by
    rw [← hle, two_zpow_sub_le_div_iff _ _ _ hd, mul_comm]
    exact Nat.mul_le_mul hnlo hdhi.le
  have habove : ¬ ((n.log2 + 1 : ℕ) - (d.log2 : ℤ) ≤ Int.log 2 ((n : ℚ) / d)) := by
    rw [← hle, two_zpow_sub_le_div_iff _ _ _ hd, not_le, mul_comm]
    exact Nat.mul_lt_mul_of_le_of_lt hdlo hnhi hd
  have htest := two_zpow_sub_le_div_iff ((n.log2 : ℤ) - d.log2).toNat (-((n.log2 : ℤ) - d.log2)).toNat n hd
  rw [Int.toNat_sub_toNat_neg, hle] at htest
  unfold ilog2
  dsimp only
  split <;> omega

/-- R17 in integers. -/
theorem sub_le_ilog2_iff (a b : ℕ) {n d : ℕ} (hn : 0 < n) (hd : 0 < d) :
    (a : ℤ) - b ≤ ilog2 n d ↔ d * 2 ^ a ≤ n * 2 ^ b := by
  rw [ilog2_eq_log hn hd, ← two_zpow_sub_le_div_iff a b n hd]
  exact (Int.zpow_le_iff_le_log one_lt_two (by positivity)).symm

/-! ### Rounding to an integer (40_primitives.md R107) -/

theorem rne_mul_right (n d : ℕ) {c : ℕ} (hc : 0 < c) : rne (n * c) (d * c) = rne n d := by
  have hrem : 2 * (n * c % (d * c)) = 2 * (n % d) * c := by rw [Nat.mul_mod_mul_right, mul_assoc]
  refine rne_congr (Nat.mul_div_mul_right n d hc) ?_ ?_ <;> rw [hrem, Nat.mul_lt_mul_right hc]

/-- rne depends on the rational only. -/
theorem rne_eq_of_mul_eq {n d n' d' : ℕ} (hd : 0 < d) (hd' : 0 < d') (h : n * d' = n' * d) : rne n d = rne n' d' := by
  rw [← rne_mul_right n d hd', h, mul_comm d d', rne_mul_right n' d' hd]

theorem rne_le {n d c : ℕ} (hd : 0 < d) (h : n ≤ c * d) : rne n d ≤ c := by
  have hcases := rne_cases n d
  obtain rfl | hlt := h.eq_or_lt
  · rw [Nat.mul_div_cancel c hd, Nat.mul_mod_left] at hcases
    omega
  · have := (Nat.div_lt_iff_lt_mul hd).mpr hlt
    omega

theorem le_rne {n d c : ℕ} (hd : 0 < d) (h : c * d ≤ n) : c ≤ rne n d := by
  have hcases := rne_cases n d
  have := (Nat.le_div_iff_mul_le hd).mpr h
  omega

/-- R107: no integer is nearer than rne, and where another is as near rne is even. -/
theorem rne_nearest (n m : ℕ) {d : ℕ} (hd : 0 < d) :
    |(rne n d : ℤ) * d - n| ≤ |(m : ℤ) * d - n| ∧
      (m ≠ rne n d → |(rne n d : ℤ) * d - n| = |(m : ℤ) * d - n| → rne n d % 2 = 0) := by
  obtain ⟨hnear, htie⟩ := rne_nearest_even n hd
  obtain rfl | hne := eq_or_ne m (rne n d)
  · exact ⟨le_rfl, fun h => absurd rfl h⟩
  · have hstep : (d : ℤ) ≤ |(m : ℤ) * d - (rne n d : ℤ) * d| := by
      have hone : 1 ≤ |(m : ℤ) - rne n d| := Int.one_le_abs (sub_ne_zero.mpr (by exact_mod_cast hne))
      rw [← sub_mul, abs_mul, Nat.abs_cast]
      nlinarith
    have htri := abs_sub_le ((m : ℤ) * d) n ((rne n d : ℤ) * d)
    rw [abs_sub_comm (n : ℤ)] at htri
    exact ⟨by omega, fun _ h => htie (by omega)⟩

/-- The even integer c + 1 is reached from half a unit below it, the tie included. -/
theorem succ_le_rne_iff_of_odd (n : ℕ) {d c : ℕ} (hd : 0 < d) (hc : c % 2 = 1) :
    c + 1 ≤ rne n d ↔ (2 * c + 1) * d ≤ 2 * n := by
  obtain ⟨hnear, htie⟩ := rne_nearest_even n hd
  have hup := le_abs_self ((rne n d : ℤ) * d - n)
  have hdown := neg_abs_le ((rne n d : ℤ) * d - n)
  have hsplit : (2 * c + 1) * d = 2 * (c * d) + d := by ring
  rw [hsplit]
  zify at hnear htie ⊢
  obtain hle | hgt := le_or_gt (c + 1) (rne n d)
  · have hmul : ((c + 1 : ℕ) : ℤ) * d ≤ (rne n d : ℤ) * d := by gcongr
    rw [Nat.cast_add_one, add_one_mul] at hmul
    exact iff_of_true (by exact_mod_cast hle) (by linarith)
  · have hmul : (rne n d : ℤ) * d ≤ (c : ℤ) * d := by
      gcongr
      exact Nat.le_of_lt_succ hgt
    refine iff_of_false (by omega) fun h => ?_
    have hmax : (rne n d : ℤ) * d = (c : ℤ) * d := by linarith
    have hround : (rne n d : ℤ) = c := mul_right_cancel₀ (by exact_mod_cast hd.ne') hmax
    have heven := htie (by linarith)
    omega

theorem rne_eq_zero_iff (n : ℕ) {d : ℕ} (hd : 0 < d) : rne n d = 0 ↔ 2 * n ≤ d := by
  have hcases := rne_cases n d
  obtain hlt | hge := lt_or_ge n d
  · rw [Nat.div_eq_of_lt hlt, Nat.mod_eq_of_lt hlt] at hcases
    omega
  · have := Nat.div_pos hge hd
    omega

end Sys2Proof.Machine
end

section
/-! PROOFS. RoundPack32 as one number under a sign bit, and the magnitude of a pattern as an integer of units of
2^-149, the last bit of a subnormal (spec/41_float_core.md R130 to R132). -/

namespace Sys2Proof.Machine

/-! ### The quantum and the significand of RoundPack32 (R130), in units of 2^-149 -/

/-- The quantum 2^Q is 2^q units of 2^-149, the weight of the last bit of a subnormal. -/
def quantumShift (n d : ℕ) : ℕ := (quantumExp n d + 149).toNat

theorem quantumShift_cast (n d : ℕ) : (quantumShift n d : ℤ) = quantumExp n d + 149 :=
  Int.toNat_of_nonneg (by have := quantumExp_ge n d; omega)

/-- The rational is below 2^24 quanta. -/
theorem lt_mul_two_pow_quantumShift {n d : ℕ} (hn : 0 < n) (hd : 0 < d) :
    n * 2 ^ 149 < 2 ^ 24 * (d * 2 ^ quantumShift n d) := by
  have hq := quantumShift_cast n d
  have hmax : ilog2 n d ≤ max (ilog2 n d) fltEmin := le_max_left _ _
  have hlog := (sub_le_ilog2_iff (quantumShift n d + 24) 149 hn hd).not.mp (by unfold quantumExp at hq; omega)
  rw [not_le, pow_add] at hlog
  linarith

/-- Above the subnormal quantum the rational is 2^23 quanta or more. -/
theorem mul_two_pow_quantumShift_le {n d : ℕ} (hn : 0 < n) (hd : 0 < d) (hq : quantumShift n d ≠ 0) :
    2 ^ 23 * (d * 2 ^ quantumShift n d) ≤ n * 2 ^ 149 := by
  have hcast := quantumShift_cast n d
  have hlog := (sub_le_ilog2_iff (quantumShift n d + 23) 149 hn hd).mp
    (by unfold quantumExp fltEmin at hcast; omega)
  rw [pow_add] at hlog
  linarith

/-- R130: N rounds the rational at the quantum. -/
theorem roundedSig_eq (n : ℕ) {d : ℕ} (hd : 0 < d) :
    roundedSig n d = rne (n * 2 ^ 149) (d * 2 ^ quantumShift n d) := by
  have hexp : (-quantumExp n d).toNat + quantumShift n d = 149 + (quantumExp n d).toNat := by
    have := quantumShift_cast n d
    omega
  refine rne_eq_of_mul_eq (by positivity) (by positivity) ?_
  calc n * 2 ^ (-quantumExp n d).toNat * (d * 2 ^ quantumShift n d)
      = n * d * 2 ^ ((-quantumExp n d).toNat + quantumShift n d) := by ring
    _ = n * 2 ^ 149 * (d * 2 ^ (quantumExp n d).toNat) := by rw [hexp]; ring

theorem roundedSig_le {n d : ℕ} (hn : 0 < n) (hd : 0 < d) : roundedSig n d ≤ 2 ^ 24 := by
  rw [roundedSig_eq n hd]
  exact rne_le (by positivity) (lt_mul_two_pow_quantumShift hn hd).le

theorem le_roundedSig {n d : ℕ} (hn : 0 < n) (hd : 0 < d) (hq : quantumShift n d ≠ 0) : 2 ^ 23 ≤ roundedSig n d := by
  rw [roundedSig_eq n hd]
  exact le_rne (by positivity) (mul_two_pow_quantumShift_le hn hd hq)

/-! ### The packed pattern as a number -/

/-- The pattern without its sign that a significand N at quantum 2^q units writes, exponent overflow not yet capped:
the biased exponent is q + 1 with the implicit one in N, so a carry of N into 2^24 raises it by itself. -/
def roundOrdinal (n d : ℕ) : ℕ := quantumShift n d * 2 ^ 23 + roundedSig n d

/-- The pattern of an infinity without its sign. -/
def fInfOrdinal : ℕ := 255 * 2 ^ 23

/-- An exponent field and a fraction field put together. -/
theorem exp_or_frac (b : ℕ) {f : ℕ} (hf : f < 2 ^ 23) :
    (BitVec.ofNat 32 b <<< 23) ||| BitVec.ofNat 32 f = BitVec.ofNat 32 (b * 2 ^ 23 + f) := by
  have hshift : BitVec.ofNat 32 b <<< 23 = BitVec.ofNat 32 (b <<< 23) := by
    apply BitVec.eq_of_toNat_eq
    simp [Nat.shiftLeft_eq]
  rw [hshift, ← BitVec.ofNat_or, ← Nat.shiftLeft_add_eq_or_of_lt hf, Nat.shiftLeft_eq]

/-- R130 to R132: the three cases of packing write one number. -/
theorem packRounded_eq (s : Bool) {N q : ℕ} (hN : N < 2 ^ 24) (hq : q ≠ 0 → 2 ^ 23 ≤ N) :
    packRounded s N ((q : ℤ) - 149) = signBit s ||| BitVec.ofNat 32 (min (q * 2 ^ 23 + N) fInfOrdinal) := by
  unfold packRounded fInfOrdinal
  dsimp only
  have hb : ((q : ℤ) - 149 + 150).toNat = q + 1 := by omega
  split_ifs with hnormal hover
  · rw [min_eq_right (by omega)]
    rfl
  · have hk : (q + 1) * 2 ^ 23 + (N - 2 ^ 23) = q * 2 ^ 23 + N := by omega
    rw [hb, BitVec.or_assoc, exp_or_frac _ (by omega), hk, min_eq_left (by omega)]
  · have hq0 : q = 0 := by omega
    rw [hq0, min_eq_left (by omega), Nat.zero_mul, Nat.zero_add]

/-- R130 to R132: RoundPack32 as a sign bit and a number, capped at infinity. -/
theorem roundPack32_eq (s : Bool) {n d : ℕ} (hn : 0 < n) (hd : 0 < d) :
    roundPack32 s n d = signBit s ||| BitVec.ofNat 32 (min (roundOrdinal n d) fInfOrdinal) := by
  have hcast := quantumShift_cast n d
  obtain ⟨hsig, h⟩ | ⟨hsig, h⟩ := roundPack32_cases s n d
  · have hQ : quantumExp n d + 1 = ((quantumShift n d + 1 : ℕ) : ℤ) - 149 := by omega
    have hk : (quantumShift n d + 1) * 2 ^ 23 + 2 ^ 23 = quantumShift n d * 2 ^ 23 + 2 ^ 24 := by ring
    rw [h, hQ, packRounded_eq s (by norm_num) fun _ => le_rfl, hk, roundOrdinal, hsig]
  · have hQ : quantumExp n d = (quantumShift n d : ℤ) - 149 := by omega
    have := roundedSig_le hn hd
    rw [h, hQ, packRounded_eq s (by omega) (le_roundedSig hn hd), roundOrdinal]

/-- R131: the number reaches infinity exactly from 2^128 - 2^103 up, half a quantum below 2^128. -/
theorem fInfOrdinal_le_roundOrdinal_iff {n d : ℕ} (hn : 0 < n) (hd : 0 < d) :
    fInfOrdinal ≤ roundOrdinal n d ↔ (2 ^ 128 - 2 ^ 103) * d ≤ n := by
  have hhi := lt_mul_two_pow_quantumShift hn hd
  have hsig := roundedSig_le hn hd
  unfold fInfOrdinal roundOrdinal
  obtain hlt | heq | hgt := lt_trichotomy (quantumShift n d) 253
  · have hpow : 2 ^ quantumShift n d ≤ 2 ^ 252 := Nat.pow_le_pow_right two_pos (by omega)
    have := Nat.mul_le_mul_left d hpow
    exact iff_of_false (by omega) (by omega)
  · have hround := succ_le_rne_iff_of_odd (n * 2 ^ 149) (d := d * 2 ^ 253) (c := 2 ^ 24 - 1) (by positivity)
      (by norm_num)
    rw [← heq, ← roundedSig_eq n hd, heq] at hround
    omega
  · have hlo := mul_two_pow_quantumShift_le hn hd (by omega)
    have hge := le_roundedSig hn hd (by omega)
    have hcap : 255 * 2 ^ 23 ≤ quantumShift n d * 2 ^ 23 + roundedSig n d := by omega
    have hpow : 2 ^ 254 ≤ 2 ^ quantumShift n d := Nat.pow_le_pow_right two_pos hgt
    have := Nat.mul_le_mul_left d hpow
    exact iff_of_true hcap (by omega)

/-! ### The magnitude a pattern stands for, in units of 2^-149 -/

/-- The magnitude of the finite pattern k without its sign, in units of 2^-149: the biased exponent less one, or 0 for a
subnormal, is the shift; the rest of k is the significand with its implicit one. -/
def funits (k : ℕ) : ℕ := (k - (k / 2 ^ 23 - 1) * 2 ^ 23) * 2 ^ (k / 2 ^ 23 - 1)

/-- Every pattern is a shift and a significand below 2^24, normalised unless the shift is 0. -/
theorem exists_funits (k : ℕ) :
    ∃ q N, k = q * 2 ^ 23 + N ∧ N < 2 ^ 24 ∧ (q ≠ 0 → 2 ^ 23 ≤ N) ∧ funits k = N * 2 ^ q :=
  ⟨k / 2 ^ 23 - 1, k - (k / 2 ^ 23 - 1) * 2 ^ 23, by omega, by omega, by omega, rfl⟩

/-- A significand at a shift is N times 2^q, and the carry into 2^24 keeps the value. -/
theorem funits_of_significand {q N : ℕ} (hN : N ≤ 2 ^ 24) (hq : q ≠ 0 → 2 ^ 23 ≤ N) :
    funits (q * 2 ^ 23 + N) = N * 2 ^ q := by
  unfold funits
  obtain hlt | rfl := hN.lt_or_eq
  · have hshift : (q * 2 ^ 23 + N) / 2 ^ 23 - 1 = q := by omega
    rw [hshift, Nat.add_sub_cancel_left]
  · have hshift : (q * 2 ^ 23 + 2 ^ 24) / 2 ^ 23 - 1 = q + 1 := by omega
    have hsig : q * 2 ^ 23 + 2 ^ 24 - (q + 1) * 2 ^ 23 = 2 ^ 23 := by omega
    rw [hshift, hsig]
    ring

/-- A larger pattern has the larger magnitude. -/
theorem funits_strictMono : StrictMono funits := by
  refine strictMono_nat_of_lt_succ fun k => ?_
  obtain ⟨q, N, rfl, hN, hq, hk⟩ := exists_funits k
  rw [hk, add_assoc, funits_of_significand hN fun h => (hq h).trans N.le_succ]
  exact Nat.mul_lt_mul_of_pos_right N.lt_succ_self (Nat.two_pow_pos q)

theorem funits_roundOrdinal {n d : ℕ} (hn : 0 < n) (hd : 0 < d) :
    funits (roundOrdinal n d) = roundedSig n d * 2 ^ quantumShift n d :=
  funits_of_significand (roundedSig_le hn hd) (le_roundedSig hn hd)

/-- R130 in integers: no pattern's magnitude is nearer to the rational than the packed one's, and where another is as
near the packed pattern is even. A magnitude at the quantum or above is an integer of quanta, which rne beats; one below
stands below 2^23 quanta, which do not exceed the rational. -/
theorem funits_roundOrdinal_nearest {n d : ℕ} (hn : 0 < n) (hd : 0 < d) {k : ℕ} (hk : k ≠ roundOrdinal n d) :
    |(funits (roundOrdinal n d) : ℤ) * d - (n * 2 ^ 149 : ℕ)| ≤ |(funits k : ℤ) * d - (n * 2 ^ 149 : ℕ)| ∧
    (|(funits (roundOrdinal n d) : ℤ) * d - (n * 2 ^ 149 : ℕ)| = |(funits k : ℤ) * d - (n * 2 ^ 149 : ℕ)| →
      roundOrdinal n d % 2 = 0) := by
  have hne : funits k ≠ funits (roundOrdinal n d) := funits_strictMono.injective.ne hk
  have hparity : roundOrdinal n d % 2 = roundedSig n d % 2 := by unfold roundOrdinal; omega
  have hunits : (funits (roundOrdinal n d) : ℤ) * d = (roundedSig n d : ℤ) * (d * 2 ^ quantumShift n d : ℕ) := by
    rw [funits_roundOrdinal hn hd]
    push_cast
    ring
  have hnearest (m : ℕ) := rne_nearest (n * 2 ^ 149) m (d := d * 2 ^ quantumShift n d) (by positivity)
  rw [← roundedSig_eq n hd] at hnearest
  rw [hparity, hunits]
  obtain ⟨p, M, -, hM, -, hkM⟩ := exists_funits k
  obtain hp | hp := le_or_gt (quantumShift n d) p
  · obtain ⟨c, rfl⟩ := Nat.exists_eq_add_of_le hp
    have hmul : funits k = M * 2 ^ c * 2 ^ quantumShift n d := by rw [hkM]; ring
    have hkd : (funits k : ℤ) * d = (M * 2 ^ c : ℕ) * (d * 2 ^ quantumShift n d : ℕ) := by
      rw [hmul]
      push_cast
      ring
    obtain ⟨hle, htie⟩ := hnearest (M * 2 ^ c)
    rw [hkd]
    refine ⟨hle, htie fun h => hne ?_⟩
    rw [hmul, h, funits_roundOrdinal hn hd]
  · have hlo := mul_two_pow_quantumShift_le hn hd (by omega)
    have hpow : 2 * 2 ^ p ≤ 2 ^ quantumShift n d := by
      rw [← pow_succ']
      exact Nat.pow_le_pow_right two_pos hp
    have hbelow : funits k * d < 2 ^ 23 * (d * 2 ^ quantumShift n d) :=
      calc funits k * d = M * (2 ^ p * d) := by rw [hkM]; ring
        _ < 2 ^ 24 * (2 ^ p * d) := Nat.mul_lt_mul_of_pos_right hM (by positivity)
        _ = 2 ^ 23 * (d * (2 * 2 ^ p)) := by ring
        _ ≤ 2 ^ 23 * (d * 2 ^ quantumShift n d) := Nat.mul_le_mul_left _ (Nat.mul_le_mul_left d hpow)
    obtain ⟨hle, -⟩ := hnearest (2 ^ 23)
    have hfar : |((2 ^ 23 : ℕ) : ℤ) * (d * 2 ^ quantumShift n d : ℕ) - (n * 2 ^ 149 : ℕ)| <
        |(funits k : ℤ) * d - (n * 2 ^ 149 : ℕ)| := by
      zify at hlo hbelow
      rw [abs_of_nonpos (by push_cast; linarith), abs_of_nonpos (by push_cast; linarith)]
      push_cast
      linarith
    have hlt := hle.trans_lt hfar
    exact ⟨hlt.le, fun h => absurd h hlt.ne⟩

end Sys2Proof.Machine
end

section
/-! PROOFS. The statements of spec/41_float_core.md sections 2 and 5: unpacking (R122 to R124) and RoundPack32 (R130 to
R132). -/

namespace Sys2Proof.Machine

/-! ### The fields of a float pattern as numbers (30_encoding.md R70) -/

/-- A pattern without its sign bit, as a number. -/
def fordinal (x : Word) : ℕ := x.toNat % 2 ^ 31

theorem fordinal_lt (x : Word) : fordinal x < 2 ^ 31 := Nat.mod_lt _ (by norm_num)

theorem fexpField_eq (x : Word) : fexpField x = fordinal x / 2 ^ 23 := by
  have := x.isLt
  simp only [fexpField, fordinal, BitVec.extractLsb'_toNat, Nat.shiftRight_eq_div_pow]
  omega

theorem ffracField_eq (x : Word) : ffracField x = fordinal x % 2 ^ 23 := by
  simp only [ffracField, fordinal, BitVec.extractLsb'_toNat, Nat.shiftRight_zero]
  omega

/-- A sign bit set over a number below 2^31. -/
theorem toNat_signBit_or (s : Bool) {k : ℕ} (hk : k < 2 ^ 31) :
    (signBit s ||| BitVec.ofNat 32 k).toNat = s.toNat * 2 ^ 31 + k := by
  have hmod : k % 2 ^ 32 = k := Nat.mod_eq_of_lt (by omega)
  have hsign : (signBit s).toNat = s.toNat <<< 31 := by cases s <;> rfl
  rw [BitVec.toNat_or, BitVec.toNat_ofNat, hmod, hsign, ← Nat.shiftLeft_add_eq_or_of_lt hk, Nat.shiftLeft_eq]

theorem fordinal_signBit_or (s : Bool) {k : ℕ} (hk : k < 2 ^ 31) : fordinal (signBit s ||| BitVec.ofNat 32 k) = k := by
  rw [fordinal, toNat_signBit_or s hk]
  omega

theorem signOf_signBit_or (s : Bool) {k : ℕ} (hk : k < 2 ^ 31) : signOf (signBit s ||| BitVec.ofNat 32 k) = s := by
  rw [signOf, BitVec.msb_eq_decide, toNat_signBit_or s hk]
  cases s with
  | false => exact decide_eq_false (by rw [Bool.toNat_false]; omega)
  | true => exact decide_eq_true (by rw [Bool.toNat_true]; omega)

/-- A pattern is its sign bit over its number. -/
theorem signBit_or_fordinal (x : Word) : signBit (signOf x) ||| BitVec.ofNat 32 (fordinal x) = x := by
  have := x.isLt
  apply BitVec.eq_of_toNat_eq
  rw [toNat_signBit_or _ (fordinal_lt x), signOf, BitVec.msb_eq_decide, fordinal]
  obtain h | h := lt_or_ge x.toNat (2 ^ 31)
  · rw [decide_eq_false (by omega), Bool.toNat_false]
    omega
  · rw [decide_eq_true (by omega), Bool.toNat_true]
    omega

theorem signBit_or_inj (s : Bool) {j k : ℕ} (hj : j < 2 ^ 31) (hk : k < 2 ^ 31) :
    signBit s ||| BitVec.ofNat 32 j = signBit s ||| BitVec.ofNat 32 k ↔ j = k := by
  refine ⟨fun h => ?_, fun h => by rw [h]⟩
  rw [← fordinal_signBit_or s hj, h, fordinal_signBit_or s hk]

/-! ### The classes as ranges (41_float_core.md R121) -/

theorem fclass_normal_iff (x : Word) : fclass x = .normal ↔ 0 < fordinal x ∧ fordinal x < fInfOrdinal := by
  have := fordinal_lt x
  rw [fclass_eq_normal, fexpField_eq, ffracField_eq, fInfOrdinal]
  omega

theorem isInf_iff (x : Word) : isInf x = true ↔ fordinal x = fInfOrdinal := by
  have hfields : fordinal x = fInfOrdinal ↔ fexpField x = 255 ∧ ffracField x = 0 := by
    rw [fexpField_eq, ffracField_eq, fInfOrdinal]
    omega
  rw [hfields, isInf]
  unfold fclass
  split_ifs <;> simp_all

theorem isZero_iff (x : Word) : isZero x = true ↔ fordinal x = 0 := by
  have hfields : fordinal x = 0 ↔ fexpField x = 0 ∧ ffracField x = 0 := by
    rw [fexpField_eq, ffracField_eq]
    omega
  rw [hfields, isZero]
  unfold fclass
  split_ifs <;> simp_all

theorem isFinite_iff_normal_or_zero (x : Word) : isFinite x = true ↔ fclass x = .normal ∨ isZero x = true := by
  simp [isFinite]

/-- The finite patterns are those below infinity. -/
theorem isFinite_iff (x : Word) : isFinite x = true ↔ fordinal x < fInfOrdinal := by
  rw [isFinite_iff_normal_or_zero, fclass_normal_iff, isZero_iff, fInfOrdinal]
  omega

/-! ### Values and unpacking (41_float_core.md R122, R123) -/

@[simp] theorem abs_sgn (s : Bool) : |sgn s| = 1 := by cases s <;> simp [sgn]

/-- The value of a finite pattern in units of 2^-149. -/
theorem fval_eq_funits (x : Word) : fval x = sgn (signOf x) * ((funits (fordinal x) : ℚ) / 2 ^ 149) := by
  have hsig : (if fexpField x = 0 then ffracField x else 2 ^ 23 + ffracField x) =
      fordinal x - (fexpField x - 1) * 2 ^ 23 := by
    rw [fexpField_eq, ffracField_eq]
    split <;> omega
  have hexp : ((max (fexpField x) 1 : ℕ) - 150 : ℤ) = (fexpField x - 1 : ℕ) - (149 : ℕ) := by omega
  rw [fval, hsig, hexp, zpow_natCast_sub_natCast₀ two_ne_zero, funits, ← fexpField_eq]
  push_cast
  ring

/-- The exact rational of a sign, a significand and an exponent. -/
theorem Exact.toRat_scaled (s : Bool) (m : ℕ) (e : ℤ) : (Exact.scaled s m e).toRat = sgn s * m * 2 ^ e := by
  have he : (2 : ℚ) ^ e = 2 ^ e.toNat / 2 ^ (-e).toNat := by
    rw [← zpow_natCast_sub_natCast₀ two_ne_zero, Int.toNat_sub_toNat_neg]
  rw [he]
  cases s <;> simp [Exact.toRat, Exact.scaled, sgn] <;> ring

theorem fvalue_of_normal {x : Word} (h : fclass x = .normal) :
    fvalue x = Exact.scaled (funpack x).s (funpack x).m ((funpack x).e - 23) := by
  rw [fvalue, h]

/-- R122 for a biased exponent that is not 0: the implicit one is put in front of the fraction. -/
theorem funpack_of_exp_ne_zero {x : Word} (h : fexpField x ≠ 0) :
    funpack x = ⟨signOf x, (fexpField x : ℤ) - fltBias, 2 ^ 23 + ffracField x⟩ := if_pos h

/-- A number shifted until its highest 1 stands in bit 23. -/
theorem mul_two_pow_normalised {f k : ℕ} (hf : f ≠ 0) (hk : f.log2 + k = 23) :
    2 ^ 23 ≤ f * 2 ^ k ∧ f * 2 ^ k < 2 ^ 24 := by
  have hlo : 2 ^ 23 = 2 ^ f.log2 * 2 ^ k := by rw [← pow_add, hk]
  have hhi : 2 ^ 24 = 2 ^ (f.log2 + 1) * 2 ^ k := by rw [← pow_add, add_right_comm, hk]
  rw [hlo, hhi]
  exact ⟨Nat.mul_le_mul_right _ (Nat.log2_self_le hf), Nat.mul_lt_mul_of_pos_right Nat.lt_log2_self (Nat.two_pow_pos k)⟩

/-- R122 for a subnormal: the fraction is shifted until its highest 1 stands in bit 23. -/
theorem funpack_of_subnormal {x : Word} (he : fexpField x = 0) (hf : ffracField x ≠ 0) :
    ∃ k, (ffracField x).log2 + k = 23 ∧ funpack x = ⟨signOf x, fltEmin - (k : ℤ), ffracField x * 2 ^ k⟩ := by
  have hlt : ffracField x < 2 ^ 23 := (x.extractLsb' 0 23).isLt
  have hlog : (ffracField x).log2 < 23 := (Nat.log2_lt hf).mpr hlt
  have hword : (BitVec.ofNat 32 (ffracField x)).toNat = ffracField x := by
    rw [BitVec.toNat_ofNat]
    exact Nat.mod_eq_of_lt (by omega)
  have hne : BitVec.ofNat 32 (ffracField x) ≠ 0#32 := BitVec.toNat_ne.mpr (by rwa [hword])
  have hsum := lzc32_add_log2 hne
  rw [hword] at hsum
  rw [funpack, if_neg (not_not.mpr he)]
  dsimp only
  generalize hk : lzc32 (BitVec.ofNat 32 (ffracField x)) - 8 = k
  have hshift : (ffracField x).log2 + k = 23 := by omega
  have hfit : ffracField x * 2 ^ k < 2 ^ 32 := (mul_two_pow_normalised hf hshift).2.trans (by norm_num)
  exact ⟨k, hshift, by rw [shl_toNat, hword, Nat.mod_eq_of_lt hfit]⟩

/-- R122: the significand is normalised, the exponent is in range, and the value is the fields'. -/
theorem funpack_spec {x : Word} (h : fclass x = .normal) :
    2 ^ 23 ≤ (funpack x).m ∧ (funpack x).m < 2 ^ 24 ∧ -149 ≤ (funpack x).e ∧ (funpack x).e ≤ 127 ∧
    (funpack x).s = signOf x ∧ fval x = sgn (funpack x).s * ((funpack x).m : ℚ) * 2 ^ ((funpack x).e - 23) := by
  obtain ⟨hinf, hzero⟩ := fclass_eq_normal.mp h
  have hexplt : fexpField x < 256 := (x.extractLsb' 23 8).isLt
  have hfraclt : ffracField x < 2 ^ 23 := (x.extractLsb' 0 23).isLt
  by_cases he : fexpField x = 0
  · have hf : ffracField x ≠ 0 := fun hf => hzero ⟨he, hf⟩
    obtain ⟨k, hk, hu⟩ := funpack_of_subnormal he hf
    obtain ⟨hlo, hhi⟩ := mul_two_pow_normalised hf hk
    have hval : (2 : ℚ) ^ k * 2 ^ (-126 - (k : ℤ) - 23) = 2 ^ (-149 : ℤ) := by
      rw [← zpow_natCast, ← zpow_add₀ two_ne_zero]
      congr 1
      ring
    simp only [hu, fltEmin]
    refine ⟨hlo, hhi, by omega, by omega, trivial, ?_⟩
    rw [fval, if_pos he, he, Nat.cast_mul, Nat.cast_pow, Nat.cast_ofNat, mul_assoc, mul_assoc, mul_assoc, hval]
    norm_num
  · rw [funpack_of_exp_ne_zero he]
    have hexp : ((max (fexpField x) 1 : ℕ) - 150 : ℤ) = (fexpField x : ℤ) - 127 - 23 := by omega
    simp only [fltBias]
    refine ⟨by omega, by omega, by omega, by omega, trivial, ?_⟩
    rw [fval, if_neg he, hexp]

theorem fvalue_toRat {x : Word} (h : fclass x = .normal) : (fvalue x).toRat = fval x := by
  obtain ⟨-, -, -, -, -, hval⟩ := funpack_spec h
  rw [fvalue_of_normal h, Exact.toRat_scaled, hval]

/-- Settles O24: the two exponent cases of R122, and fvalue is funpack's exact rational. -/
theorem unpackedNormalHasTheFieldsValue : Obligations.UnpackedNormalHasTheFieldsValue := by
  unfold Obligations.UnpackedNormalHasTheFieldsValue
  intro x h
  obtain ⟨hlo, hhi, hemin, hemax, hs, hval⟩ := funpack_spec h
  exact ⟨hlo, hhi, hemin, hemax, hs, hval, fvalue_toRat h⟩

/-! ### Packing an exact value (R124) -/

/-- A fraction that is a pattern's magnitude packs to the pattern: every other is at a positive distance. -/
theorem roundOrdinal_of_exact {n d k : ℕ} (hn : 0 < n) (hd : 0 < d) (h : funits k * d = n * 2 ^ 149) :
    roundOrdinal n d = k := by
  by_contra hne
  obtain ⟨hle, -⟩ := funits_roundOrdinal_nearest hn hd (Ne.symm hne)
  have hself : |(funits k : ℤ) * d - (n * 2 ^ 149 : ℕ)| = 0 := by rw [← h, Nat.cast_mul, sub_self, abs_zero]
  rw [hself] at hle
  have hdist := sub_eq_zero.mp (abs_nonpos_iff.mp hle)
  have hunits : funits (roundOrdinal n d) * d = funits k * d := by rw [h]; exact_mod_cast hdist
  exact hne (funits_strictMono.injective (Nat.eq_of_mul_eq_mul_right hd hunits))

theorem fvalue_den_pos (x : Word) : 0 < (fvalue x).den := by
  unfold fvalue
  split
  · exact Nat.two_pow_pos _
  all_goals exact one_pos

/-- The fraction of a Normal's magnitude, against its units. -/
theorem funits_mul_fvalue_den {x : Word} (h : fclass x = .normal) :
    funits (fordinal x) * (fvalue x).den = (fvalue x).num.natAbs * 2 ^ 149 := by
  have hd : ((fvalue x).den : ℚ) ≠ 0 := by exact_mod_cast (fvalue_den_pos x).ne'
  have habs : ((fvalue x).num.natAbs : ℚ) / (fvalue x).den = funits (fordinal x) / 2 ^ 149 := by
    have hval : |(fvalue x).toRat| = |fval x| := by rw [fvalue_toRat h]
    rw [fval_eq_funits, Exact.toRat, abs_mul, abs_sgn, one_mul, abs_div, abs_div, Nat.abs_cast, Nat.abs_cast] at hval
    rw [Nat.cast_natAbs, Int.cast_abs, hval]
    simp
  rw [div_eq_div_iff hd (by positivity)] at habs
  exact_mod_cast habs.symm

theorem funits_pos {k : ℕ} (hk : 0 < k) : 0 < funits k := (Nat.zero_le _).trans_lt (funits_strictMono hk)

/-- Settles O29: a Normal's exact magnitude packs to its own number, and the sign bit goes on top. -/
theorem packInvertsUnpackOnNormals : Obligations.PackInvertsUnpackOnNormals := by
  unfold Obligations.PackInvertsUnpackOnNormals
  intro x h
  obtain ⟨hpos, hfin⟩ := (fclass_normal_iff x).mp h
  have hd := fvalue_den_pos x
  have hexact := funits_mul_fvalue_den h
  have hn : 0 < (fvalue x).num.natAbs := by
    have := Nat.mul_pos (funits_pos hpos) hd
    omega
  rw [roundPack32_eq _ hn hd, roundOrdinal_of_exact hn hd hexact, min_eq_left hfin.le, signBit_or_fordinal]

/-! ### RoundPack32 (41_float_core.md R130 to R132) -/

/-- Both fractions have one base-2 logarithm, so one quantum, and rne sees the rational only. -/
theorem roundOrdinal_congr {n d n' d' : ℕ} (hn : 0 < n) (hd : 0 < d) (hn' : 0 < n') (hd' : 0 < d')
    (h : n * d' = n' * d) : roundOrdinal n d = roundOrdinal n' d' := by
  have hrat : (n : ℚ) / d = (n' : ℚ) / d' := by
    rw [div_eq_div_iff (by positivity) (by positivity)]
    exact_mod_cast h
  have hshift : quantumShift n d = quantumShift n' d' := by
    rw [quantumShift, quantumShift, quantumExp, quantumExp, ilog2_eq_log hn hd, ilog2_eq_log hn' hd', hrat]
  have hsig : roundedSig n d = roundedSig n' d' := by
    rw [roundedSig_eq n hd, roundedSig_eq n' hd', hshift]
    refine rne_eq_of_mul_eq (by positivity) (by positivity) ?_
    calc n * 2 ^ 149 * (d' * 2 ^ quantumShift n' d') = n * d' * (2 ^ 149 * 2 ^ quantumShift n' d') := by ring
      _ = n' * 2 ^ 149 * (d * 2 ^ quantumShift n' d') := by rw [h]; ring
  rw [roundOrdinal, roundOrdinal, hshift, hsig]

/-- Settles O25: the packed number depends on the rational alone, and the sign bit stands over it. -/
theorem roundPackDependsOnTheRationalOnly : Obligations.RoundPackDependsOnTheRationalOnly := by
  unfold Obligations.RoundPackDependsOnTheRationalOnly
  intro s n d n' d' hn hd hn' hd' h
  refine ⟨?_, ?_⟩
  · rw [roundPack32_eq s hn hd, roundPack32_eq s hn' hd', roundOrdinal_congr hn hd hn' hd' h]
  · rw [roundPack32_eq true hn hd, roundPack32_eq false hn hd, signBit, signBit, if_pos rfl, if_neg Bool.false_ne_true,
      BitVec.zero_or, BitVec.or_comm]

theorem fInfOrdinal_lt : fInfOrdinal < 2 ^ 31 := by norm_num [fInfOrdinal]

theorem min_fInfOrdinal_lt (k : ℕ) : min k fInfOrdinal < 2 ^ 31 := (min_le_right _ _).trans_lt fInfOrdinal_lt

/-- Below the bound of R131 the pattern is the packed number under the sign. -/
theorem roundPack32_of_lt (s : Bool) {n d : ℕ} (hn : 0 < n) (hd : 0 < d) (h : n < (2 ^ 128 - 2 ^ 103) * d) :
    roundOrdinal n d < fInfOrdinal ∧ roundPack32 s n d = signBit s ||| BitVec.ofNat 32 (roundOrdinal n d) := by
  have hlt : roundOrdinal n d < fInfOrdinal :=
    not_le.mp fun hge => absurd ((fInfOrdinal_le_roundOrdinal_iff hn hd).mp hge) (not_le.mpr h)
  exact ⟨hlt, by rw [roundPack32_eq s hn hd, min_eq_left hlt.le]⟩

/-- The distance from a magnitude to a fraction, in integers. -/
theorem abs_funits_sub_eq (u n : ℕ) {d : ℕ} (hd : 0 < d) :
    |(u : ℚ) / 2 ^ 149 - (n : ℚ) / d| = ((|(u : ℤ) * d - (n * 2 ^ 149 : ℕ)| : ℤ) : ℚ) / d / 2 ^ 149 := by
  have hscale : (u : ℚ) / 2 ^ 149 - (n : ℚ) / d = ((u : ℚ) - ((n * 2 ^ 149 : ℕ) : ℚ) / d) / 2 ^ 149 := by
    push_cast
    field_simp
    ring
  rw [hscale, abs_div, abs_sub_div_eq _ _ hd, abs_of_pos (show (0 : ℚ) < 2 ^ 149 by positivity)]

theorem fval_of_signOf_false {x : Word} (h : signOf x = false) : fval x = (funits (fordinal x) : ℚ) / 2 ^ 149 := by
  rw [fval_eq_funits, h]
  simp [sgn]

/-- Settles O26: distances in units of 2^-149 over the denominator, where the packed number is nearest. -/
theorem roundPackIsTheNearestFloat : Obligations.RoundPackIsTheNearestFloat := by
  unfold Obligations.RoundPackIsTheNearestFloat
  intro n d hn hd hlt
  obtain ⟨hfin, hpack⟩ := roundPack32_of_lt false hn hd hlt
  have hword : roundOrdinal n d < 2 ^ 31 := hfin.trans fInfOrdinal_lt
  have hord : fordinal (roundPack32 false n d) = roundOrdinal n d := by rw [hpack, fordinal_signBit_or _ hword]
  have hsign : signOf (roundPack32 false n d) = false := by rw [hpack, signOf_signBit_or _ hword]
  refine ⟨(isFinite_iff _).mpr (hord ▸ hfin), hsign, fun z _ hzs hne => ?_⟩
  have hk : fordinal z ≠ roundOrdinal n d := fun h => hne (by rw [hpack, ← h, ← hzs, signBit_or_fordinal])
  obtain ⟨hle, htie⟩ := funits_roundOrdinal_nearest hn hd hk
  have hd' : (0 : ℚ) < d := by exact_mod_cast hd
  rw [fval_of_signOf_false hsign, fval_of_signOf_false hzs, hord, abs_funits_sub_eq _ _ hd, abs_funits_sub_eq _ _ hd,
    div_le_div_iff_of_pos_right (by positivity), div_le_div_iff_of_pos_right hd', div_left_inj' (by positivity),
    div_left_inj' hd'.ne', Int.cast_le, Int.cast_inj]
  refine ⟨hle, fun h => ?_⟩
  have heven := htie h
  rw [← hord, fordinal] at heven
  rw [BitVec.getLsbD, Nat.testBit_zero]
  exact decide_eq_false (by omega)

/-- Settles O27: the pattern is infinity exactly when the packed number reaches it. -/
theorem roundPackOverflowsToInfinity : Obligations.RoundPackOverflowsToInfinity := by
  unfold Obligations.RoundPackOverflowsToInfinity
  intro s n d hn hd
  have hinf : (if s then 0xFF800000#32 else 0x7F800000#32) = signBit s ||| BitVec.ofNat 32 fInfOrdinal := by
    cases s <;> rfl
  rw [hinf, roundPack32_eq s hn hd, signBit_or_inj s (min_fInfOrdinal_lt _) fInfOrdinal_lt,
    min_eq_right_iff, fInfOrdinal_le_roundOrdinal_iff hn hd]

/-- Settles O28: below 2^-126 the quantum is one unit, so the pattern is the rounded integer of units. -/
theorem roundPackUnderflowsGradually : Obligations.RoundPackUnderflowsGradually := by
  unfold Obligations.RoundPackUnderflowsGradually
  intro s n d hn hd hsmall
  have hshift : quantumShift n d = 0 := by
    by_contra hq
    have hlo := mul_two_pow_quantumShift_le hn hd hq
    have := Nat.le_mul_of_pos_right d (Nat.two_pow_pos (quantumShift n d))
    omega
  have hord : roundOrdinal n d = rne (n * 2 ^ 149) d := by
    rw [roundOrdinal, roundedSig_eq n hd, hshift, Nat.zero_mul, Nat.zero_add, pow_zero, mul_one]
  have hle : rne (n * 2 ^ 149) d ≤ 2 ^ 23 := rne_le hd (by omega)
  have hpack : roundPack32 s n d = signBit s ||| BitVec.ofNat 32 (rne (n * 2 ^ 149) d) := by
    rw [roundPack32_eq s hn hd, hord, min_eq_left (hle.trans (by norm_num [fInfOrdinal]))]
  have hzero : (if s then 0x80000000#32 else 0#32) = signBit s ||| BitVec.ofNat 32 0 := BitVec.or_zero.symm
  refine ⟨hpack, hle, ?_⟩
  rw [hpack, hzero, signBit_or_inj s (by omega) (by norm_num), rne_eq_zero_iff _ hd]
  omega

end Sys2Proof.Machine
end

section
/-! PROOFS. The statements of spec/41_float_core.md section 4: the special-value tables (R127 to R129) through FADD,
FMUL and FDIV. -/

namespace Sys2Proof.Machine

/-! ### Infinities and zeros as patterns (10_state.md R31, 41_float_core.md R121) -/

theorem eq_fInf_of_isInf {x : Word} (h : isInf x = true) : x = fInf (signOf x) :=
  calc x = signBit (signOf x) ||| BitVec.ofNat 32 (fordinal x) := (signBit_or_fordinal x).symm
    _ = fInf (signOf x) := by rw [(isInf_iff x).mp h]; rfl

theorem eq_fZero_of_isZero {x : Word} (h : isZero x = true) : x = fZero (signOf x) :=
  calc x = signBit (signOf x) ||| BitVec.ofNat 32 (fordinal x) := (signBit_or_fordinal x).symm
    _ = fZero (signOf x) := by rw [(isZero_iff x).mp h]; exact BitVec.or_zero

theorem isInf_cases {x : Word} (h : isInf x = true) : x = fPInf ∨ x = fNInf := by
  have hx := eq_fInf_of_isInf h
  cases hs : signOf x <;> rw [hs] at hx
  · exact .inl hx
  · exact .inr hx

theorem isZero_cases {x : Word} (h : isZero x = true) : x = fPZero ∨ x = fNZero := by
  have hx := eq_fZero_of_isZero h
  cases hs : signOf x <;> rw [hs] at hx
  · exact .inl hx
  · exact .inr hx

theorem fclass_of_isNan {x : Word} (h : isNan x = true) : fclass x = .nan := by simpa [isNan] using h

@[simp] theorem fclass_fPInf : fclass fPInf = .posInf := rfl
@[simp] theorem fclass_fNInf : fclass fNInf = .negInf := rfl
@[simp] theorem fclass_fPZero : fclass fPZero = .posZero := rfl
@[simp] theorem fclass_fNZero : fclass fNZero = .negZero := rfl
@[simp] theorem signOf_fPInf : signOf fPInf = false := rfl
@[simp] theorem signOf_fNInf : signOf fNInf = true := rfl
@[simp] theorem signOf_fPZero : signOf fPZero = false := rfl
@[simp] theorem signOf_fNZero : signOf fNZero = true := rfl

theorem fclass_ne_nan_of_isInf {x : Word} (h : isInf x = true) : fclass x ≠ .nan := by
  obtain rfl | rfl := isInf_cases h <;> simp

theorem fclass_fInf_ne_nan (s : Bool) : fclass (fInf s) ≠ .nan := by cases s <;> decide
theorem fclass_fZero_ne_nan (s : Bool) : fclass (fZero s) ≠ .nan := by cases s <;> decide

theorem zext64_fInf (s : Bool) : zext64 (fInf s) = if s then 0xFF800000#64 else 0x7F800000#64 := by cases s <;> rfl
theorem zext64_fZero (s : Bool) : zext64 (fZero s) = if s then 0x80000000#64 else 0#64 := by cases s <;> rfl
theorem signXor_eq_bne (a b : Word) : signXor a b = (signOf a != signOf b) := rfl

/-! ### A cell of a special-value table as a completed command (60_exceptions.md R220, R221) -/

/-- A result that is no NaN is not FLT_QNAN, so the command is valid. -/
theorem completes_of_not_nan {i : Instr} {s : State} {t : Word} (hq : s.cfg.fltQnanOk = true)
    (hres : resultOf s.cfg i = floatResult s.cfg t) (ht : fclass t ≠ .nan) : Completes i s (zext64 t) false := by
  have hne : t ≠ s.cfg.fltQnan := fun h => ht (h ▸ fclass_fltQnan hq)
  have hinv : (resultOf s.cfg i).inv = false := by rw [hres]; exact beq_false_of_ne hne
  have hdone := completes_of_valid hinv
  rwa [hres] at hdone

/-- A result FLT_QNAN completes with INV = 1 when the trap mode is off. -/
theorem completes_of_fltQnan {i : Instr} {s : State} (hoff : s.cfg.trapOnInvalid = false)
    (hres : resultOf s.cfg i = floatResult s.cfg s.cfg.fltQnan) : Completes i s (zext64 s.cfg.fltQnan) true := by
  have hdone := completes_of_silent (i := i) hoff
  have hinv : (floatResult s.cfg s.cfg.fltQnan).inv = true := beq_self_eq_true _
  rwa [hres, hinv] at hdone

theorem resultOf_fadd_of_special {c : Config} {a : DWord} {b t : Word}
    (h : fspecialAdd c.fltQnan (operandA a) b = some t) : resultOf c (.fadd a b) = floatResult c t := by
  simp only [resultOf, operandB, fAdd, h]

theorem resultOf_fmul_of_special {c : Config} {a : DWord} {b t : Word}
    (h : fspecialMul c.fltQnan (operandA a) b = some t) : resultOf c (.fmul a b) = floatResult c t := by
  simp only [resultOf, operandB, fMul, h]

theorem resultOf_fdiv_of_special {c : Config} {a : DWord} {b t : Word}
    (h : fspecialDiv c.fltQnan (operandA a) b = some t) : resultOf c (.fdiv a b) = floatResult c t := by
  simp only [resultOf, operandB, fDiv, h]

/-! ### The addition table (41_float_core.md R127) -/

theorem fspecialAdd_invalid (q : Word) {x y : Word}
    (h : (isNan x || isNan y || (isInf x && isInf y && signOf x != signOf y)) = true) :
    fspecialAdd q x y = some q := by
  simp only [Bool.or_eq_true, Bool.and_eq_true, bne_iff_ne] at h
  obtain (hx | hy) | ⟨⟨hx, hy⟩, hs⟩ := h
  · simp [fspecialAdd, fclass_of_isNan hx]
  · cases hx : fclass x <;> simp [fspecialAdd, hx, fclass_of_isNan hy]
  · obtain rfl | rfl := isInf_cases hx <;> obtain rfl | rfl := isInf_cases hy <;> simp [fspecialAdd] at hs ⊢

theorem fspecialAdd_inf_left (q : Word) {x y : Word} (hx : isInf x = true)
    (h : (isFinite y || (isInf y && signOf x == signOf y)) = true) : fspecialAdd q x y = some x := by
  simp only [Bool.or_eq_true, Bool.and_eq_true, beq_iff_eq] at h
  obtain hy | ⟨hy, hs⟩ := h
  · obtain hy | hy := (isFinite_iff_normal_or_zero _).mp hy
    · obtain rfl | rfl := isInf_cases hx <;> simp [fspecialAdd, hy]
    · obtain rfl | rfl := isInf_cases hx <;> obtain rfl | rfl := isZero_cases hy <;> simp [fspecialAdd]
  · obtain rfl | rfl := isInf_cases hx <;> obtain rfl | rfl := isInf_cases hy <;> simp [fspecialAdd] at hs ⊢

theorem fspecialAdd_inf_right (q : Word) {x y : Word} (hx : isFinite x = true) (hy : isInf y = true) :
    fspecialAdd q x y = some y := by
  obtain hx | hx := (isFinite_iff_normal_or_zero _).mp hx
  · obtain rfl | rfl := isInf_cases hy <;> simp [fspecialAdd, hx]
  · obtain rfl | rfl := isZero_cases hx <;> obtain rfl | rfl := isInf_cases hy <;> simp [fspecialAdd]

theorem fspecialAdd_zeros (q : Word) {x y : Word} (hx : isZero x = true) (hy : isZero y = true) :
    fspecialAdd q x y = some (fZero (signOf x && signOf y)) := by
  obtain rfl | rfl := isZero_cases hx <;> obtain rfl | rfl := isZero_cases hy <;> rfl

theorem fspecialAdd_zero_left (q : Word) {x y : Word} (hx : isZero x = true) (hy : fclass y = .normal) :
    fspecialAdd q x y = some y := by
  obtain rfl | rfl := isZero_cases hx <;> simp [fspecialAdd, hy]

theorem fspecialAdd_zero_right (q : Word) {x y : Word} (hx : fclass x = .normal) (hy : isZero y = true) :
    fspecialAdd q x y = some x := by
  obtain rfl | rfl := isZero_cases hy <;> simp [fspecialAdd, hx]

/-- Settles O30: cell by cell, a Q cell completing with INV = 1 and any other cell's result being no NaN. -/
theorem faddFollowsTheSpecialTable : Obligations.FaddFollowsTheSpecialTable := by
  unfold Obligations.FaddFollowsTheSpecialTable
  intro a b s hq x y
  have hcell {t : Word} (h : fspecialAdd s.cfg.fltQnan x y = some t) (ht : fclass t ≠ .nan) :=
    completes_of_not_nan hq (resultOf_fadd_of_special h) ht
  refine ⟨fun hoff h => ?_, fun hx h => ?_, fun hx hy => ?_, fun hx hy => ?_, fun hx hy => ?_, fun hx hy => ?_,
    fun hx hy => fspecialAdd_eq_none.mpr ⟨hx, hy⟩⟩
  · exact completes_of_fltQnan hoff (resultOf_fadd_of_special (fspecialAdd_invalid _ h))
  · exact hcell (fspecialAdd_inf_left _ hx h) (fclass_ne_nan_of_isInf hx)
  · exact hcell (fspecialAdd_inf_right _ hx hy) (fclass_ne_nan_of_isInf hy)
  · rw [← zext64_fZero]
    exact hcell (fspecialAdd_zeros _ hx hy) (fclass_fZero_ne_nan _)
  · exact hcell (fspecialAdd_zero_left _ hx hy) (by simp [hy])
  · exact hcell (fspecialAdd_zero_right _ hx hy) (by simp [hx])

/-! ### The multiplication table (41_float_core.md R128) -/

theorem fspecialMul_invalid (q : Word) {x y : Word}
    (h : (isNan x || isNan y || (isZero x && isInf y) || (isInf x && isZero y)) = true) :
    fspecialMul q x y = some q := by
  simp only [Bool.or_eq_true, Bool.and_eq_true] at h
  obtain ((hx | hy) | ⟨hx, hy⟩) | ⟨hx, hy⟩ := h
  · simp [fspecialMul, fclass_of_isNan hx]
  · cases hx : fclass x <;> simp [fspecialMul, hx, fclass_of_isNan hy]
  · obtain rfl | rfl := isZero_cases hx <;> obtain rfl | rfl := isInf_cases hy <;> simp [fspecialMul]
  · obtain rfl | rfl := isInf_cases hx <;> obtain rfl | rfl := isZero_cases hy <;> simp [fspecialMul]

theorem fspecialMul_inf (q : Word) {x y : Word}
    (h : ((isInf x && (isInf y || fclass y == .normal)) || (fclass x == .normal && isInf y)) = true) :
    fspecialMul q x y = some (fInf (signXor x y)) := by
  simp only [Bool.or_eq_true, Bool.and_eq_true, beq_iff_eq] at h
  obtain ⟨hx, hy | hy⟩ | ⟨hx, hy⟩ := h
  · obtain rfl | rfl := isInf_cases hx <;> obtain rfl | rfl := isInf_cases hy <;> rfl
  · obtain rfl | rfl := isInf_cases hx <;> simp [fspecialMul, hy]
  · obtain rfl | rfl := isInf_cases hy <;> simp [fspecialMul, hx]

theorem fspecialMul_zero (q : Word) {x y : Word}
    (h : ((isZero x && isFinite y) || (fclass x == .normal && isZero y)) = true) :
    fspecialMul q x y = some (fZero (signXor x y)) := by
  simp only [Bool.or_eq_true, Bool.and_eq_true, beq_iff_eq] at h
  obtain ⟨hx, hy⟩ | ⟨hx, hy⟩ := h
  · obtain hy | hy := (isFinite_iff_normal_or_zero _).mp hy
    · obtain rfl | rfl := isZero_cases hx <;> simp [fspecialMul, hy]
    · obtain rfl | rfl := isZero_cases hx <;> obtain rfl | rfl := isZero_cases hy <;> rfl
  · obtain rfl | rfl := isZero_cases hy <;> simp [fspecialMul, hx]

/-- Settles O33: the Q cells, the infinities and the zeros of the table, each with its sign. -/
theorem fmulFollowsTheSpecialTable : Obligations.FmulFollowsTheSpecialTable := by
  unfold Obligations.FmulFollowsTheSpecialTable
  intro a b s hq x y
  refine ⟨fun hoff h => ?_, fun h => ?_, fun h => ?_, fun hx hy => fspecialMul_eq_none.mpr ⟨hx, hy⟩⟩
  · exact completes_of_fltQnan hoff (resultOf_fmul_of_special (fspecialMul_invalid _ h))
  · rw [← signXor_eq_bne, ← zext64_fInf]
    exact completes_of_not_nan hq (resultOf_fmul_of_special (fspecialMul_inf _ h)) (fclass_fInf_ne_nan _)
  · rw [← signXor_eq_bne, ← zext64_fZero]
    exact completes_of_not_nan hq (resultOf_fmul_of_special (fspecialMul_zero _ h)) (fclass_fZero_ne_nan _)

/-! ### The division table (41_float_core.md R129) -/

theorem fspecialDiv_invalid (q : Word) {x y : Word}
    (h : (isNan x || isNan y || (isZero x && isZero y) || (isInf x && isInf y)) = true) :
    fspecialDiv q x y = some q := by
  simp only [Bool.or_eq_true, Bool.and_eq_true] at h
  obtain ((hx | hy) | ⟨hx, hy⟩) | ⟨hx, hy⟩ := h
  · simp [fspecialDiv, fclass_of_isNan hx]
  · cases hx : fclass x <;> simp [fspecialDiv, hx, fclass_of_isNan hy]
  · obtain rfl | rfl := isZero_cases hx <;> obtain rfl | rfl := isZero_cases hy <;> simp [fspecialDiv]
  · obtain rfl | rfl := isInf_cases hx <;> obtain rfl | rfl := isInf_cases hy <;> simp [fspecialDiv]

theorem fspecialDiv_inf (q : Word) {x y : Word}
    (h : ((isInf x && isFinite y) || (fclass x == .normal && isZero y)) = true) :
    fspecialDiv q x y = some (fInf (signXor x y)) := by
  simp only [Bool.or_eq_true, Bool.and_eq_true, beq_iff_eq] at h
  obtain ⟨hx, hy⟩ | ⟨hx, hy⟩ := h
  · obtain hy | hy := (isFinite_iff_normal_or_zero _).mp hy
    · obtain rfl | rfl := isInf_cases hx <;> simp [fspecialDiv, hy]
    · obtain rfl | rfl := isInf_cases hx <;> obtain rfl | rfl := isZero_cases hy <;> rfl
  · obtain rfl | rfl := isZero_cases hy <;> simp [fspecialDiv, hx]

theorem fspecialDiv_zero (q : Word) {x y : Word}
    (h : ((isFinite x && isInf y) || (isZero x && fclass y == .normal)) = true) :
    fspecialDiv q x y = some (fZero (signXor x y)) := by
  simp only [Bool.or_eq_true, Bool.and_eq_true, beq_iff_eq] at h
  obtain ⟨hx, hy⟩ | ⟨hx, hy⟩ := h
  · obtain hx | hx := (isFinite_iff_normal_or_zero _).mp hx
    · obtain rfl | rfl := isInf_cases hy <;> simp [fspecialDiv, hx]
    · obtain rfl | rfl := isZero_cases hx <;> obtain rfl | rfl := isInf_cases hy <;> rfl
  · obtain rfl | rfl := isZero_cases hx <;> simp [fspecialDiv, hy]

/-- Settles O35: the Q cells, the infinities (x/0 among them) and the zeros of the table, each with its sign. -/
theorem fdivFollowsTheSpecialTable : Obligations.FdivFollowsTheSpecialTable := by
  unfold Obligations.FdivFollowsTheSpecialTable
  intro a b s hq x y
  refine ⟨fun hoff h => ?_, fun h => ?_, fun h => ?_, fun hx hy => fspecialDiv_eq_none.mpr ⟨hx, hy⟩⟩
  · exact completes_of_fltQnan hoff (resultOf_fdiv_of_special (fspecialDiv_invalid _ h))
  · rw [← signXor_eq_bne, ← zext64_fInf]
    exact completes_of_not_nan hq (resultOf_fdiv_of_special (fspecialDiv_inf _ h)) (fclass_fInf_ne_nan _)
  · rw [← signXor_eq_bne, ← zext64_fZero]
    exact completes_of_not_nan hq (resultOf_fdiv_of_special (fspecialDiv_zero _ h)) (fclass_fZero_ne_nan _)

end Sys2Proof.Machine
end

section
/-! PROOFS. The statements of spec/42_float_ops.md R140 to R143: FADD, FMUL and FDIV of two Normals round the exact
result once, and FSUB is FADD of the negated operand. -/

namespace Sys2Proof.Machine

/-! ### RoundPack32 of an exact rational (41_float_core.md R130) -/

/-- RoundPack32 gives the magnitude's pattern, at most infinity's, so never a NaN. -/
theorem fordinal_roundPack32_le (s : Bool) {n d : ℕ} (hn : 0 < n) (hd : 0 < d) :
    fordinal (roundPack32 s n d) ≤ fInfOrdinal := by
  rw [roundPack32_eq s hn hd, fordinal_signBit_or s (min_fInfOrdinal_lt _)]
  exact min_le_right _ _

theorem signOf_roundPack32 (s : Bool) {n d : ℕ} (hn : 0 < n) (hd : 0 < d) : signOf (roundPack32 s n d) = s := by
  rw [roundPack32_eq s hn hd, signOf_signBit_or s (min_fInfOrdinal_lt _)]

theorem fclass_nan_iff (x : Word) : fclass x = .nan ↔ fInfOrdinal < fordinal x := by
  have := fordinal_lt x
  rw [fclass_eq_nan, fexpField_eq, ffracField_eq, fInfOrdinal]
  omega

theorem fclass_roundPack32_ne_nan (s : Bool) {n d : ℕ} (hn : 0 < n) (hd : 0 < d) :
    fclass (roundPack32 s n d) ≠ .nan := by
  rw [Ne, fclass_nan_iff]
  exact not_lt.mpr (fordinal_roundPack32_le s hn hd)

theorem Exact.abs_toRat (v : Exact) : |v.toRat| = (v.num.natAbs : ℚ) / v.den := by
  rw [Exact.toRat, abs_div, Nat.abs_cast, Nat.cast_natAbs, Int.cast_abs]

theorem Exact.toRat_eq_zero {v : Exact} (hd : 0 < v.den) : v.toRat = 0 ↔ v.num = 0 := by
  have : (v.den : ℚ) ≠ 0 := by exact_mod_cast hd.ne'
  simp [Exact.toRat, this]

theorem Exact.toRat_neg_iff {v : Exact} (hd : 0 < v.den) : v.toRat < 0 ↔ v.num < 0 := by
  have : (0 : ℚ) < v.den := by exact_mod_cast hd
  rw [Exact.toRat, div_lt_iff₀ this, zero_mul, Int.cast_lt_zero]

/-- The exact rational the model rounds, written by any other fraction. -/
theorem roundPack32_exact (s : Bool) {v : Exact} {n d : ℕ} (hv : v.toRat ≠ 0) (hden : 0 < v.den) (hd : 0 < d)
    (h : (n : ℚ) / d = |v.toRat|) :
    0 < n ∧ roundPack32 s v.num.natAbs v.den = roundPack32 s n d := by
  have hd' : (0 : ℚ) < d := by exact_mod_cast hd
  have hden' : (0 : ℚ) < v.den := by exact_mod_cast hden
  have hn : 0 < n := by
    have hpos : (0 : ℚ) < (n : ℚ) / d := h ▸ abs_pos.mpr hv
    exact_mod_cast (div_pos_iff_of_pos_right hd').mp hpos
  have hnum : 0 < v.num.natAbs := Int.natAbs_pos.mpr fun h0 => hv ((Exact.toRat_eq_zero hden).mpr h0)
  rw [Exact.abs_toRat, div_eq_div_iff hd'.ne' hden'.ne'] at h
  exact ⟨hn, (roundPackDependsOnTheRationalOnly s _ _ _ _ hnum hden hn hd (by exact_mod_cast h.symm)).1⟩

/-- A command whose result is a rounded positive rational completes with INV = 0 (60_exceptions.md R221). -/
theorem completes_of_roundPack32 {i : Instr} {s : State} {g : Bool} {n d : ℕ} (hq : s.cfg.fltQnanOk = true)
    (hn : 0 < n) (hd : 0 < d) (hres : resultOf s.cfg i = floatResult s.cfg (roundPack32 g n d)) :
    Completes i s (zext64 (roundPack32 g n d)) false :=
  completes_of_not_nan hq hres (fclass_roundPack32_ne_nan g hn hd)

/-! ### The value of a Normal is no zero -/

theorem fval_ne_zero_of_normal {x : Word} (h : fclass x = .normal) : fval x ≠ 0 := by
  have hpos := funits_pos ((fclass_normal_iff x).mp h).1
  have hsgn : sgn (signOf x) ≠ 0 := abs_pos.mp (by rw [abs_sgn]; exact one_pos)
  rw [fval_eq_funits]
  positivity

theorem fvalue_num_ne_zero {x : Word} (h : fclass x = .normal) : (fvalue x).num ≠ 0 := by
  rw [Ne, ← Exact.toRat_eq_zero (fvalue_den_pos x), fvalue_toRat h]
  exact fval_ne_zero_of_normal h

/-! ### FADD (42_float_ops.md R140) -/

theorem fvalue_add_den_pos (x y : Word) : 0 < ((fvalue x).add (fvalue y)).den :=
  Nat.mul_pos (fvalue_den_pos x) (fvalue_den_pos y)

theorem fvalue_add_toRat {x y : Word} (hx : fclass x = .normal) (hy : fclass y = .normal) :
    ((fvalue x).add (fvalue y)).toRat = fval x + fval y := by
  rw [Exact.toRat_add (fvalue_den_pos x).ne' (fvalue_den_pos y).ne', fvalue_toRat hx, fvalue_toRat hy]

theorem fAdd_of_normal (q : Word) {x y : Word} (hx : fclass x = .normal) (hy : fclass y = .normal) :
    fAdd q x y = if ((fvalue x).add (fvalue y)).num = 0 then fPZero else
      roundPack32 (decide (((fvalue x).add (fvalue y)).num < 0)) ((fvalue x).add (fvalue y)).num.natAbs
        ((fvalue x).add (fvalue y)).den := by
  rw [fAdd, fspecialAdd_eq_none.mpr ⟨hx, hy⟩]

/-- The exact sum is zero: +0. -/
theorem fAdd_of_cancel (q : Word) {x y : Word} (hx : fclass x = .normal) (hy : fclass y = .normal)
    (h : fval x + fval y = 0) : fAdd q x y = fPZero := by
  rw [← fvalue_add_toRat hx hy, Exact.toRat_eq_zero (fvalue_add_den_pos x y)] at h
  rw [fAdd_of_normal q hx hy, if_pos h]

/-- The exact sum is not zero: any fraction of its magnitude, rounded with its sign. -/
theorem fAdd_of_sum_ne_zero (q : Word) {x y : Word} {n d : ℕ} (hx : fclass x = .normal) (hy : fclass y = .normal)
    (h : fval x + fval y ≠ 0) (hd : 0 < d) (hnd : (n : ℚ) / d = |fval x + fval y|) :
    0 < n ∧ fAdd q x y = roundPack32 (decide (fval x + fval y < 0)) n d := by
  have hden := fvalue_add_den_pos x y
  rw [← fvalue_add_toRat hx hy] at h hnd ⊢
  have hnum : ((fvalue x).add (fvalue y)).num ≠ 0 := fun h0 => h ((Exact.toRat_eq_zero hden).mpr h0)
  rw [fAdd_of_normal q hx hy, if_neg hnum, decide_eq_decide.mpr (Exact.toRat_neg_iff hden)]
  exact roundPack32_exact _ h hden hd hnd

/-- Settles O31: +0 is no NaN, and a nonzero sum is a rounded rational. -/
theorem faddRoundsTheExactSum : Obligations.FaddRoundsTheExactSum := by
  unfold Obligations.FaddRoundsTheExactSum
  intro a b s n d hq hx hy hd hnd
  refine ⟨fun h => ?_, fun h => ?_⟩
  · have hres : resultOf s.cfg (.fadd a b) = floatResult s.cfg fPZero := by
      rw [← fAdd_of_cancel s.cfg.fltQnan hx hy h]; rfl
    exact completes_of_not_nan hq hres (by simp)
  · obtain ⟨hn, hsum⟩ := fAdd_of_sum_ne_zero s.cfg.fltQnan hx hy h hd hnd
    exact completes_of_roundPack32 hq hn hd (by rw [← hsum]; rfl)

/-! ### FSUB (42_float_ops.md R141) -/

/-- Settles O32: the two commands have one result, so the completion rule ends them alike but for the report. -/
theorem fsubIsFaddOfTheNegatedOperand : Obligations.FsubIsFaddOfTheNegatedOperand := by
  unfold Obligations.FsubIsFaddOfTheNegatedOperand
  intro a b s
  have hres : resultOf s.cfg (.fsub a b) = resultOf s.cfg (.fadd a (b ^^^ 0x80000000#32)) := rfl
  obtain ⟨hinv, htrap, -⟩ | ⟨hvalid, hsub⟩ := complete_cases (encode (.fsub a b)) (resultOf s.cfg (.fsub a b)) s
  · have hsub : Traps (.fsub a b) s := traps_of_invalid hinv htrap
    have hadd : Traps (.fadd a (b ^^^ 0x80000000#32)) s := traps_of_invalid (hres ▸ hinv) htrap
    exact ⟨_, _, hsub, hadd, .inr ⟨hsub, hadd⟩⟩
  · have hadd : complete (encode (.fadd a (b ^^^ 0x80000000#32))) (resultOf s.cfg (.fsub a b)) s =
        completeNormally (resultOf s.cfg (.fsub a b)) s := hvalid.elim complete_of_valid complete_of_silent
    rw [exec_eq_complete, exec_eq_complete, ← hres, hsub, hadd]
    exact ⟨_, _, rfl, rfl, .inl ⟨_, _, rfl, rfl⟩⟩

/-! ### FMUL (42_float_ops.md R142) -/

/-- The exact product of two Normals, written by any fraction of its magnitude and rounded with the XOR of the signs. -/
theorem fMul_of_normal (q : Word) {x y : Word} {n d : ℕ} (hx : fclass x = .normal) (hy : fclass y = .normal)
    (hd : 0 < d) (hnd : (n : ℚ) / d = |fval x * fval y|) : 0 < n ∧ fMul q x y = roundPack32 (signXor x y) n d := by
  have hne : fval x * fval y ≠ 0 := mul_ne_zero (fval_ne_zero_of_normal hx) (fval_ne_zero_of_normal hy)
  rw [← fvalue_toRat hx, ← fvalue_toRat hy, ← Exact.toRat_mul] at hne hnd
  rw [fMul, fspecialMul_eq_none.mpr ⟨hx, hy⟩]
  exact roundPack32_exact _ hne (Nat.mul_pos (fvalue_den_pos x) (fvalue_den_pos y)) hd hnd

/-- Settles O34: the product of two Normals is a rounded rational. -/
theorem fmulRoundsTheExactProduct : Obligations.FmulRoundsTheExactProduct := by
  unfold Obligations.FmulRoundsTheExactProduct
  intro a b s n d hq hx hy hd hnd
  obtain ⟨hn, hmul⟩ := fMul_of_normal s.cfg.fltQnan hx hy hd hnd
  rw [← signXor_eq_bne]
  exact completes_of_roundPack32 hq hn hd (by rw [← hmul]; rfl)

/-! ### FDIV (42_float_ops.md R143) -/

/-- The magnitude of the exact quotient. -/
theorem Exact.toRat_divAbs (p q : Exact) : (p.divAbs q).toRat = |p.toRat / q.toRat| := by
  rw [abs_div, Exact.abs_toRat, Exact.abs_toRat, div_div_div_eq, Exact.toRat, Exact.divAbs,
    Int.cast_natCast, Nat.cast_mul, Nat.cast_mul]

/-- The exact quotient of two Normals, written by any fraction of its magnitude and rounded with the XOR of the signs. -/
theorem fDiv_of_normal (q : Word) {x y : Word} {n d : ℕ} (hx : fclass x = .normal) (hy : fclass y = .normal)
    (hd : 0 < d) (hnd : (n : ℚ) / d = |fval x / fval y|) : 0 < n ∧ fDiv q x y = roundPack32 (signXor x y) n d := by
  have hquot : ((fvalue x).divAbs (fvalue y)).toRat = |fval x / fval y| := by
    rw [Exact.toRat_divAbs, fvalue_toRat hx, fvalue_toRat hy]
  have hne : ((fvalue x).divAbs (fvalue y)).toRat ≠ 0 := by
    rw [hquot]
    exact abs_ne_zero.mpr (div_ne_zero (fval_ne_zero_of_normal hx) (fval_ne_zero_of_normal hy))
  have hden : 0 < ((fvalue x).divAbs (fvalue y)).den :=
    Nat.mul_pos (fvalue_den_pos x) (Int.natAbs_pos.mpr (fvalue_num_ne_zero hy))
  rw [fDiv, fspecialDiv_eq_none.mpr ⟨hx, hy⟩]
  exact roundPack32_exact _ hne hden hd (by rw [hnd, hquot, abs_abs])

/-- Settles O36: the quotient of two Normals is a rounded rational. -/
theorem fdivRoundsTheExactQuotient : Obligations.FdivRoundsTheExactQuotient := by
  unfold Obligations.FdivRoundsTheExactQuotient
  intro a b s n d hq hx hy hd hnd
  obtain ⟨hn, hdiv⟩ := fDiv_of_normal s.cfg.fltQnan hx hy hd hnd
  rw [← signXor_eq_bne]
  exact completes_of_roundPack32 hq hn hd (by rw [← hdiv]; rfl)

end Sys2Proof.Machine
end

section
/-! PROOFS. Addition and multiplication commute in both units (spec/42_float_ops.md R140, R142; spec/44_posit_ops.md
R180, R182). -/

namespace Sys2Proof.Machine

/-! ### The float unit -/

/-- The addition table is symmetric: a cell that is an operand is the same operand after the exchange. -/
theorem fspecialAdd_comm (q a b : Word) : fspecialAdd q a b = fspecialAdd q b a := by
  unfold fspecialAdd
  cases fclass a <;> cases fclass b <;> rfl

theorem signXor_comm (a b : Word) : signXor a b = signXor b a := Bool.xor_comm _ _

theorem fspecialMul_comm (q a b : Word) : fspecialMul q a b = fspecialMul q b a := by
  unfold fspecialMul
  rw [signXor_comm a b]
  cases fclass a <;> cases fclass b <;> rfl

theorem Exact.add_comm (p q : Exact) : p.add q = q.add p := by
  rw [Exact.add, Exact.add, Int.add_comm, Nat.mul_comm]

theorem Exact.mul_comm (p q : Exact) : p.mul q = q.mul p := by
  rw [Exact.mul, Exact.mul, Int.mul_comm, Nat.mul_comm]

theorem fAdd_comm (q a b : Word) : fAdd q a b = fAdd q b a := by
  rw [fAdd, fAdd, fspecialAdd_comm q a b, Exact.add_comm (fvalue a)]

theorem fMul_comm (q a b : Word) : fMul q a b = fMul q b a := by
  rw [fMul, fMul, fspecialMul_comm q a b, signXor_comm a b, Exact.mul_comm (fvalue a)]

/-! ### The posit unit -/

theorem pspecialAdd_comm (a b : Word) : pspecialAdd a b = pspecialAdd b a := by
  unfold pspecialAdd
  cases pclass a <;> cases pclass b <;> rfl

theorem pspecialMul_comm (a b : Word) : pspecialMul a b = pspecialMul b a := by
  unfold pspecialMul
  cases pclass a <;> cases pclass b <;> rfl

/-- With equal exponents neither operand is shifted, and the sum of the halves commutes. -/
theorem paddSame_comm {u v : PUnpacked} (hexp : u.exp = v.exp) (hs : u.s = v.s) : paddSame u v = paddSame v u := by
  unfold paddSame
  rw [hexp, hs, Int.sub_self, Int.toNat_zero]
  dsimp only
  rw [BitVec.add_comm]

/-- With equal exponents neither operand is shifted, and the larger significand gives the sign and the difference in
either order; equal significands cancel. -/
theorem paddDiff_comm {u v : PUnpacked} (hexp : u.exp = v.exp) : paddDiff u v = paddDiff v u := by
  have hshift (w : Word) : shr w 0 = w := BitVec.eq_of_toNat_eq (by rw [shr_toNat, pow_zero, Nat.div_one])
  unfold paddDiff
  rw [hexp, Int.sub_self, Int.toNat_zero]
  dsimp only
  rw [hshift, hshift]
  obtain hlt | heq | hgt := lt_trichotomy u.sig.toNat v.sig.toNat
  · rw [if_neg hlt.not_ge, if_neg hlt.not_ge, if_pos hlt.le, if_pos hlt.le]
  · rw [BitVec.eq_of_toNat_eq heq, if_pos le_rfl, BitVec.sub_self, if_pos rfl, if_pos rfl]
  · rw [if_pos hgt.le, if_pos hgt.le, if_neg hgt.not_ge, if_neg hgt.not_ge]

/-- The larger exponent decides the order, so only equal exponents are left to the two kernels. -/
theorem paddKernel_comm (u v : PUnpacked) : paddKernel u v = paddKernel v u := by
  unfold paddKernel
  dsimp only
  obtain hlt | heq | hgt := lt_trichotomy u.exp v.exp
  · rw [if_pos hlt, if_pos hlt, if_neg hlt.not_gt, if_neg hlt.not_gt]
  · rw [if_neg heq.not_lt, if_neg heq.not_lt, if_neg heq.not_gt, if_neg heq.not_gt]
    by_cases hs : u.s = v.s
    · rw [if_pos hs, if_pos hs.symm, paddSame_comm heq hs]
    · rw [if_neg hs, if_neg (Ne.symm hs), paddDiff_comm heq]
  · rw [if_neg hgt.not_gt, if_neg hgt.not_gt, if_pos hgt, if_pos hgt]

theorem mul64_comm (a b : Word) : mul64 a b = mul64 b a := BitVec.mul_comm _ _

theorem pmulKernel_comm (u v : PUnpacked) : pmulKernel u v = pmulKernel v u := by
  rw [pmulKernel, pmulKernel, Bool.xor_comm, mul64_comm, Int.add_comm u.exp]

theorem pAdd_comm (a b : Word) : pAdd a b = pAdd b a := by
  rw [pAdd, pAdd, pspecialAdd_comm a b, paddKernel_comm]

theorem pMul_comm (a b : Word) : pMul a b = pMul b a := by
  rw [pMul, pMul, pspecialMul_comm a b, pmulKernel_comm]

/-- Settles O37: table and kernel of each of the four commands are symmetric. -/
theorem addAndMultiplyCommute : Obligations.AddAndMultiplyCommute :=
  fun q a b => ⟨fAdd_comm q a b, fMul_comm q a b, pAdd_comm a b, pMul_comm a b⟩

end Sys2Proof.Machine
end

section
/-! PROOFS. The statements of spec/42_float_ops.md R144 to R146: the first iterate of FSQRT, its convergence test and its
Newton loop. -/

namespace Sys2Proof.Machine

/-! ### The first iterate (42_float_ops.md R144) -/

/-- The guess of a Normal, as an exponent field in [52, 190] over a fraction. -/
theorem fsqrtGuess_fields {x : Word} (h : fclass x = .normal) :
    ∃ b f : ℕ, fordinal (fsqrtGuess x) = b * 2 ^ 23 + f ∧ signOf (fsqrtGuess x) = false ∧ f < 2 ^ 23 ∧
      52 ≤ b ∧ b ≤ 190 ∧ (b : ℤ) = (funpack x).e / 2 + 127 ∧ (funpack x).m = 2 ^ 23 + f := by
  obtain ⟨hlo, hhi, hemin, hemax, -, -⟩ := funpack_spec h
  obtain ⟨b, hb⟩ : ∃ b : ℕ, (b : ℤ) = (funpack x).e / 2 + 127 := ⟨((funpack x).e / 2 + 127).toNat, by omega⟩
  obtain ⟨f, hf⟩ := Nat.exists_eq_add_of_le hlo
  have hguess : fsqrtGuess x = signBit false ||| BitVec.ofNat 32 (b * 2 ^ 23 + f) := by
    rw [← exp_or_frac b (by omega)]
    simp only [fsqrtGuess, fltBias, ← hb, hf, Int.toNat_natCast, Nat.add_sub_cancel_left]
    exact BitVec.zero_or.symm
  have hlt : b * 2 ^ 23 + f < 2 ^ 31 := by omega
  refine ⟨b, f, ?_, ?_, by omega, by omega, by omega, hb, hf⟩
  · rw [hguess, fordinal_signBit_or _ hlt]
  · rw [hguess, signOf_signBit_or _ hlt]

/-- R144: a positive Normal whose fields are the halved exponent and x's normalised fraction. -/
theorem fsqrtGuess_spec {x : Word} (h : fclass x = .normal) :
    fclass (fsqrtGuess x) = .normal ∧ signOf (fsqrtGuess x) = false ∧ fexpField (fsqrtGuess x) ≠ 0 ∧
      fval (fsqrtGuess x) = ((funpack x).m : ℚ) * 2 ^ ((funpack x).e / 2 - 23) := by
  obtain ⟨b, f, hord, hsign, hf, hbmin, hbmax, hb, hm⟩ := fsqrtGuess_fields h
  have hexp : fexpField (fsqrtGuess x) = b := by rw [fexpField_eq, hord]; omega
  have hfrac : ffracField (fsqrtGuess x) = f := by rw [ffracField_eq, hord]; omega
  have hb0 : b ≠ 0 := by omega
  have hpow : ((max b 1 : ℕ) - 150 : ℤ) = (funpack x).e / 2 - 23 := by omega
  refine ⟨(fclass_normal_iff _).mpr ?_, hsign, by rwa [hexp], ?_⟩
  · rw [hord, fInfOrdinal]
    omega
  · rw [fval, hsign, hexp, hfrac, if_neg hb0, hpow, hm]
    simp [sgn]

/-! ### The convergence test (42_float_ops.md R145) -/

theorem fconverged_iff_fexpField (d : Word) : fconverged d = true ↔ fexpField d ≤ 110 := by
  rw [fconverged, decide_eq_true_iff, fltBias, sqrtThresh]
  omega

theorem abs_fval (x : Word) : |fval x| = (funits (fordinal x) : ℚ) / 2 ^ 149 := by
  rw [fval_eq_funits, abs_mul, abs_sgn, one_mul, abs_of_nonneg (by positivity)]

/-- The exponent field orders magnitudes: biased exponent 111 with fraction 0 is 2^-16. -/
theorem abs_fval_lt_iff_fexpField (d : Word) : |fval d| < 2 ^ (-16 : ℤ) ↔ fexpField d ≤ 110 := by
  have hbound : funits (110 * 2 ^ 23 + 2 ^ 23) = 2 ^ 133 := by
    rw [funits_of_significand (by norm_num) fun _ => le_rfl]
    norm_num
  have hunits : |fval d| < 2 ^ (-16 : ℤ) ↔ funits (fordinal d) < 2 ^ 133 := by
    have hpow : (2 : ℚ) ^ (-16 : ℤ) = (2 ^ 133 : ℕ) / 2 ^ 149 := by norm_num
    rw [abs_fval, hpow, div_lt_div_iff_of_pos_right (by positivity), Nat.cast_lt]
  rw [hunits, ← hbound, funits_strictMono.lt_iff_lt, fexpField_eq]
  omega

/-- Settles O38: the guess by its fields, the test by the order of magnitudes. -/
theorem fsqrtGuessAndConvergence : Obligations.FsqrtGuessAndConvergence := by
  unfold Obligations.FsqrtGuessAndConvergence
  refine ⟨fun x h _ => fsqrtGuess_spec h, fun d => ⟨fconverged_iff_fexpField d, ?_⟩⟩
  have hfinite : fexpField d ≤ 110 → isFinite d = true := by
    rw [isFinite_iff, fexpField_eq, fInfOrdinal]
    omega
  rw [fconverged_iff_fexpField, abs_fval_lt_iff_fexpField]
  exact ⟨fun h => ⟨hfinite h, h⟩, And.right⟩

/-! ### The iterates (42_float_ops.md R146)

The Newton step can leave the positive Normals: x/s overflows for a small s, and halving the smallest subnormal gives +0.
What every iterate keeps is that it is +0, a positive Normal or +Inf, on which no operation of the step is invalid. -/

/-- +0, a positive Normal or +Inf. -/
def FNonneg (x : Word) : Prop := signOf x = false ∧ fclass x ≠ .nan

theorem isFinite_or_isInf {x : Word} (h : fclass x ≠ .nan) : isFinite x = true ∨ isInf x = true := by
  rw [Ne, fclass_nan_iff] at h
  rw [isFinite_iff, isInf_iff]
  omega

theorem isFinite_of_normal {x : Word} (h : fclass x = .normal) : isFinite x = true :=
  (isFinite_iff_normal_or_zero x).mpr (.inl h)

theorem isFinite_of_isZero {x : Word} (h : isZero x = true) : isFinite x = true :=
  (isFinite_iff_normal_or_zero x).mpr (.inr h)

/-- The three classes of a pattern that is no NaN. -/
theorem normal_or_isZero_or_isInf {x : Word} (h : fclass x ≠ .nan) :
    fclass x = .normal ∨ isZero x = true ∨ isInf x = true := by
  rw [← or_assoc, ← isFinite_iff_normal_or_zero]
  exact isFinite_or_isInf h

theorem fNonneg_fZero : FNonneg (fZero false) := ⟨rfl, fclass_fZero_ne_nan false⟩

theorem fNonneg_fInf : FNonneg (fInf false) := ⟨rfl, fclass_fInf_ne_nan false⟩

theorem fNonneg_roundPack32 {n d : ℕ} (hn : 0 < n) (hd : 0 < d) : FNonneg (roundPack32 false n d) :=
  ⟨signOf_roundPack32 false hn hd, fclass_roundPack32_ne_nan false hn hd⟩

theorem fval_pos_of_normal {x : Word} (h : fclass x = .normal) (hs : signOf x = false) : 0 < fval x := by
  have hpos := funits_pos ((fclass_normal_iff x).mp h).1
  rw [fval_of_signOf_false hs]
  positivity

/-- A rational's magnitude as a fraction of naturals. -/
theorem abs_eq_natAbs_div_den (v : ℚ) : (v.num.natAbs : ℚ) / v.den = |v| := by
  rw [Nat.cast_natAbs, Int.cast_abs, ← Nat.abs_cast v.den, ← abs_div, Rat.num_div_den]

theorem fAdd_of_special {q x y t : Word} (h : fspecialAdd q x y = some t) : fAdd q x y = t := by
  rw [fAdd, h]

theorem fDiv_of_special {q x y t : Word} (h : fspecialDiv q x y = some t) : fDiv q x y = t := by
  rw [fDiv, h]

/-- A table cell of two such operands is an operand or +0, and the sum of positive Normals is positive. -/
theorem fNonneg_fAdd (q : Word) {x y : Word} (hx : FNonneg x) (hy : FNonneg y) : FNonneg (fAdd q x y) := by
  have ⟨hxs, hxn⟩ := hx
  have ⟨hys, hyn⟩ := hy
  obtain hxn | hxz | hxi := normal_or_isZero_or_isInf hxn
  · obtain hyn | hyz | hyi := normal_or_isZero_or_isInf hyn
    · have hsum : 0 < fval x + fval y := add_pos (fval_pos_of_normal hxn hxs) (fval_pos_of_normal hyn hys)
      obtain ⟨hn, h⟩ := fAdd_of_sum_ne_zero q hxn hyn hsum.ne' (Rat.den_pos _) (abs_eq_natAbs_div_den _)
      rw [h, decide_eq_false hsum.not_gt]
      exact fNonneg_roundPack32 hn (Rat.den_pos _)
    · rwa [fAdd_of_special (fspecialAdd_zero_right q hxn hyz)]
    · rwa [fAdd_of_special (fspecialAdd_inf_right q (isFinite_of_normal hxn) hyi)]
  · obtain hyn | hyz | hyi := normal_or_isZero_or_isInf hyn
    · rwa [fAdd_of_special (fspecialAdd_zero_left q hxz hyn)]
    · rw [fAdd_of_special (fspecialAdd_zeros q hxz hyz), hxs]
      exact fNonneg_fZero
    · rwa [fAdd_of_special (fspecialAdd_inf_right q (isFinite_of_isZero hxz) hyi)]
  · have hcell : (isFinite y || (isInf y && signOf x == signOf y)) = true := by
      obtain h | h := isFinite_or_isInf hyn <;> simp [h, hxs, hys]
    rwa [fAdd_of_special (fspecialAdd_inf_left q hxi hcell)]

/-- With one operand a Normal, a cell of the division table is +0 or +Inf. -/
theorem fNonneg_fDiv (q : Word) {x y : Word} (hx : FNonneg x) (hy : FNonneg y)
    (h : fclass x = .normal ∨ fclass y = .normal) : FNonneg (fDiv q x y) := by
  obtain ⟨hxs, hxn⟩ := hx
  obtain ⟨hys, hyn⟩ := hy
  have hsign : signXor x y = false := by rw [signXor, hxs, hys, Bool.xor_self]
  have hinf (hc : ((isInf x && isFinite y) || (fclass x == .normal && isZero y)) = true) : FNonneg (fDiv q x y) := by
    rw [fDiv_of_special (fspecialDiv_inf q hc), hsign]
    exact fNonneg_fInf
  have hzero (hc : ((isFinite x && isInf y) || (isZero x && fclass y == .normal)) = true) :
      FNonneg (fDiv q x y) := by
    rw [fDiv_of_special (fspecialDiv_zero q hc), hsign]
    exact fNonneg_fZero
  obtain hx | hxz | hxi := normal_or_isZero_or_isInf hxn
  · obtain hy | hyz | hyi := normal_or_isZero_or_isInf hyn
    · obtain ⟨hn, hdiv⟩ := fDiv_of_normal q hx hy (Rat.den_pos _) (abs_eq_natAbs_div_den _)
      rw [hdiv, hsign]
      exact fNonneg_roundPack32 hn (Rat.den_pos _)
    · exact hinf (by simp [hx, hyz])
    · exact hzero (by simp [isFinite_of_normal hx, hyi])
  · have hy : fclass y = .normal := h.resolve_left fun hx => by simp [isZero, hx] at hxz
    exact hzero (by simp [hxz, hy])
  · have hy : fclass y = .normal := h.resolve_left fun hx => by simp [isInf, hx] at hxi
    exact hinf (by simp [hxi, isFinite_of_normal hy])

theorem fNonneg_fsqrtStep (q : Word) {x t : Word} (h : fclass x = .normal) (hs : signOf x = false)
    (ht : FNonneg t) : FNonneg (fsqrtStep q x t) := by
  have hx : FNonneg x := ⟨hs, by simp [h]⟩
  have htwo : fclass fTwo = .normal := by decide
  exact fNonneg_fDiv q (fNonneg_fAdd q ht (fNonneg_fDiv q hx ht (.inl h))) ⟨rfl, by simp [htwo]⟩ (.inr htwo)

/-- R146: no iterate is a NaN. -/
theorem fNonneg_iterate (q : Word) {x : Word} (h : fclass x = .normal) (hs : signOf x = false) (k : ℕ) :
    FNonneg ((fsqrtStep q x)^[k] (fsqrtGuess x)) := by
  obtain ⟨hguess, hsign, -, -⟩ := fsqrtGuess_spec h
  exact Function.Iterate.rec FNonneg ⟨hsign, by simp [hguess]⟩ (fun _ => fNonneg_fsqrtStep q h hs) k

/-! ### FSQRT (42_float_ops.md R146) -/

/-- A NaN, and any negative radicand but -0, gives FLT_QNAN. -/
theorem fSqrt_invalid (q : Word) {x : Word} (h : (isNan x || (signOf x && !isZero x)) = true) : fSqrt q x = q := by
  simp only [Bool.or_eq_true, Bool.and_eq_true, Bool.not_eq_true'] at h
  by_cases hnan : fclass x = .nan
  · rw [fSqrt, hnan]
  obtain hx | ⟨hs, hz⟩ := h
  · exact absurd (fclass_of_isNan hx) hnan
  obtain hx | hx | hx := normal_or_isZero_or_isInf hnan
  · simp [fSqrt, hx, hs]
  · rw [hx] at hz
    cases hz
  · rw [eq_fInf_of_isInf hx, hs]
    rfl

/-- +Inf and the two zeros are their own roots. -/
theorem fSqrt_eq_self (q : Word) {x : Word} (h : fclass x = .posInf ∨ isZero x = true) : fSqrt q x = x := by
  obtain hx | hx := h
  · obtain rfl | rfl := isInf_cases (x := x) (by simp [isInf, hx])
    · rfl
    · simp at hx
  · obtain rfl | rfl := isZero_cases hx <;> rfl

theorem fSqrt_of_positive (q : Word) {x : Word} (h : fclass x = .normal) (hs : signOf x = false) :
    fSqrt q x = fsqrtLoop q x 100 (fsqrtGuess x) := by
  simp [fSqrt, h, hs, sqrtMaxIter]

theorem resultOf_fsqrt {c : Config} {a : DWord} {b t : Word} (h : fSqrt c.fltQnan (operandA a) = t) :
    resultOf c (.fsqrt a b) = floatResult c t := by
  rw [← h]
  rfl

/-- Settles O39: the special radicands by lookup; the loop stops at the first converged iterate or at the last, and no
iterate is FLT_QNAN. -/
theorem fsqrtIsTheFirstConvergedNewtonIterate : Obligations.FsqrtIsTheFirstConvergedNewtonIterate := by
  unfold Obligations.FsqrtIsTheFirstConvergedNewtonIterate
  intro a b s hq x q iter done
  refine ⟨fun hoff h => ?_, fun h => ?_, fun h hs => ?_⟩
  · exact completes_of_fltQnan hoff (resultOf_fsqrt (fSqrt_invalid q h))
  · refine completes_of_not_nan hq (resultOf_fsqrt (fSqrt_eq_self q h)) ?_
    obtain hx | hx := h
    · rw [hx]
      decide
    · rw [eq_fZero_of_isZero hx]
      exact fclass_fZero_ne_nan _
  · obtain ⟨k, hk, hloop, hbefore, hlast⟩ := fsqrtLoop_cases q x 100 (fsqrtGuess x)
    have hroot : fSqrt q x = iter k := (fSqrt_of_positive q h hs).trans hloop
    refine ⟨k, ?_, hk, ?_, hbefore, ?_⟩
    · omega
    · exact completes_of_not_nan hq (resultOf_fsqrt hroot) (fNonneg_iterate q h hs k).2
    · exact hlast.elim .inr fun hdone => .inl hdone.2

end Sys2Proof.Machine
end

section
/-! PROOFS. The statements of spec/42_float_ops.md R147 and R148: I2F rounds the integer, F2I truncates and saturates. -/

namespace Sys2Proof.Machine

theorem completes_neverInvalid {i : Instr} {s : State} {r : Word} (h : resultOf s.cfg i = neverInvalid r) :
    Completes i s (zext64 r) false := by
  have hdone := completes_of_valid (i := i) (s := s) (by rw [h]; rfl)
  rwa [h] at hdone

/-! ### I2F (42_float_ops.md R147) -/

/-- The smallest integer is no exception: its pattern is the rounded one. -/
theorem i2f_of_ne_zero {n : Word} (h : n ≠ 0#32) : i2f n = roundPack32 (decide (n.toInt < 0)) n.toInt.natAbs 1 := by
  have hmin : roundPack32 (decide ((0x80000000#32).toInt < 0)) (0x80000000#32).toInt.natAbs 1 = 0xCF000000#32 := by
    decide
  unfold i2f
  rw [if_neg h]
  split_ifs with heq
  · rw [heq, hmin]
  · rfl

/-- An integer up to 2^24 is a magnitude of the format: shifted until bit 23 or bit 24 is its highest, at the exponent
that undoes the shift. -/
theorem exists_funits_eq {N : ℕ} (hN : N ≠ 0) (hle : N ≤ 2 ^ 24) : ∃ k < fInfOrdinal, funits k = N * 2 ^ 149 := by
  obtain ⟨c, hc, hlo, hhi⟩ : ∃ c ≤ 23, 2 ^ 23 ≤ N * 2 ^ c ∧ N * 2 ^ c ≤ 2 ^ 24 := by
    obtain hlt | rfl := hle.lt_or_eq
    · have hlog : N.log2 < 24 := (Nat.log2_lt hN).mpr hlt
      obtain ⟨hlo, hhi⟩ := mul_two_pow_normalised hN (k := 23 - N.log2) (by omega)
      exact ⟨23 - N.log2, Nat.sub_le _ _, hlo, hhi.le⟩
    · exact ⟨0, by norm_num⟩
  refine ⟨(149 - c) * 2 ^ 23 + N * 2 ^ c, by rw [fInfOrdinal]; omega, ?_⟩
  have hexp : c + (149 - c) = 149 := by omega
  rw [funits_of_significand hhi fun _ => hlo, mul_assoc, ← pow_add, hexp]

/-- Such a magnitude is rounded to itself. -/
theorem fval_roundPack32_of_le (g : Bool) {N : ℕ} (hN : N ≠ 0) (hle : N ≤ 2 ^ 24) :
    fval (roundPack32 g N 1) = sgn g * N := by
  obtain ⟨k, hk, hunits⟩ := exists_funits_eq hN hle
  have hpos : 0 < N := Nat.pos_of_ne_zero hN
  have hord : roundOrdinal N 1 = k := roundOrdinal_of_exact hpos one_pos (by rw [hunits, mul_one])
  have hlt : k < 2 ^ 31 := hk.trans fInfOrdinal_lt
  rw [roundPack32_eq g hpos one_pos, hord, min_eq_left hk.le, fval_eq_funits, signOf_signBit_or g hlt,
    fordinal_signBit_or g hlt, hunits, Nat.cast_mul, Nat.cast_pow, Nat.cast_ofNat,
    mul_div_cancel_right₀ _ (by positivity)]

theorem sgn_mul_natAbs (z : ℤ) : sgn (decide (z < 0)) * (z.natAbs : ℚ) = z := by
  obtain h | h := lt_or_ge z 0
  · rw [decide_eq_true h, Nat.cast_natAbs, abs_of_neg h]
    simp [sgn]
  · rw [decide_eq_false h.not_gt, Nat.cast_natAbs, abs_of_nonneg h]
    simp [sgn]

theorem fval_i2f_of_natAbs_le {n : Word} (h : n.toInt.natAbs ≤ 2 ^ 24) : fval (i2f n) = n.toInt := by
  by_cases hn : n = 0#32
  · subst hn
    simp [i2f, fval_eq_funits, fordinal, funits]
  · have hne : n.toInt.natAbs ≠ 0 :=
      Int.natAbs_ne_zero.mpr fun h0 => hn (BitVec.eq_of_toInt_eq h0)
    rw [i2f_of_ne_zero hn, fval_roundPack32_of_le _ hne h, sgn_mul_natAbs]

/-- Settles O40: INT32_MIN rounds as the rule's general case does, and the integers up to 2^24 are values of the
format. -/
theorem i2fRoundsTheInteger : Obligations.I2fRoundsTheInteger := by
  unfold Obligations.I2fRoundsTheInteger
  intro a b s n
  have hdone : Completes (.i2f a b) s (zext64 (i2f n)) false := completes_neverInvalid rfl
  refine ⟨fun h => ?_, fun h => ?_, fun h => ⟨i2f n, hdone, fval_i2f_of_natAbs_le h⟩⟩
  · rwa [h] at hdone
  · rwa [i2f_of_ne_zero h] at hdone

/-! ### F2I (42_float_ops.md R148) -/

/-- A magnitude below 2^31 under a sign, as a two's-complement integer. -/
theorem toInt_neg32_ite (g : Bool) {m : Word} (h : m.toNat < 2 ^ 31) :
    (if g then neg32 m else m).toInt = if g then -(m.toNat : ℤ) else m.toNat := by
  have hm : m.toInt = m.toNat := by
    rw [BitVec.toInt_eq_toNat_of_lt (by omega)]
  cases g with
  | false => exact hm
  | true =>
    simp only [if_true]
    rw [BitVec.toInt_eq_toNat_cond, neg32_toNat]
    split <;> omega

/-- A significand at exponent e is at least 2^e and below 2^(e + 1). -/
theorem significand_bounds {m : ℕ} (e : ℤ) (hlo : 2 ^ 23 ≤ m) (hhi : m < 2 ^ 24) :
    (2 : ℚ) ^ e ≤ m * 2 ^ (e - 23) ∧ (m : ℚ) * 2 ^ (e - 23) < 2 ^ (e + 1) := by
  have hpow : (0 : ℚ) < 2 ^ (e - 23) := by positivity
  have h23 : (2 : ℚ) ^ e = 2 ^ 23 * 2 ^ (e - 23) := by
    rw [← zpow_natCast, ← zpow_add₀ two_ne_zero]
    congr 1
    push_cast
    ring
  have h24 : (2 : ℚ) ^ (e + 1) = 2 ^ 24 * 2 ^ (e - 23) := by
    rw [zpow_add_one₀ two_ne_zero, h23]
    ring
  rw [h23, h24]
  exact ⟨mul_le_mul_of_nonneg_right (by exact_mod_cast hlo) hpow.le,
    mul_lt_mul_of_pos_right (by exact_mod_cast hhi) hpow⟩

/-- R148 below 2^31: the truncated magnitude under the sign. A negative exponent leaves 0, an exponent up to 23 shifts
fraction bits out, a larger one shifts zeros in. -/
theorem f2iNormal_of_lt {u : FUnpacked} (hlo : 2 ^ 23 ≤ u.m) (hhi : u.m < 2 ^ 24) (he : u.e < 31) :
    ∃ mag : Word, mag.toNat = ⌊(u.m : ℚ) * 2 ^ (u.e - 23)⌋₊ ∧ f2iNormal u = if u.s then neg32 mag else mag := by
  have hword : (BitVec.ofNat 32 u.m).toNat = u.m := by
    rw [BitVec.toNat_ofNat]
    omega
  unfold f2iNormal
  dsimp only
  by_cases hneg : u.e < 0
  · refine ⟨0#32, ?_, ?_⟩
    · have hone : (2 : ℚ) ^ (u.e + 1) ≤ 1 := zpow_le_one_of_nonpos₀ one_le_two (by omega)
      exact (Nat.floor_eq_zero.mpr ((significand_bounds u.e hlo hhi).2.trans_le hone)).symm
    · rw [if_pos hneg]
      cases u.s <;> rfl
  rw [if_neg hneg, if_neg (by omega)]
  by_cases hshift : u.e ≤ 23
  · rw [if_pos hshift]
    refine ⟨_, ?_, rfl⟩
    have hpow : (2 : ℚ) ^ (u.e - 23) = (((2 ^ (23 - u.e).toNat : ℕ) : ℚ))⁻¹ := by
      rw [Nat.cast_pow, Nat.cast_ofNat, ← zpow_natCast, ← zpow_neg]
      congr 1
      omega
    rw [shr_toNat, hword, hpow, ← div_eq_mul_inv, Nat.floor_div_eq_div]
  · rw [if_neg hshift]
    refine ⟨_, ?_, rfl⟩
    have hfit : u.m * 2 ^ (u.e - 23).toNat < 2 ^ 32 := by
      have : 2 ^ (u.e - 23).toNat ≤ 2 ^ 7 := Nat.pow_le_pow_right two_pos (by omega)
      calc u.m * 2 ^ (u.e - 23).toNat ≤ u.m * 2 ^ 7 := Nat.mul_le_mul_left _ this
        _ < 2 ^ 32 := by omega
    have hpow : (u.m : ℚ) * 2 ^ (u.e - 23) = (u.m * 2 ^ (u.e - 23).toNat : ℕ) := by
      rw [Nat.cast_mul, Nat.cast_pow, Nat.cast_ofNat, ← zpow_natCast, Int.toNat_of_nonneg (by omega)]
    rw [shl_toNat, hword, Nat.mod_eq_of_lt hfit, hpow, Nat.floor_natCast]

/-- R148 from 2^31 up: the bound of the sign. -/
theorem f2iNormal_of_ge {u : FUnpacked} (he : 31 ≤ u.e) : f2iNormal u = if u.s then int32Min else int32Max := by
  rw [f2iNormal, if_neg (by omega), if_pos he]

theorem abs_fval_of_normal {x : Word} (h : fclass x = .normal) :
    |fval x| = (funpack x).m * 2 ^ ((funpack x).e - 23) := by
  obtain ⟨-, -, -, -, -, hval⟩ := funpack_spec h
  rw [hval, mul_assoc, abs_mul, abs_sgn, one_mul, abs_of_nonneg (by positivity)]

/-- A Normal's magnitude reaches 2^31 exactly from exponent 31 up. -/
theorem le_abs_fval_iff {x : Word} (h : fclass x = .normal) : 2 ^ 31 ≤ |fval x| ↔ 31 ≤ (funpack x).e := by
  obtain ⟨hlo, hhi, -, -, -, -⟩ := funpack_spec h
  obtain ⟨hbelow, habove⟩ := significand_bounds (funpack x).e hlo hhi
  rw [abs_fval_of_normal h]
  constructor
  · intro hge
    by_contra hlt
    have hpow : (2 : ℚ) ^ ((funpack x).e + 1) ≤ 2 ^ (31 : ℤ) := zpow_le_zpow_right₀ one_le_two (by omega)
    exact absurd (hge.trans_lt (habove.trans_le hpow)) (by norm_num)
  · intro hge
    have hpow : (2 : ℚ) ^ (31 : ℤ) ≤ 2 ^ (funpack x).e := zpow_le_zpow_right₀ one_le_two hge
    exact (by norm_num : (2 : ℚ) ^ 31 ≤ 2 ^ (31 : ℤ)).trans (hpow.trans hbelow)

theorem fval_of_isZero {x : Word} (h : isZero x = true) : fval x = 0 := by
  obtain rfl | rfl := isZero_cases h <;> simp [fval_eq_funits, fordinal, funits, fPZero, fNZero]

theorem fval_eq_ite_abs (x : Word) : fval x = if signOf x then -|fval x| else |fval x| := by
  conv_lhs => rw [fval_eq_funits, ← abs_fval]
  cases signOf x <;> simp [sgn]

theorem f2i_of_normal {x : Word} (h : fclass x = .normal) : f2i x = f2iNormal (funpack x) := by
  rw [f2i, h]

theorem f2i_of_isZero {x : Word} (h : isZero x = true) : f2i x = 0#32 := by
  obtain rfl | rfl := isZero_cases h <;> rfl

/-- R148 for every finite pattern of magnitude 2^31 or more. -/
theorem f2i_of_ge {x : Word} (hx : isFinite x = true) (h : 2 ^ 31 ≤ |fval x|) :
    f2i x = if signOf x then int32Min else int32Max := by
  obtain hx | hx := (isFinite_iff_normal_or_zero x).mp hx
  · obtain ⟨-, -, -, -, hs, -⟩ := funpack_spec hx
    rw [f2i_of_normal hx, f2iNormal_of_ge ((le_abs_fval_iff hx).mp h), hs]
  · rw [fval_of_isZero hx, abs_zero] at h
    exact absurd h (by norm_num)

/-- R148 for every finite pattern below 2^31 in magnitude: the magnitude's floor under the sign. -/
theorem toInt_f2i_of_lt {x : Word} (hx : isFinite x = true) (h : |fval x| < 2 ^ 31) :
    (f2i x).toInt = if signOf x then -(⌊|fval x|⌋₊ : ℤ) else ⌊|fval x|⌋₊ := by
  obtain hx | hx := (isFinite_iff_normal_or_zero x).mp hx
  · obtain ⟨hlo, hhi, -, -, hs, -⟩ := funpack_spec hx
    have he : (funpack x).e < 31 := not_le.mp fun hge => absurd ((le_abs_fval_iff hx).mpr hge) h.not_ge
    obtain ⟨mag, hmag, hres⟩ := f2iNormal_of_lt hlo hhi he
    rw [← abs_fval_of_normal hx] at hmag
    have hlt : mag.toNat < 2 ^ 31 := by
      rw [hmag, Nat.floor_lt (abs_nonneg _)]
      exact_mod_cast h
    rw [f2i_of_normal hx, hres, hs, toInt_neg32_ite _ hlt, hmag]
  · rw [f2i_of_isZero hx, fval_of_isZero hx]
    simp

theorem signOf_eq_false_of_fval_pos {x : Word} (h : 0 < fval x) : signOf x = false := by
  by_contra hs
  have hneg := fval_eq_ite_abs x
  rw [if_pos (by simpa using hs)] at hneg
  linarith [abs_nonneg (fval x)]

theorem signOf_eq_true_of_fval_neg {x : Word} (h : fval x < 0) : signOf x = true := by
  by_contra hs
  have hpos := fval_eq_ite_abs x
  rw [if_neg hs] at hpos
  linarith [abs_nonneg (fval x)]

/-- R148: truncation toward zero is the floor from 0 up and the ceiling from 0 down. -/
theorem f2i_truncates {x : Word} (hx : isFinite x = true) (h : |fval x| < 2 ^ 31) :
    (0 ≤ fval x → (f2i x).toInt = ⌊fval x⌋) ∧ (fval x ≤ 0 → (f2i x).toInt = ⌈fval x⌉) := by
  rw [toInt_f2i_of_lt hx h, Int.natCast_floor_eq_floor (abs_nonneg _)]
  obtain hneg | hzero | hpos := lt_trichotomy (fval x) 0
  · rw [signOf_eq_true_of_fval_neg hneg, if_pos rfl, abs_of_neg hneg, Int.floor_neg, neg_neg]
    exact ⟨fun h0 => absurd hneg h0.not_gt, fun _ => rfl⟩
  · rw [hzero]
    simp
  · rw [signOf_eq_false_of_fval_pos hpos, if_neg Bool.false_ne_true, abs_of_pos hpos]
    exact ⟨fun _ => rfl, fun h0 => absurd hpos h0.not_gt⟩

/-- Settles O41: class by class, a finite operand by its magnitude against 2^31. -/
theorem f2iTruncatesAndSaturates : Obligations.F2iTruncatesAndSaturates := by
  unfold Obligations.F2iTruncatesAndSaturates
  intro a b s x
  have hdone : Completes (.f2i a b) s (zext64 (f2i x)) false := completes_neverInvalid rfl
  refine ⟨fun h => ?_, fun h => ?_, fun h => ?_, fun hx h => ?_, fun hx h => ?_,
    fun hx h => ⟨f2i x, hdone, f2i_truncates hx h⟩⟩
  · rwa [f2i, fclass_of_isNan h] at hdone
  · rwa [f2i, h] at hdone
  · rwa [f2i, h] at hdone
  · have hs := signOf_eq_false_of_fval_pos (lt_of_lt_of_le (by norm_num) h)
    rwa [f2i_of_ge hx (h.trans (le_abs_self _)), hs] at hdone
  · have hs := signOf_eq_true_of_fval_neg (lt_of_le_of_lt h (by norm_num))
    rwa [f2i_of_ge hx (le_abs.mpr (.inr (by linarith))), hs] at hdone

end Sys2Proof.Machine
end

section
/-! PROOFS. The regime blocks of the 31 magnitude bits, and the rank of an unpacked posit: its exponent over its fraction
bits as one number, in the order of the values (spec/43_posit_core.md R160 to R166). -/

namespace Sys2Proof.Machine

/-! ### The regime blocks (43_posit_core.md R160, R162) -/

/-- The smallest magnitude whose regime value is j - 30: a single 1 above j zeros, or j - 29 ones and then zeros. -/
def regimeBase (j : ℕ) : ℕ := if j < 30 then 2 ^ j else 2 ^ 31 - 2 ^ (60 - j)

/-- How many of the 31 bits lie below the regime of value j - 30 and its terminator. -/
def regimeWidth (j : ℕ) : ℕ := if j < 30 then j else 59 - j

/-- The length of the run of regime value j - 30 (R162). -/
def regimeRun (j : ℕ) : ℕ := if j < 30 then 30 - j else j - 29

theorem regimeWidth_le (j : ℕ) : regimeWidth j ≤ 29 := by
  unfold regimeWidth
  split <;> omega

/-- The block of the largest regime has no room for a terminator and holds the all-ones magnitude alone. -/
theorem regimeBase_sixty : regimeBase 60 = 2 ^ 31 - 1 := rfl

theorem regimeBase_zero : regimeBase 0 = 1 := rfl

/-- Each block ends where the next one begins. -/
theorem regimeBase_succ {j : ℕ} (hj : j < 60) : regimeBase (j + 1) = regimeBase j + 2 ^ regimeWidth j := by
  unfold regimeBase regimeWidth
  obtain hlt | rfl | hgt := lt_trichotomy j 29
  · rw [if_pos (by omega), if_pos (by omega), if_pos (by omega), pow_succ, mul_two]
  · rfl
  · have hhalf : 2 ^ (60 - j) = 2 * 2 ^ (59 - j) := by rw [← pow_succ']; congr 1; omega
    have hle : 2 ^ (60 - j) ≤ 2 ^ 31 := Nat.pow_le_pow_right two_pos (by omega)
    have hnext : 60 - (j + 1) = 59 - j := by omega
    rw [if_neg (by omega), if_neg (by omega), if_neg (by omega), hnext]
    omega

/-- A block lies below every later one. -/
theorem regimeBase_add_le {j i : ℕ} (hji : j < i) (hi : i ≤ 60) : regimeBase j + 2 ^ regimeWidth j ≤ regimeBase i := by
  induction i, hji using Nat.le_induction with
  | base => exact (regimeBase_succ hi).ge
  | succ i hji ih =>
    rw [regimeBase_succ (by omega)]
    exact (ih (by omega)).trans (Nat.le_add_right _ _)

theorem regimeBase_mono {j i : ℕ} (hji : j ≤ i) (hi : i ≤ 60) : regimeBase j ≤ regimeBase i := by
  obtain hlt | rfl := hji.lt_or_eq
  · exact (Nat.le_add_right _ _).trans (regimeBase_add_le hlt hi)
  · exact le_rfl

/-- The blocks cover the magnitudes of the Finite posits. -/
theorem exists_regimeBase_add {u : ℕ} (hpos : 0 < u) (hlt : u < 2 ^ 31) :
    ∃ j ≤ 60, ∃ rest < 2 ^ regimeWidth j, u = regimeBase j + rest := by
  let j := Nat.findGreatest (fun j => regimeBase j ≤ u) 60
  have hbase : regimeBase j ≤ u :=
    Nat.findGreatest_spec (P := fun j => regimeBase j ≤ u) (Nat.zero_le 60) (by rwa [regimeBase_zero])
  have hj : j ≤ 60 := Nat.findGreatest_le 60
  refine ⟨j, hj, u - regimeBase j, ?_, by omega⟩
  obtain hj | hj := hj.lt_or_eq
  · have hnext : ¬ regimeBase (j + 1) ≤ u :=
      Nat.findGreatest_is_greatest (P := fun j => regimeBase j ≤ u) (Nat.lt_succ_self j) hj
    rw [regimeBase_succ hj] at hnext
    omega
  · rw [hj, regimeBase_sixty] at hbase ⊢
    have : 2 ^ regimeWidth 60 = 1 := rfl
    omega

/-- Every magnitude of a block is a Finite posit's. -/
theorem regimeBase_add_bounds {j rest : ℕ} (hj : j ≤ 60) (hrest : rest < 2 ^ regimeWidth j) :
    0 < regimeBase j + rest ∧ regimeBase j + rest < 2 ^ 31 := by
  have hlo : 1 ≤ regimeBase j := regimeBase_mono (Nat.zero_le j) hj
  have hhi : regimeBase j + 2 ^ regimeWidth j ≤ 2 ^ 31 := by
    obtain hj | rfl := hj.lt_or_eq
    · exact (regimeBase_add_le hj le_rfl).trans (by rw [regimeBase_sixty]; omega)
    · decide
  omega

/-- Shifting out the run and its terminator drops the base. -/
theorem dvd_regimeBase_shifted {j : ℕ} (hj : j ≤ 60) : 2 ^ 32 ∣ 2 * regimeBase j * 2 ^ (regimeRun j + 1) := by
  unfold regimeBase regimeRun
  by_cases h : j < 30
  · rw [if_pos h, if_pos h, ← pow_succ', ← pow_add]
    exact pow_dvd_pow 2 (by omega)
  · have hbase : 2 ^ (60 - j) ∣ 2 ^ 31 - 2 ^ (60 - j) := Nat.dvd_sub (pow_dvd_pow 2 (by omega)) dvd_rfl
    rw [if_neg h, if_neg h]
    refine dvd_trans ?_ (mul_dvd_mul (mul_dvd_mul_left 2 hbase) dvd_rfl)
    rw [← pow_succ', ← pow_add]
    exact pow_dvd_pow 2 (by omega)

/-- The bits below the regime, left-justified in 32. -/
def restBits (j rest : ℕ) : ℕ := rest * 2 ^ (32 - regimeWidth j)

/-- Shifting out the run and its terminator left-justifies the rest. -/
theorem rest_shifted {j rest : ℕ} (hj : j ≤ 60) (hrest : rest < 2 ^ regimeWidth j) :
    2 * rest * 2 ^ (regimeRun j + 1) = restBits j rest := by
  rw [restBits, mul_comm 2 rest, mul_assoc, ← pow_succ']
  unfold regimeWidth regimeRun at *
  obtain hj | rfl := hj.lt_or_eq
  · congr 2
    split <;> omega
  · obtain rfl : rest = 0 := by simpa using hrest
    rw [Nat.zero_mul, Nat.zero_mul]

/-! ### Ranks -/

/-- The unpacked posits an in-range encode takes (43_posit_core.md R164, R166). -/
structure PUnpacked.InRange (u : PUnpacked) : Prop where
  minExp_le : -120 ≤ u.exp
  le_maxExp : u.exp ≤ 120
  msb : u.sig.msb = true

/-- The exponent, counted from the smallest, over the 31 fraction bits. -/
def PUnpacked.rank (u : PUnpacked) : ℕ := (u.exp + 120).toNat * 2 ^ 31 + u.sig.toNat % 2 ^ 31

/-- The rank of the magnitude regimeBase j + rest: two exponent bits and 31 fraction bits below the regime, of which
rest fills the upper ones. -/
def blockRank (j rest : ℕ) : ℕ := j * 2 ^ 33 + rest * 2 ^ (33 - regimeWidth j)

/-- The magnitude of a rank: below the regime only the upper bits have room (43_posit_core.md R166). -/
def truncRank (n : ℕ) : ℕ := regimeBase (n / 2 ^ 33) + n % 2 ^ 33 / 2 ^ (33 - regimeWidth (n / 2 ^ 33))

/-- The bits below the regime and the bits truncated away are 33. -/
theorem two_pow_regimeWidth_mul (j : ℕ) : 2 ^ regimeWidth j * 2 ^ (33 - regimeWidth j) = 2 ^ 33 := by
  have := regimeWidth_le j
  rw [← pow_add]
  congr 1
  omega

theorem rest_mul_lt {j rest : ℕ} (hrest : rest < 2 ^ regimeWidth j) : rest * 2 ^ (33 - regimeWidth j) < 2 ^ 33 := by
  rw [← two_pow_regimeWidth_mul j]
  exact Nat.mul_lt_mul_of_pos_right hrest (Nat.two_pow_pos _)

theorem two_mul_restBits (j rest : ℕ) : 2 * restBits j rest = rest * 2 ^ (33 - regimeWidth j) := by
  have := regimeWidth_le j
  have hexp : 33 - regimeWidth j = 32 - regimeWidth j + 1 := by omega
  rw [restBits, hexp, pow_succ]
  ring

theorem restBits_lt {j rest : ℕ} (hrest : rest < 2 ^ regimeWidth j) : restBits j rest < 2 ^ 32 := by
  have := rest_mul_lt hrest
  have := two_mul_restBits j rest
  omega

theorem truncated_lt (j : ℕ) {x : ℕ} (hx : x < 2 ^ 33) : x / 2 ^ (33 - regimeWidth j) < 2 ^ regimeWidth j := by
  rw [Nat.div_lt_iff_lt_mul (Nat.two_pow_pos _), two_pow_regimeWidth_mul]
  exact hx

/-- The truncated magnitude is the largest one whose rank is not above. -/
theorem le_truncRank_iff {j rest n : ℕ} (hj : j ≤ 60) (hrest : rest < 2 ^ regimeWidth j) (hn : n / 2 ^ 33 ≤ 60) :
    regimeBase j + rest ≤ truncRank n ↔ blockRank j rest ≤ n := by
  have hdiv := Nat.div_add_mod' n (2 ^ 33)
  have hx : n % 2 ^ 33 < 2 ^ 33 := Nat.mod_lt _ (Nat.two_pow_pos _)
  have hcut := truncated_lt (n / 2 ^ 33) hx
  have hfill := rest_mul_lt hrest
  unfold truncRank blockRank
  generalize n / 2 ^ 33 = i, n % 2 ^ 33 = x at *
  obtain hlt | rfl | hgt := lt_trichotomy j i
  · have hblock := regimeBase_add_le hlt hn
    have hbelow := (Nat.add_lt_add_left hrest _).trans_le hblock
    exact iff_of_true (hbelow.le.trans (Nat.le_add_right _ _)) (by omega)
  · rw [Nat.add_le_add_iff_left, Nat.le_div_iff_mul_le (Nat.two_pow_pos _)]
    omega
  · have hblock := regimeBase_add_le hgt hj
    exact iff_of_false (by omega) (by omega)

theorem truncRank_bounds {n : ℕ} (hn : n / 2 ^ 33 ≤ 60) : 0 < truncRank n ∧ truncRank n < 2 ^ 31 :=
  regimeBase_add_bounds hn (truncated_lt _ (Nat.mod_lt _ (Nat.two_pow_pos _)))

/-- Nothing is truncated from the rank of a magnitude. -/
theorem truncRank_blockRank {j rest : ℕ} (hrest : rest < 2 ^ regimeWidth j) :
    truncRank (blockRank j rest) = regimeBase j + rest := by
  have hfill := rest_mul_lt hrest
  have hdiv : blockRank j rest / 2 ^ 33 = j := by unfold blockRank; omega
  have hmod : blockRank j rest % 2 ^ 33 = rest * 2 ^ (33 - regimeWidth j) := by unfold blockRank; omega
  rw [truncRank, hdiv, hmod, Nat.mul_div_cancel _ (Nat.two_pow_pos _)]

theorem toNat_mod_of_msb {m : Word} (h : m.msb = true) : m.toNat = 2 ^ 31 + m.toNat % 2 ^ 31 := by
  have hlo := BitVec.le_toNat_of_msb_true h
  have hhi := m.isLt
  omega

theorem PUnpacked.InRange.rank_div_le {u : PUnpacked} (h : u.InRange) : u.rank / 2 ^ 33 ≤ 60 := by
  have := h.le_maxExp
  have : (u.exp + 120).toNat ≤ 240 := by omega
  unfold PUnpacked.rank
  omega

/-! ### pencode's bit string (43_posit_core.md R166) -/

/-- The regime bits over two exponent bits and 31 fraction bits, cut after the 31st bit. -/
theorem regimeBits_cut {j x : ℕ} (hj : j ≤ 60) (hx : x < 2 ^ 33) :
    ((regimeBits ((j : ℤ) - 30)).2 * 2 ^ 33 + x) / 2 ^ ((regimeBits ((j : ℤ) - 30)).1 + 2) =
      regimeBase j + x / 2 ^ (33 - regimeWidth j) := by
  unfold regimeBits regimeBase regimeWidth
  by_cases hneg : j < 30
  · have hlen : (-((j : ℤ) - 30)).toNat + 1 + 2 = 33 - j := by omega
    have hone : 1 * 2 ^ 33 = 2 ^ (33 - j) * 2 ^ j := by
      rw [← pow_add, one_mul]
      congr 1
      omega
    rw [if_neg (by omega), if_pos hneg, if_pos hneg, hlen, hone, Nat.mul_add_div (Nat.two_pow_pos _)]
  · have hlen : ((j : ℤ) - 30).toNat + 2 = j - 28 := by omega
    rw [if_pos (by omega), if_neg hneg, if_neg hneg, hlen]
    obtain rfl | hlt := hj.eq_or_lt
    · dsimp only
      omega
    · have hcut : 33 - (59 - j) = j - 28 + 2 := by omega
      have hregime : (2 ^ (j - 28) - 2) * 2 ^ 33 = 2 ^ (j - 28 + 2) * (2 ^ 31 - 2 ^ (60 - j)) := by
        rw [Nat.sub_mul, Nat.mul_sub, ← pow_add, ← pow_add, ← pow_succ', ← pow_add]
        congr 2
        all_goals omega
      rw [hcut, hregime, Nat.mul_add_div (Nat.two_pow_pos _)]

theorem toNat_pmagnitude {u : PUnpacked} (h : u.InRange) : (pmagnitude u.exp u.sig).toNat = truncRank u.rank := by
  have hmin := h.minExp_le
  have hcut := regimeBits_cut (j := u.rank / 2 ^ 33) (x := u.rank % 2 ^ 33) h.rank_div_le
    (Nat.mod_lt _ (Nat.two_pow_pos _))
  have hlt := (truncRank_bounds h.rank_div_le).2
  have hk : u.exp / 4 = ((u.rank / 2 ^ 33 : ℕ) : ℤ) - 30 := by unfold PUnpacked.rank; omega
  have he : (u.exp - 4 * (u.exp / 4)).toNat * 2 ^ 31 + u.sig.toNat % 2 ^ 31 = u.rank % 2 ^ 33 := by
    unfold PUnpacked.rank
    omega
  have hlen (l : ℕ) : l + 2 + 31 - 31 = l + 2 := by omega
  have hstr (r : ℕ) : (r * 4 + (u.exp - 4 * (u.exp / 4)).toNat) * 2 ^ 31 + u.sig.toNat % 2 ^ 31 =
      r * 2 ^ 33 + u.rank % 2 ^ 33 := by rw [← he]; ring
  unfold pmagnitude
  dsimp only
  rw [hstr, hlen, hk, hcut, BitVec.toNat_ofNat]
  exact Nat.mod_eq_of_lt (hlt.trans (by norm_num))

end Sys2Proof.Machine
end

section
/-! PROOFS. The statements of spec/43_posit_core.md section 2 and R163: the range of a decode, negation, and the round
trips through pencode. -/

namespace Sys2Proof.Machine

/-! ### Sign and magnitude of a posit (43_posit_core.md R160) -/

/-- The pattern without its sign: the two's complement of a negative one. -/
def pmag (p : Word) : Word := if signOf p then neg32 p else p

/-- The 31 magnitude bits as a number. -/
def pordinal (p : Word) : ℕ := (pmag p).toNat

/-- The classes as ranges (R161). -/
theorem pclass_finite_iff (p : Word) : pclass p = .finite ↔ 0 < pordinal p ∧ pordinal p < 2 ^ 31 := by
  have := p.isLt
  rw [pclass_eq_finite, pZero, pNaR, BitVec.toNat_ne, BitVec.toNat_ne, pordinal, pmag, signOf,
    BitVec.msb_eq_decide]
  simp only [BitVec.toNat_ofNat, decide_eq_true_eq]
  split
  · rw [neg32_toNat]
    omega
  · omega

/-- A pattern is its magnitude under its sign. -/
theorem neg32_ite_pmag (p : Word) : (if signOf p then neg32 (pmag p) else pmag p) = p := by
  unfold pmag
  cases signOf p <;> simp

theorem signOf_neg32 {p : Word} (h : pclass p = .finite) : signOf (neg32 p) = !signOf p := by
  have := p.isLt
  obtain ⟨hzero, hnar⟩ := pclass_eq_finite.mp h
  have hz := BitVec.toNat_ne.mp hzero
  have hn := BitVec.toNat_ne.mp hnar
  simp only [pZero, pNaR, BitVec.toNat_ofNat] at hz hn
  rw [signOf, signOf, BitVec.msb_eq_decide, BitVec.msb_eq_decide, neg32_toNat, ← decide_not, decide_eq_decide]
  omega

theorem pmag_neg32 {p : Word} (h : pclass p = .finite) : pmag (neg32 p) = pmag p := by
  unfold pmag
  rw [signOf_neg32 h]
  cases signOf p <;> simp

theorem pclass_neg32 (p : Word) : pclass (neg32 p) = pclass p := by
  obtain hp | hp | hp : pclass p = .zero ∨ pclass p = .nar ∨ pclass p = .finite := by cases pclass p <;> simp
  · rw [pclass_eq_zero.mp hp]
    rfl
  · rw [pclass_eq_nar.mp hp]
    rfl
  · rw [hp, pclass_finite_iff, pordinal, pmag_neg32 hp]
    exact (pclass_finite_iff p).mp hp

/-- A magnitude under a sign has that sign. -/
theorem signOf_neg32_ite (s : Bool) {m : Word} (hpos : 0 < m.toNat) (hlt : m.toNat < 2 ^ 31) :
    signOf (if s then neg32 m else m) = s := by
  cases s with
  | false => exact BitVec.msb_eq_false_iff_two_mul_lt.mpr (by simp only [Bool.false_eq_true, if_false]; omega)
  | true =>
    have : (neg32 m).toNat = 2 ^ 32 - m.toNat := by rw [neg32_toNat]; omega
    exact BitVec.msb_eq_true_iff_two_mul_ge.mpr (by simp only [if_true]; omega)

/-- A magnitude under a sign keeps its magnitude. -/
theorem pmag_neg32_ite (s : Bool) {m : Word} (hpos : 0 < m.toNat) (hlt : m.toNat < 2 ^ 31) :
    pmag (if s then neg32 m else m) = m := by
  unfold pmag
  rw [signOf_neg32_ite s hpos hlt]
  cases s <;> simp

/-! ### pdecode's fields (43_posit_core.md R165) -/

theorem lzc32_of_bounds {x : Word} {i : ℕ} (hlo : 2 ^ i ≤ x.toNat) (hhi : x.toNat < 2 ^ (i + 1)) :
    lzc32 x = 31 - i := by
  have hne : x.toNat ≠ 0 := ((Nat.two_pow_pos i).trans_le hlo).ne'
  rw [lzc32, if_neg (BitVec.toNat_ne.mpr hne), (Nat.log2_eq_iff hne).mpr ⟨hlo, hhi⟩]

section
variable {p : Word} {j rest : ℕ} (hj : j ≤ 60) (hrest : rest < 2 ^ regimeWidth j)
  (hp : pordinal p = regimeBase j + rest)
include hj hrest hp

theorem toNat_pmagBits : (pmagBits p).toNat = 2 * (regimeBase j + rest) := by
  have := (regimeBase_add_bounds hj hrest).2
  have hmag : (pmagBits p).toNat = pordinal p * 2 ^ 1 % 2 ^ 32 := shl_toNat (pmag p) 1
  rw [hmag, hp]
  omega

/-- The run of the block: ones in the upper blocks, zeros in the lower ones. -/
theorem msb_pmagBits : (pmagBits p).msb = decide (30 ≤ j) := by
  rw [BitVec.msb_eq_decide, toNat_pmagBits hj hrest hp, decide_eq_decide]
  have hone : regimeBase 30 = 2 ^ 30 := rfl
  constructor
  · intro htop
    by_contra hlt
    have := regimeBase_add_le (not_le.mp hlt) (by norm_num)
    omega
  · intro hge
    have := regimeBase_mono hge hj
    omega

/-- A run of ones is counted on the complement, which lies between 2^(60 - j) and its double. -/
theorem regimeLen_pmagBits : regimeLen (pmagBits p) = regimeRun j := by
  have ht := toNat_pmagBits hj hrest hp
  rw [regimeLen, msb_pmagBits hj hrest hp]
  unfold regimeBase regimeWidth regimeRun at *
  by_cases h : j < 30
  · have hlo : 2 ^ (j + 1) = 2 * 2 ^ j := pow_succ' _ _
    have hhi : 2 ^ (j + 1 + 1) = 2 * 2 ^ (j + 1) := pow_succ' _ _
    rw [if_pos h] at ht hrest
    rw [if_neg (by simpa using h), if_pos h, lzc32_of_bounds (i := j + 1) (by omega) (by omega)]
    omega
  · have hdouble : 2 ^ (60 - j + 1) = 2 * 2 ^ (60 - j) := pow_succ' _ _
    have hle : 2 ^ (60 - j) ≤ 2 ^ 30 := Nat.pow_le_pow_right two_pos (by omega)
    have hroom : 2 * rest < 2 ^ (60 - j) := by
      rw [if_neg h] at hrest
      obtain hj | rfl := hj.lt_or_eq
      · have hhalf : 2 ^ (60 - j) = 2 * 2 ^ (59 - j) := by rw [← pow_succ']; congr 1; omega
        omega
      · omega
    have hnot : (~~~pmagBits p).toNat = 2 ^ 32 - 1 - (pmagBits p).toNat := BitVec.toNat_not
    rw [if_neg h] at ht
    rw [if_pos (by simpa using h), if_neg h, lzc32_of_bounds (i := 60 - j) (by omega) (by omega)]
    omega

theorem regimeVal_pmagBits : regimeVal (pmagBits p) = (j : ℤ) - 30 := by
  rw [regimeVal, regimeLen_pmagBits hj hrest hp, msb_pmagBits hj hrest hp, regimeRun]
  simp only [decide_eq_true_eq]
  split <;> split <;> omega

/-- r of pdecode: what is left below the regime. -/
theorem toNat_shl_pmagBits :
    (shl (pmagBits p) (regimeLen (pmagBits p) + 1)).toNat = restBits j rest := by
  obtain ⟨c, hc⟩ := dvd_regimeBase_shifted hj
  rw [shl_toNat, toNat_pmagBits hj hrest hp, regimeLen_pmagBits hj hrest hp, mul_add, add_mul, hc,
    rest_shifted hj hrest, Nat.mul_add_mod]
  exact Nat.mod_eq_of_lt (restBits_lt hrest)

theorem pdecode_exp : (pdecode p).exp = 4 * ((j : ℤ) - 30) + (restBits j rest / 2 ^ 30 : ℕ) := by
  have hlt := restBits_lt hrest
  unfold pdecode
  dsimp only
  rw [regimeVal_pmagBits hj hrest hp, BitVec.extractLsb'_toNat, Nat.shiftRight_eq_div_pow,
    toNat_shl_pmagBits hj hrest hp]
  omega

theorem toNat_pdecode_sig : (pdecode p).sig.toNat = 2 ^ 31 + 2 * (restBits j rest % 2 ^ 30) := by
  have hfrac : (shr (shl (shl (pmagBits p) (regimeLen (pmagBits p) + 1)) 2) 1).toNat =
      2 * (restBits j rest % 2 ^ 30) := by
    rw [shr_toNat, shl_toNat, toNat_shl_pmagBits hj hrest hp]
    omega
  have hor := Nat.shiftLeft_add_eq_or_of_lt (b := 2 * (restBits j rest % 2 ^ 30)) (i := 31) (by omega) 1
  unfold pdecode
  dsimp only
  rw [BitVec.toNat_or, hfrac]
  exact hor.symm

theorem pdecode_inRange_of_block : (pdecode p).InRange where
  minExp_le := by
    rw [pdecode_exp hj hrest hp]
    omega
  le_maxExp := by
    have hlt := restBits_lt hrest
    rw [pdecode_exp hj hrest hp]
    obtain hj | rfl := hj.lt_or_eq
    · omega
    · obtain rfl : rest = 0 := by simpa [regimeWidth] using hrest
      simp [restBits]
  msb := BitVec.msb_eq_true_iff_two_mul_ge.mpr (by rw [toNat_pdecode_sig hj hrest hp]; omega)

theorem rank_pdecode_of_block : (pdecode p).rank = blockRank j rest := by
  rw [PUnpacked.rank, pdecode_exp hj hrest hp, toNat_pdecode_sig hj hrest hp, blockRank, ← two_mul_restBits]
  omega

/-- At least three bits of the left-justified rest are free, one more of the significand. -/
theorem pdecode_sig_low : (pdecode p).sig.extractLsb' 0 4 = 0#4 := by
  have hdvd : 2 ^ 3 ∣ restBits j rest :=
    Dvd.dvd.mul_left (pow_dvd_pow 2 (by have := regimeWidth_le j; omega)) _
  apply BitVec.eq_of_toNat_eq
  rw [BitVec.extractLsb'_toNat, toNat_pdecode_sig hj hrest hp, Nat.shiftRight_zero, BitVec.toNat_ofNat]
  omega

end

/-! ### The range of a decode (43_posit_core.md R164, R165) -/

/-- The block of a Finite pattern's magnitude. -/
theorem exists_block {p : Word} (h : pclass p = .finite) :
    ∃ j ≤ 60, ∃ rest < 2 ^ regimeWidth j, pordinal p = regimeBase j + rest := by
  obtain ⟨hpos, hlt⟩ := (pclass_finite_iff p).mp h
  exact exists_regimeBase_add hpos hlt

theorem pdecode_inRange {p : Word} (h : pclass p = .finite) : (pdecode p).InRange := by
  obtain ⟨j, hj, rest, hrest, hp⟩ := exists_block h
  exact pdecode_inRange_of_block hj hrest hp

/-- Settles O42: every block of magnitudes decodes into the range. -/
theorem decodedPositIsInRange : Obligations.DecodedPositIsInRange := by
  unfold Obligations.DecodedPositIsInRange
  intro p h
  obtain ⟨hmin, hmax, hmsb⟩ := pdecode_inRange h
  obtain ⟨j, hj, rest, hrest, hp⟩ := exists_block h
  exact ⟨hmin, hmax, hmsb, pdecode_sig_low hj hrest hp, rfl⟩

/-! ### Negation (43_posit_core.md R163) -/

/-- Settles O45: the two's complement flips the sign and keeps the magnitude, from which pdecode reads the rest. -/
theorem positNegationKeepsExponentAndSignificand : Obligations.PositNegationKeepsExponentAndSignificand := by
  unfold Obligations.PositNegationKeepsExponentAndSignificand
  refine ⟨rfl, rfl, fun p => ⟨pclass_neg32 p, fun h => ?_⟩⟩
  have hbits : pmagBits (pneg p) = pmagBits p := congrArg (shl · 1) (pmag_neg32 h)
  refine ⟨?_, ?_, signOf_neg32 h⟩
  · simp only [pdecode, hbits]
  · simp only [pdecode, hbits]

/-! ### Encodes (43_posit_core.md R166) -/

theorem pencode_of_gt {s : Bool} {e : ℤ} {m : Word} (h : 120 < e) : pencode s e m = pNaR := if_pos h

theorem pencode_of_lt {s : Bool} {e : ℤ} {m : Word} (h : e < -120) : pencode s e m = pZero := by
  rw [pencode, maxExp, minExp, if_neg (by omega), if_pos h]

theorem pencode_of_inRange {u : PUnpacked} (h : u.InRange) :
    pencode u.s u.exp u.sig = if u.s then neg32 (pmagnitude u.exp u.sig) else pmagnitude u.exp u.sig := by
  have hmin := h.minExp_le
  have hmax := h.le_maxExp
  obtain ⟨hgt, -⟩ | ⟨hlt, -⟩ | ⟨-, -, heq⟩ := pencode_cases u.s u.exp u.sig
  · omega
  · omega
  · exact heq

theorem pmagnitude_bounds {u : PUnpacked} (h : u.InRange) :
    0 < (pmagnitude u.exp u.sig).toNat ∧ (pmagnitude u.exp u.sig).toNat < 2 ^ 31 := by
  rw [toNat_pmagnitude h]
  exact truncRank_bounds h.rank_div_le

theorem signOf_pencode {u : PUnpacked} (h : u.InRange) : signOf (pencode u.s u.exp u.sig) = u.s := by
  rw [pencode_of_inRange h]
  exact signOf_neg32_ite _ (pmagnitude_bounds h).1 (pmagnitude_bounds h).2

theorem pordinal_pencode {u : PUnpacked} (h : u.InRange) : pordinal (pencode u.s u.exp u.sig) = truncRank u.rank := by
  rw [pencode_of_inRange h, pordinal, pmag_neg32_ite _ (pmagnitude_bounds h).1 (pmagnitude_bounds h).2,
    toNat_pmagnitude h]

theorem pclass_pencode {u : PUnpacked} (h : u.InRange) : pclass (pencode u.s u.exp u.sig) = .finite := by
  rw [pclass_finite_iff, pordinal_pencode h]
  exact truncRank_bounds h.rank_div_le

/-! ### The round trips (43_posit_core.md R168) -/

/-- A pattern's decode has room for every bit of it. -/
theorem truncRank_rank_pdecode {p : Word} (h : pclass p = .finite) : truncRank (pdecode p).rank = pordinal p := by
  obtain ⟨j, hj, rest, hrest, hp⟩ := exists_block h
  rw [rank_pdecode_of_block hj hrest hp, truncRank_blockRank hrest, hp]

theorem pencode_pdecode {p : Word} (h : pclass p = .finite) :
    pencode (pdecode p).s (pdecode p).exp (pdecode p).sig = p := by
  have hu := pdecode_inRange h
  have hmag : pmagnitude (pdecode p).exp (pdecode p).sig = pmag p :=
    BitVec.eq_of_toNat_eq ((toNat_pmagnitude hu).trans (truncRank_rank_pdecode h))
  rw [pencode_of_inRange hu, hmag]
  exact neg32_ite_pmag p

/-- The rank that decoding an encode gives: the lower bits that do not fit below the regime are cleared. -/
theorem rank_pdecode_pencode {u : PUnpacked} (h : u.InRange) :
    (pdecode (pencode u.s u.exp u.sig)).rank = blockRank (u.rank / 2 ^ 33)
      (u.rank % 2 ^ 33 / 2 ^ (33 - regimeWidth (u.rank / 2 ^ 33))) :=
  rank_pdecode_of_block h.rank_div_le (truncated_lt _ (Nat.mod_lt _ (Nat.two_pow_pos _))) (pordinal_pencode h)

theorem PUnpacked.InRange.exp_eq {u : PUnpacked} (h : u.InRange) : u.exp = (u.rank / 2 ^ 31 : ℕ) - 120 := by
  have := h.minExp_le
  unfold PUnpacked.rank
  omega

/-- Clearing lower bits keeps what lies above them. -/
theorem div_mul_two_pow_div {c k : ℕ} (hck : c ≤ k) (x : ℕ) : x / 2 ^ c * 2 ^ c / 2 ^ k = x / 2 ^ k := by
  have hk : 2 ^ k = 2 ^ (k - c) * 2 ^ c := by rw [← pow_add, Nat.sub_add_cancel hck]
  rw [hk, Nat.mul_div_mul_right _ _ (Nat.two_pow_pos c), Nat.div_div_eq_div_mul, mul_comm (2 ^ c)]

/-- With two bits below the regime the exponent bits have room. -/
theorem exp_pdecode_pencode {s : Bool} {e : ℤ} {m : Word} (hm : m.msb = true) (hmin : -112 ≤ e) (hmax : e ≤ 111) :
    (pdecode (pencode s e m)).exp = e := by
  have hu : PUnpacked.InRange ⟨s, e, m⟩ := ⟨by dsimp only; omega, by dsimp only; omega, hm⟩
  have hrank := rank_pdecode_pencode hu
  have hdec := (pdecode_inRange (pclass_pencode hu)).exp_eq
  have hexp : e = _ := hu.exp_eq
  dsimp only at hrank hdec
  rw [hrank, blockRank] at hdec
  generalize PUnpacked.rank ⟨s, e, m⟩ = n at *
  have hwidth : 2 ≤ regimeWidth (n / 2 ^ 33) := by
    unfold regimeWidth
    split <;> omega
  have hclear := div_mul_two_pow_div (show 33 - regimeWidth (n / 2 ^ 33) ≤ 31 by omega) (n % 2 ^ 33)
  omega

/-- With at most two bits below the regime no fraction bit has room. -/
theorem truncRank_congr {n n' : ℕ} (hwidth : regimeWidth (n / 2 ^ 33) ≤ 2) (h : n / 2 ^ 31 = n' / 2 ^ 31) :
    truncRank n = truncRank n' := by
  have hblock : n / 2 ^ 33 = n' / 2 ^ 33 := by omega
  have hexp : 33 - regimeWidth (n / 2 ^ 33) = 31 + (2 - regimeWidth (n / 2 ^ 33)) := by omega
  have hbits : n % 2 ^ 33 / 2 ^ 31 = n' % 2 ^ 33 / 2 ^ 31 := by omega
  rw [truncRank, truncRank, ← hblock, hexp, pow_add, ← Nat.div_div_eq_div_mul, hbits, Nat.div_div_eq_div_mul]

/-- The exponents at which no fraction bit is kept. -/
theorem pencode_eq_of_exp {e : ℤ} {m m' : Word} (he : 108 ≤ e ∨ e ≤ -109) (hm : m.msb = true) (hm' : m'.msb = true) :
    pencode false e m = pencode false e m' := by
  obtain hmin | hmin := lt_or_ge e (-120)
  · rw [pencode_of_lt hmin, pencode_of_lt hmin]
  obtain hmax | hmax := lt_or_ge 120 e
  · rw [pencode_of_gt hmax, pencode_of_gt hmax]
  have hu : PUnpacked.InRange ⟨false, e, m⟩ := ⟨hmin, hmax, hm⟩
  have hu' : PUnpacked.InRange ⟨false, e, m'⟩ := ⟨hmin, hmax, hm'⟩
  have hexp : e = _ := hu.exp_eq
  have hexp' : e = _ := hu'.exp_eq
  have hwidth : regimeWidth (PUnpacked.rank ⟨false, e, m⟩ / 2 ^ 33) ≤ 2 := by
    unfold regimeWidth
    split <;> omega
  have hmag : (pmagnitude e m).toNat = (pmagnitude e m').toNat := by
    rw [toNat_pmagnitude hu, toNat_pmagnitude hu']
    exact truncRank_congr hwidth (by omega)
  exact (pencode_of_inRange hu).trans ((BitVec.eq_of_toNat_eq hmag).trans (pencode_of_inRange hu').symm)

/-- Settles O43: the rank of a decode fits its magnitude, and where at most one bit is left below the regime the
exponents are evaluated one by one. -/
theorem positEncodeInvertsDecode : Obligations.PositEncodeInvertsDecode := by
  unfold Obligations.PositEncodeInvertsDecode
  refine ⟨fun p h => pencode_pdecode h, fun e he => ?_, fun e f hef => ?_,
    fun e m m' he hm hm' => pencode_eq_of_exp he hm hm'⟩
  · obtain ⟨hmin, hmax⟩ | hlist := he
    · obtain hmax | rfl := Int.lt_or_eq_of_le hmax
      · exact exp_pdecode_pencode (by decide) hmin (by omega)
      · decide
    · fin_cases hlist
      all_goals decide
  · fin_cases hef
    all_goals decide

end Sys2Proof.Machine
end

section
/-! PROOFS. The statements of spec/43_posit_core.md R166 and R169: the value of a posit grows with its rank, so an encode
truncates toward zero and the patterns are ordered as integers. -/

namespace Sys2Proof.Machine

/-! ### The magnitude a rank stands for (43_posit_core.md R164) -/

/-- A significand of 31 fraction bits at an exponent counted from -120. -/
def rankVal (n : ℕ) : ℚ := (2 ^ 31 + n % 2 ^ 31 : ℕ) * 2 ^ ((n / 2 ^ 31 : ℕ) - 151 : ℤ)

theorem rankVal_pos (n : ℕ) : 0 < rankVal n := by
  unfold rankVal
  positivity

/-- The next rank adds one to the significand, or starts the next exponent. -/
theorem rankVal_lt_succ (n : ℕ) : rankVal n < rankVal (n + 1) := by
  unfold rankVal
  obtain hstay | hcarry : n % 2 ^ 31 + 1 < 2 ^ 31 ∨ n % 2 ^ 31 + 1 = 2 ^ 31 := by omega
  · have hexp : (n + 1) / 2 ^ 31 = n / 2 ^ 31 := by omega
    rw [hexp]
    exact mul_lt_mul_of_pos_right (Nat.cast_lt.mpr (by omega)) (by positivity)
  · have hexp : (((n + 1) / 2 ^ 31 : ℕ) - 151 : ℤ) = (n / 2 ^ 31 : ℕ) - 151 + 1 := by omega
    have hfrac : (n + 1) % 2 ^ 31 = 0 := by omega
    have hsig : ((2 ^ 31 + n % 2 ^ 31 : ℕ) : ℚ) < (2 ^ 31 + 0 : ℕ) * 2 := by
      exact_mod_cast (by omega : 2 ^ 31 + n % 2 ^ 31 < (2 ^ 31 + 0) * 2)
    rw [hexp, hfrac, zpow_add_one₀ two_ne_zero, mul_comm _ (2 : ℚ), ← mul_assoc]
    exact mul_lt_mul_of_pos_right hsig (by positivity)

theorem rankVal_strictMono : StrictMono rankVal := strictMono_nat_of_lt_succ rankVal_lt_succ

theorem PUnpacked.abs_val (u : PUnpacked) : |u.val| = u.sig.toNat * 2 ^ (u.exp - 31) := by
  rw [PUnpacked.val, mul_assoc, abs_mul, abs_sgn, one_mul, abs_of_nonneg (by positivity)]

theorem PUnpacked.val_eq_sgn_mul_abs (u : PUnpacked) : u.val = sgn u.s * |u.val| := by
  rw [u.abs_val, PUnpacked.val, mul_assoc]

theorem PUnpacked.InRange.abs_val_eq_rankVal {u : PUnpacked} (h : u.InRange) : |u.val| = rankVal u.rank := by
  have hexp : ((u.rank / 2 ^ 31 : ℕ) - 151 : ℤ) = u.exp - 31 := by
    have := h.exp_eq
    omega
  have hsig : 2 ^ 31 + u.rank % 2 ^ 31 = u.sig.toNat := by
    have := toNat_mod_of_msb h.msb
    unfold PUnpacked.rank
    omega
  rw [rankVal, hexp, hsig, u.abs_val]

/-! ### Values and magnitudes of Finite posits -/

theorem pval_of_finite {p : Word} (h : pclass p = .finite) : pval p = (pdecode p).val :=
  if_neg (pclass_eq_finite.mp h).1

theorem abs_pval {p : Word} (h : pclass p = .finite) : |pval p| = rankVal (pdecode p).rank := by
  rw [pval_of_finite h, (pdecode_inRange h).abs_val_eq_rankVal]

theorem abs_pval_pos {p : Word} (h : pclass p = .finite) : 0 < |pval p| := by
  rw [abs_pval h]
  exact rankVal_pos _

theorem pval_eq_sgn_mul_abs {p : Word} (h : pclass p = .finite) : pval p = sgn (signOf p) * |pval p| := by
  rw [pval_of_finite h]
  exact (pdecode p).val_eq_sgn_mul_abs

/-- A Finite posit's rank against any rank in range, by their magnitudes. -/
theorem rank_pdecode_le_iff {p : Word} (h : pclass p = .finite) {n : ℕ} (hn : n / 2 ^ 33 ≤ 60) :
    (pdecode p).rank ≤ n ↔ pordinal p ≤ truncRank n := by
  obtain ⟨j, hj, rest, hrest, hp⟩ := exists_block h
  rw [rank_pdecode_of_block hj hrest hp, hp, le_truncRank_iff hj hrest hn]

/-- The values of the Finite posits are ordered as their magnitude bits. -/
theorem abs_pval_le_iff {p q : Word} (hp : pclass p = .finite) (hq : pclass q = .finite) :
    |pval p| ≤ |pval q| ↔ pordinal p ≤ pordinal q := by
  rw [abs_pval hp, abs_pval hq, rankVal_strictMono.le_iff_le, rank_pdecode_le_iff hp (pdecode_inRange hq).rank_div_le,
    truncRank_rank_pdecode hq]

theorem abs_pval_le_abs_val_iff {p : Word} (hp : pclass p = .finite) {u : PUnpacked} (hu : u.InRange) :
    |pval p| ≤ |u.val| ↔ pordinal p ≤ truncRank u.rank := by
  rw [abs_pval hp, hu.abs_val_eq_rankVal, rankVal_strictMono.le_iff_le, rank_pdecode_le_iff hp hu.rank_div_le]

/-! ### Truncation (43_posit_core.md R166) -/

/-- An in-range encode is Finite, keeps the sign, and its magnitude is the largest that is not above. -/
theorem isTruncation_pencode {u : PUnpacked} (hu : u.InRange) : IsTruncation u.val (pencode u.s u.exp u.sig) := by
  have hfin := pclass_pencode hu
  have hord := pordinal_pencode hu
  refine ⟨hfin, ?_, ?_, fun q hq hle => ?_⟩
  · have hsgn : sgn u.s * sgn u.s = 1 := by cases u.s <;> norm_num [sgn]
    have hval : 0 < |u.val| := by
      rw [hu.abs_val_eq_rankVal]
      exact rankVal_pos _
    rw [pval_eq_sgn_mul_abs hfin, signOf_pencode hu, u.val_eq_sgn_mul_abs, mul_mul_mul_comm, hsgn, one_mul]
    exact mul_pos (abs_pval_pos hfin) hval
  · rw [abs_pval_le_abs_val_iff hfin hu, hord]
  · rwa [abs_pval_le_iff hq hfin, hord, ← abs_pval_le_abs_val_iff hq hu]

/-- Settles O44: the two saturations, and the truncation of an in-range encode. -/
theorem positEncodeTruncatesTowardZero : Obligations.PositEncodeTruncatesTowardZero := by
  unfold Obligations.PositEncodeTruncatesTowardZero
  exact fun s e m hm =>
    ⟨pencode_of_gt, pencode_of_lt, fun hmin hmax => isTruncation_pencode (u := ⟨s, e, m⟩) ⟨hmin, hmax, hm⟩⟩

/-! ### Order (43_posit_core.md R169) -/

theorem toInt_of_finite {p : Word} (h : pclass p = .finite) :
    p.toInt = if signOf p then -(pordinal p : ℤ) else pordinal p := by
  rw [pordinal, ← toInt_neg32_ite (signOf p) ((pclass_finite_iff p).mp h).2, neg32_ite_pmag]

/-- Settles O46: the order of the magnitudes, reversed under a negative sign. -/
theorem positOrderIsIntegerOrder : Obligations.PositOrderIsIntegerOrder := by
  unfold Obligations.PositOrderIsIntegerOrder
  intro p q hp hq h
  have hpos := ((pclass_finite_iff p).mp hp).1
  have hppos := abs_pval_pos hp
  have hqpos := abs_pval_pos hq
  rw [toInt_of_finite hp, toInt_of_finite hq] at h
  rw [pval_eq_sgn_mul_abs hp, pval_eq_sgn_mul_abs hq]
  cases hsp : signOf p <;> cases hsq : signOf q <;>
    simp only [hsp, hsq, Bool.false_eq_true, if_true, if_false, sgn, one_mul, neg_one_mul] at h ⊢
  · have := (abs_pval_le_iff hq hp).not.mpr (by omega)
    linarith
  · omega
  · linarith
  · have := (abs_pval_le_iff hp hq).not.mpr (by omega)
    linarith

end Sys2Proof.Machine
end

section
/-! PROOFS. The statements of spec/43_posit_core.md section 3: the short-circuit tables (R170 to R172) through PADD, PMUL
and PDIV. -/

namespace Sys2Proof.Machine

@[simp] theorem pclass_pZero : pclass pZero = .zero := rfl
@[simp] theorem pclass_pNaR : pclass pNaR = .nar := rfl

/-- The three classes (43_posit_core.md R161). -/
theorem posit_cases (p : Word) : p = pZero ∨ p = pNaR ∨ pclass p = .finite := by
  rw [pclass_eq_finite]
  tauto

theorem eq_pZero_or_finite {p : Word} (h : p ≠ pNaR) : p = pZero ∨ pclass p = .finite :=
  (posit_cases p).imp_right (Or.resolve_left · h)

theorem eq_pNaR_or_finite {p : Word} (h : p ≠ pZero) : p = pNaR ∨ pclass p = .finite :=
  (posit_cases p).resolve_left h

/-! ### A cell of a short-circuit table as a completed command (60_exceptions.md R220, R221) -/

theorem completes_of_pvalid {i : Instr} {s : State} {t : Word}
    (h : resultOf s.cfg i = (PResult.valid t).toResult) : Completes i s (zext64 t) false := by
  have hdone := completes_of_valid (i := i) (s := s) (by rw [h]; rfl)
  rwa [h] at hdone

theorem completes_of_invalidNaR {i : Instr} {s : State} (hoff : s.cfg.trapOnInvalid = false)
    (h : resultOf s.cfg i = PResult.invalidNaR.toResult) : Completes i s 0x80000000#64 true := by
  have hdone := completes_of_silent (i := i) hoff
  rwa [h] at hdone

theorem resultOf_padd_of_special {c : Config} {a : DWord} {b : Word} {t : PResult}
    (h : pspecialAdd (operandA a) b = some t) : resultOf c (.padd a b) = t.toResult := by
  simp only [resultOf, operandB, pAdd, h]

theorem resultOf_pmul_of_special {c : Config} {a : DWord} {b : Word} {t : PResult}
    (h : pspecialMul (operandA a) b = some t) : resultOf c (.pmul a b) = t.toResult := by
  simp only [resultOf, operandB, pMul, h]

theorem resultOf_pdiv_of_special {c : Config} {a : DWord} {b : Word} {t : PResult}
    (h : pspecialDiv (operandA a) b = some t) : resultOf c (.pdiv a b) = t.toResult := by
  simp only [resultOf, operandB, pDiv, h]

/-! ### The addition table (43_posit_core.md R170) -/

theorem pspecialAdd_zero_left (y : Word) : pspecialAdd pZero y = some (.valid y) := by
  obtain rfl | rfl | hy := posit_cases y
  · rfl
  · rfl
  · simp [pspecialAdd, hy]

theorem pspecialAdd_zero_right (x : Word) : pspecialAdd x pZero = some (.valid x) := by
  rw [pspecialAdd_comm, pspecialAdd_zero_left]

theorem pspecialAdd_nar {x y : Word} (h : x = pNaR ∧ pclass y = .finite ∨ pclass x = .finite ∧ y = pNaR) :
    pspecialAdd x y = some (.valid pNaR) := by
  obtain ⟨rfl, hy⟩ | ⟨hx, rfl⟩ := h
  · simp [pspecialAdd, hy]
  · simp [pspecialAdd, hx]

theorem pspecialAdd_invalid {x y : Word} (hx : x = pNaR) (hy : y = pNaR) : pspecialAdd x y = some .invalidNaR := by
  rw [hx, hy]
  rfl

/-! ### The multiplication table (43_posit_core.md R171) -/

theorem pspecialMul_zero_left {y : Word} (hy : y ≠ pNaR) : pspecialMul pZero y = some (.valid pZero) := by
  obtain rfl | hy := eq_pZero_or_finite hy
  · rfl
  · simp [pspecialMul, hy]

theorem pspecialMul_nar_left {y : Word} (hy : y ≠ pZero) : pspecialMul pNaR y = some (.valid pNaR) := by
  obtain rfl | hy := eq_pNaR_or_finite hy
  · rfl
  · simp [pspecialMul, hy]

theorem pspecialMul_zero {x y : Word} (h : x = pZero ∧ y ≠ pNaR ∨ x ≠ pNaR ∧ y = pZero) :
    pspecialMul x y = some (.valid pZero) := by
  obtain ⟨rfl, hy⟩ | ⟨hx, rfl⟩ := h
  · exact pspecialMul_zero_left hy
  · rw [pspecialMul_comm, pspecialMul_zero_left hx]

theorem pspecialMul_nar {x y : Word} (h : x = pNaR ∧ y ≠ pZero ∨ x ≠ pZero ∧ y = pNaR) :
    pspecialMul x y = some (.valid pNaR) := by
  obtain ⟨rfl, hy⟩ | ⟨hx, rfl⟩ := h
  · exact pspecialMul_nar_left hy
  · rw [pspecialMul_comm, pspecialMul_nar_left hx]

theorem pspecialMul_invalid {x y : Word} (h : x = pNaR ∧ y = pZero ∨ x = pZero ∧ y = pNaR) :
    pspecialMul x y = some .invalidNaR := by
  obtain ⟨rfl, rfl⟩ | ⟨rfl, rfl⟩ := h <;> rfl

/-! ### The division table (43_posit_core.md R172) -/

theorem pspecialDiv_zero {x y : Word} (h : x = pZero ∧ y ≠ pZero ∨ pclass x = .finite ∧ y = pNaR) :
    pspecialDiv x y = some (.valid pZero) := by
  obtain ⟨rfl, hy⟩ | ⟨hx, rfl⟩ := h
  · obtain rfl | hy := eq_pNaR_or_finite hy
    · rfl
    · simp [pspecialDiv, hy]
  · simp [pspecialDiv, hx]

theorem pspecialDiv_nar {x y : Word} (h : x = pNaR ∧ y ≠ pNaR ∨ pclass x = .finite ∧ y = pZero) :
    pspecialDiv x y = some (.valid pNaR) := by
  obtain ⟨rfl, hy⟩ | ⟨hx, rfl⟩ := h
  · obtain rfl | hy := eq_pZero_or_finite hy
    · rfl
    · simp [pspecialDiv, hy]
  · simp [pspecialDiv, hx]

theorem pspecialDiv_invalid {x y : Word} (h : x = pZero ∧ y = pZero ∨ x = pNaR ∧ y = pNaR) :
    pspecialDiv x y = some .invalidNaR := by
  obtain ⟨rfl, rfl⟩ | ⟨rfl, rfl⟩ := h <;> rfl

/-- Settles O47: table by table, an invalid cell completing with INV = 1 and every other cell with INV = 0. -/
theorem positShortCircuitTables : Obligations.PositShortCircuitTables := by
  unfold Obligations.PositShortCircuitTables
  intro a b s x y
  have hadd {t : Word} (h : pspecialAdd x y = some (.valid t)) : Completes (.padd a b) s (zext64 t) false :=
    completes_of_pvalid (resultOf_padd_of_special h)
  have hmul {t : Word} (h : pspecialMul x y = some (.valid t)) : Completes (.pmul a b) s (zext64 t) false :=
    completes_of_pvalid (resultOf_pmul_of_special h)
  have hdiv {t : Word} (h : pspecialDiv x y = some (.valid t)) : Completes (.pdiv a b) s (zext64 t) false :=
    completes_of_pvalid (resultOf_pdiv_of_special h)
  refine ⟨fun hx => hadd ?_, fun hy => hadd ?_, fun h => hadd (pspecialAdd_nar h), fun hx hy hoff => ?_,
    fun h => hmul (pspecialMul_zero h), fun h => hmul (pspecialMul_nar h), fun h hoff => ?_,
    fun hx hy => hdiv (pspecialDiv_zero (.inl ⟨hx, hy⟩)), fun hx hy => hdiv (pspecialDiv_zero (.inr ⟨hx, hy⟩)),
    fun hx hy => hdiv (pspecialDiv_nar (.inl ⟨hx, hy⟩)), fun hx hy => hdiv (pspecialDiv_nar (.inr ⟨hx, hy⟩)),
    fun h hoff => ?_, fun hx hy => ?_⟩
  · rw [hx, pspecialAdd_zero_left]
  · rw [hy, pspecialAdd_zero_right]
  · exact completes_of_invalidNaR hoff (resultOf_padd_of_special (pspecialAdd_invalid hx hy))
  · exact completes_of_invalidNaR hoff (resultOf_pmul_of_special (pspecialMul_invalid h))
  · exact completes_of_invalidNaR hoff (resultOf_pdiv_of_special (pspecialDiv_invalid h))
  · exact ⟨pspecialAdd_eq_none.mpr ⟨hx, hy⟩, pspecialMul_eq_none.mpr ⟨hx, hy⟩, pspecialDiv_eq_none.mpr ⟨hx, hy⟩⟩

end Sys2Proof.Machine
end

section
/-! PROOFS. The posit grid (spec/44_posit_ops.md, introduction; spec/43_posit_core.md R166): an encode delivers every
rational whose leading bits it is given, since no Finite posit has a fraction bit beyond them. -/

namespace Sys2Proof.Machine

/-! ### A significand's binade -/

/-- A power of two split at a natural exponent. -/
theorem two_zpow_of_eq_add {a b : ℤ} {k : ℕ} (h : a = k + b) : (2 : ℚ) ^ a = 2 ^ k * 2 ^ b := by
  rw [h, zpow_add₀ two_ne_zero, zpow_natCast]

/-- A significand of 32 bits at exponent e lies in [2^e, 2^(e + 1)). -/
theorem two_zpow_le_scaled_iff {x : ℚ} (hlo : 2 ^ 31 ≤ x) (hhi : x < 2 ^ 32) (k e : ℤ) :
    2 ^ k ≤ x * 2 ^ (e - 31) ↔ k ≤ e := by
  have hpow : (0 : ℚ) < 2 ^ (e - 31) := by positivity
  constructor
  · intro hle
    by_contra hlt
    have hbelow : x * 2 ^ (e - 31) < 2 ^ (e + 1) := by
      calc x * 2 ^ (e - 31) < 2 ^ 32 * 2 ^ (e - 31) := mul_lt_mul_of_pos_right hhi hpow
        _ = 2 ^ (e + 1) := (two_zpow_of_eq_add (by push_cast; ring)).symm
    exact hle.not_gt (hbelow.trans_le (zpow_le_zpow_right₀ one_le_two (by omega)))
  · intro hke
    calc (2 : ℚ) ^ k ≤ 2 ^ e := zpow_le_zpow_right₀ one_le_two hke
      _ = 2 ^ 31 * 2 ^ (e - 31) := two_zpow_of_eq_add (by push_cast; ring)
      _ ≤ x * 2 ^ (e - 31) := mul_le_mul_of_nonneg_right hlo hpow.le

theorem PUnpacked.two_zpow_le_abs_val_iff {u : PUnpacked} (hm : u.sig.msb = true) (k : ℤ) :
    2 ^ k ≤ |u.val| ↔ k ≤ u.exp := by
  have hlo : (2 ^ 31 : ℚ) ≤ u.sig.toNat := by exact_mod_cast BitVec.le_toNat_of_msb_true hm
  have hhi : (u.sig.toNat : ℚ) < 2 ^ 32 := by exact_mod_cast u.sig.isLt
  rw [u.abs_val, two_zpow_le_scaled_iff hlo hhi]

theorem two_zpow_le_abs_pval_iff {p : Word} (h : pclass p = .finite) (k : ℤ) :
    2 ^ k ≤ |pval p| ↔ k ≤ (pdecode p).exp := by
  rw [pval_of_finite h, PUnpacked.two_zpow_le_abs_val_iff (pdecode_inRange h).msb]

@[simp] theorem pval_pZero : pval pZero = 0 := if_pos rfl

/-! ### The rank above a run of fraction bits -/

/-- A significand that carries starts the next exponent. -/
theorem rankVal_of_significand (i : ℕ) {f : ℕ} (hf : f ≤ 2 ^ 31) :
    rankVal (i * 2 ^ 31 + f) = (2 ^ 31 + f : ℕ) * 2 ^ (i - 151 : ℤ) := by
  unfold rankVal
  obtain hlt | rfl := hf.lt_or_eq
  · have hexp : (i * 2 ^ 31 + f) / 2 ^ 31 = i := by omega
    have hfrac : (i * 2 ^ 31 + f) % 2 ^ 31 = f := by omega
    rw [hexp, hfrac]
  · have hexp : (((i * 2 ^ 31 + 2 ^ 31) / 2 ^ 31 : ℕ) : ℤ) - 151 = i - 151 + 1 := by omega
    have hfrac : (i * 2 ^ 31 + 2 ^ 31) % 2 ^ 31 = 0 := by omega
    rw [hexp, hfrac, zpow_add_one₀ two_ne_zero]
    push_cast
    ring

/-- R165: the low four significand bits of a decode are clear, the lowest among them. -/
theorem two_dvd_sig_pdecode {p : Word} (h : pclass p = .finite) : 2 ∣ (pdecode p).sig.toNat := by
  obtain ⟨-, -, -, hlow, -⟩ := decodedPositIsInRange p h
  have hnat := congrArg BitVec.toNat hlow
  rw [BitVec.extractLsb'_toNat, Nat.shiftRight_zero, BitVec.toNat_ofNat] at hnat
  omega

theorem two_dvd_rank_pdecode {p : Word} (h : pclass p = .finite) : 2 ∣ (pdecode p).rank := by
  have := two_dvd_sig_pdecode h
  unfold PUnpacked.rank
  omega

/-! ### Encodes on the posit grid (43_posit_core.md R166) -/

/-- A Finite posit not above a magnitude x 2^(e - 31) is not above its encode's operand, when x agrees with the
significand in all but the lowest bit. -/
theorem abs_pval_le_abs_val {u : PUnpacked} (hu : u.InRange) {q : Word} (hq : pclass q = .finite) {x : ℚ}
    (hx : x < (2 * (u.sig.toNat / 2 + 1) : ℕ)) (hle : |pval q| ≤ x * 2 ^ (u.exp - 31)) : |pval q| ≤ |u.val| := by
  have hmsb := toNat_mod_of_msb hu.msb
  have hexp : u.exp - 31 = (u.exp + 120).toNat - 151 := by
    have := hu.minExp_le
    omega
  have hnext : 2 * (u.sig.toNat / 2 + 1) = 2 ^ 31 + 2 * (u.sig.toNat % 2 ^ 31 / 2 + 1) := by omega
  have hlt : |pval q| < rankVal ((u.exp + 120).toNat * 2 ^ 31 + 2 * (u.sig.toNat % 2 ^ 31 / 2 + 1)) := by
    rw [rankVal_of_significand _ (by omega), ← hnext, ← hexp]
    exact hle.trans_lt (mul_lt_mul_of_pos_right hx (by positivity))
  rw [abs_pval hq, rankVal_strictMono.lt_iff_lt] at hlt
  rw [abs_pval hq, hu.abs_val_eq_rankVal, rankVal_strictMono.le_iff_le]
  have heven := two_dvd_rank_pdecode hq
  unfold PUnpacked.rank at *
  omega

/-- An encode gives on the posit grid every rational that its operand is the leading bits of, up to the lowest one. -/
theorem isPositOf_pencode (s : Bool) (e : ℤ) {m : Word} (hm : m.msb = true) {x : ℚ} (hlo : m.toNat ≤ x)
    (hhi : x < (2 * (m.toNat / 2 + 1) : ℕ)) : IsPositOf (sgn s * (x * 2 ^ (e - 31))) (pencode s e m) := by
  have hmlo : (2 ^ 31 : ℚ) ≤ m.toNat := by exact_mod_cast BitVec.le_toNat_of_msb_true hm
  have hxhi : x < 2 ^ 32 := by
    have : 2 * (m.toNat / 2 + 1) ≤ 2 ^ 32 := by omega
    exact hhi.trans_le (by exact_mod_cast this)
  have hxpos : 0 < x := lt_of_lt_of_le (by norm_num) (hmlo.trans hlo)
  have habs : |sgn s * (x * 2 ^ (e - 31))| = x * 2 ^ (e - 31) := by
    rw [abs_mul, abs_sgn, one_mul, abs_of_pos (by positivity)]
  have hbinade := two_zpow_le_scaled_iff (hmlo.trans hlo) hxhi
  have hover : 2 ^ 121 ≤ x * 2 ^ (e - 31) ↔ 121 ≤ e := by exact_mod_cast hbinade 121 e
  unfold IsPositOf
  rw [habs]
  split_ifs with hgt hlt
  · exact pencode_of_gt (by have := hover.mp hgt; omega)
  · exact pencode_of_lt (not_le.mp fun hge => hlt.not_ge ((hbinade _ e).mpr hge))
  · have hmin := (hbinade _ e).mp (not_lt.mp hlt)
    have hmax := hover.not.mp hgt
    have hu : PUnpacked.InRange ⟨s, e, m⟩ := ⟨hmin, by dsimp only; omega, hm⟩
    obtain ⟨hfin, hsign, hle, hlargest⟩ := isTruncation_pencode hu
    refine ⟨hfin, ?_, ?_, fun q hq hqle => hlargest q hq ?_⟩
    · rw [PUnpacked.val, mul_assoc (sgn s), ← mul_assoc, mul_pos_iff_of_pos_right (by positivity)] at hsign
      rw [← mul_assoc]
      exact mul_pos hsign (by positivity)
    · rw [PUnpacked.abs_val] at hle
      rw [habs]
      exact hle.trans (mul_le_mul_of_nonneg_right hlo (by positivity))
    · rw [habs] at hqle
      exact abs_pval_le_abs_val hu hq hhi hqle

/-- An encode of an unpacked posit of any exponent gives its value. -/
theorem isPositOf_pencode_val {u : PUnpacked} (hm : u.sig.msb = true) : IsPositOf u.val (pencode u.s u.exp u.sig) := by
  have hhi : u.sig.toNat < 2 * (u.sig.toNat / 2 + 1) := by omega
  rw [PUnpacked.val, mul_assoc]
  exact isPositOf_pencode u.s u.exp hm le_rfl (by exact_mod_cast hhi)

/-! ### Encodes of a truncated magnitude -/

/-- An encode of a magnitude's integer part gives the magnitude. -/
theorem isPositOf_pencode_floor (s : Bool) (e : ℤ) {m : Word} (hm : m.msb = true) {x : ℚ} (hx : 0 ≤ x)
    (hfloor : m.toNat = ⌊x⌋₊) : IsPositOf (sgn s * (x * 2 ^ (e - 31))) (pencode s e m) := by
  refine isPositOf_pencode s e hm (hfloor ▸ Nat.floor_le hx) ?_
  have hnext : m.toNat + 1 ≤ 2 * (m.toNat / 2 + 1) := by omega
  calc x < m.toNat + 1 := hfloor ▸ Nat.lt_floor_add_one x
    _ ≤ (2 * (m.toNat / 2 + 1) : ℕ) := by exact_mod_cast hnext

/-- One bit less: the integer part shifted left leaves only the lowest bit open. -/
theorem isPositOf_pencode_floor_shl (s : Bool) (e : ℤ) {m : Word} (hm : m.msb = false) (hlo : 2 ^ 30 ≤ m.toNat)
    {x : ℚ} (hx : 0 ≤ x) (hfloor : m.toNat = ⌊x⌋₊) :
    IsPositOf (sgn s * (x * 2 ^ (e - 31))) (pencode s (e - 1) (shl m 1)) := by
  have hhi : 2 * m.toNat < 2 ^ 32 := BitVec.msb_eq_false_iff_two_mul_lt.mp hm
  have hshl : (shl m 1).toNat = 2 * m.toNat := by
    rw [shl_toNat]
    omega
  have hmsb : (shl m 1).msb = true := BitVec.msb_eq_true_iff_two_mul_ge.mpr (by omega)
  have hscale : x * 2 ^ (e - 31) = 2 * x * 2 ^ (e - 1 - 31) := by
    rw [two_zpow_of_eq_add (k := 1) (b := e - 1 - 31) (by push_cast; ring)]
    ring
  have hbelow : (m.toNat : ℚ) ≤ x := hfloor ▸ Nat.floor_le hx
  have habove : x < m.toNat + 1 := hfloor ▸ Nat.lt_floor_add_one x
  rw [hscale]
  refine isPositOf_pencode s (e - 1) hmsb ?_ ?_
  · rw [hshl]
    push_cast
    linarith
  · rw [hshl, Nat.mul_div_cancel_left _ two_pos]
    push_cast
    linarith

/-- The two ends of the addition and the division kernel: an integer part of 31 or 32 bits. -/
theorem isPositOf_normalised_floor (s : Bool) (e : ℤ) {m : Word} (hlo : 2 ^ 30 ≤ m.toNat) {x : ℚ} (hx : 0 ≤ x)
    (hfloor : m.toNat = ⌊x⌋₊) :
    IsPositOf (sgn s * (x * 2 ^ (e - 31))) (if m.msb then pencode s e m else pencode s (e - 1) (shl m 1)) := by
  split_ifs with hm
  · exact isPositOf_pencode_floor s e hm hx hfloor
  · exact isPositOf_pencode_floor_shl s e (Bool.eq_false_iff.mpr hm) hlo hx hfloor

/-! ### Left-justified integers -/

theorem toNat_shl_lzc32 {m : Word} (hm : m ≠ 0#32) : (shl m (lzc32 m)).toNat = m.toNat * 2 ^ lzc32 m := by
  have hlog := lzc32_add_log2 hm
  have hne : m.toNat ≠ 0 := BitVec.toNat_ne.mp hm
  have hlt : m.toNat * 2 ^ lzc32 m < 2 ^ 32 := by
    calc m.toNat * 2 ^ lzc32 m < 2 ^ (m.toNat.log2 + 1) * 2 ^ lzc32 m :=
          Nat.mul_lt_mul_of_pos_right Nat.lt_log2_self (Nat.two_pow_pos _)
      _ = 2 ^ 32 := by rw [← pow_add]; congr 1; omega
  rw [shl_toNat, Nat.mod_eq_of_lt hlt]

theorem msb_shl_lzc32 {m : Word} (hm : m ≠ 0#32) : (shl m (lzc32 m)).msb = true := by
  have hlog := lzc32_add_log2 hm
  have hne : m.toNat ≠ 0 := BitVec.toNat_ne.mp hm
  have hge : 2 ^ 31 ≤ m.toNat * 2 ^ lzc32 m := by
    calc 2 ^ 31 = 2 ^ m.toNat.log2 * 2 ^ lzc32 m := by rw [← pow_add]; congr 1; omega
      _ ≤ m.toNat * 2 ^ lzc32 m := Nat.mul_le_mul_right _ (Nat.log2_self_le hne)
  exact BitVec.msb_eq_true_iff_two_mul_ge.mpr (by rw [toNat_shl_lzc32 hm]; omega)

/-- Left-justifying keeps the value when the exponent is lowered by the shift. -/
theorem val_shl_lzc32 (s : Bool) (e : ℤ) {m : Word} (hm : m ≠ 0#32) :
    PUnpacked.val ⟨s, e - lzc32 m, shl m (lzc32 m)⟩ = sgn s * (m.toNat * 2 ^ (e - 31)) := by
  have hpow : (2 : ℚ) ^ (e - 31) = 2 ^ lzc32 m * 2 ^ (e - lzc32 m - 31) := two_zpow_of_eq_add (by ring)
  rw [PUnpacked.val, toNat_shl_lzc32 hm, hpow]
  push_cast
  ring

end Sys2Proof.Machine
end

section
/-! PROOFS. The statements of spec/44_posit_ops.md R180 to R183: PADD, PSUB, PMUL and PDIV of two Finite posits. -/

namespace Sys2Proof.Machine

/-! ### Signs -/

theorem sgn_ne_zero (s : Bool) : sgn s ≠ 0 := by
  cases s <;> norm_num [sgn]

theorem sgn_xor (s t : Bool) : sgn (xor s t) = sgn s * sgn t := by
  cases s <;> cases t <;> norm_num [sgn]

theorem sgn_div_sgn (s t : Bool) : sgn s / sgn t = sgn (xor s t) := by
  cases s <;> cases t <;> norm_num [sgn]

/-! ### PADD, same signs (44_posit_ops.md R180) -/

/-- With the low bit of the larger operand clear, the sum of the two truncated halves is the truncated half sum. -/
theorem isPositOf_paddSame {u v : PUnpacked} (hu : u.sig.msb = true) (heven : 2 ∣ u.sig.toNat)
    (hexp : v.exp ≤ u.exp) (hs : u.s = v.s) : IsPositOf (u.val + v.val) (paddSame u v) := by
  obtain ⟨d, hd⟩ := Int.eq_ofNat_of_zero_le (sub_nonneg.mpr hexp)
  obtain ⟨k, hk⟩ := heven
  have hlo := BitVec.le_toNat_of_msb_true hu
  have hvhalf : v.sig.toNat / 2 ^ (d + 1) ≤ v.sig.toNat / 2 :=
    Nat.div_le_div_left (Nat.le_self_pow (Nat.succ_ne_zero d) 2) two_pos
  have hsum : (shr u.sig 1 + shr v.sig (d + 1)).toNat = k + v.sig.toNat / 2 ^ (d + 1) := by
    rw [BitVec.toNat_add, shr_toNat, shr_toNat, hk]
    generalize v.sig.toNat / 2 ^ (d + 1) = w at hvhalf ⊢
    omega
  have hfloor : k + v.sig.toNat / 2 ^ (d + 1) = ⌊(v.sig.toNat : ℚ) / (2 ^ (d + 1) : ℕ) + k⌋₊ := by
    rw [Nat.floor_add_natCast (by positivity), Nat.floor_div_eq_div, Nat.add_comm]
  have hval : u.val + v.val = sgn u.s * (((v.sig.toNat : ℚ) / (2 ^ (d + 1) : ℕ) + k) * 2 ^ (u.exp + 1 - 31)) := by
    have hpow : (2 : ℚ) ^ (u.exp - 31) = 2 ^ d * 2 ^ (v.exp - 31) := two_zpow_of_eq_add (by omega)
    have hcarry : (2 : ℚ) ^ (u.exp + 1 - 31) = 2 ^ (d + 1) * 2 ^ (v.exp - 31) := two_zpow_of_eq_add (by omega)
    rw [PUnpacked.val, PUnpacked.val, ← hs, hk, hpow, hcarry]
    push_cast
    field_simp
    ring
  have hend := isPositOf_normalised_floor u.s (u.exp + 1) (m := shr u.sig 1 + shr v.sig (d + 1))
    (hsum ▸ le_add_right (by omega)) (by positivity) (hsum.trans hfloor)
  rw [← hval, add_sub_cancel_right] at hend
  unfold paddSame
  rw [hd]
  exact hend

theorem isPositOf_paddKernel {u v : PUnpacked} (hu : u.sig.msb = true) (hv : v.sig.msb = true)
    (hueven : 2 ∣ u.sig.toNat) (hveven : 2 ∣ v.sig.toNat) (hs : u.s = v.s) :
    IsPositOf (u.val + v.val) (paddKernel u v) := by
  unfold paddKernel
  dsimp only
  by_cases h : u.exp < v.exp
  · rw [if_pos h, if_pos h, if_pos hs.symm, add_comm]
    exact isPositOf_paddSame hv hveven h.le hs.symm
  · rw [if_neg h, if_neg h, if_pos hs]
    exact isPositOf_paddSame hu hueven (not_lt.mp h) hs

/-! ### PADD, different signs (44_posit_ops.md R180) -/

/-- The rational that the subtraction of the aligned operand computes. -/
def PUnpacked.alignedDiff (u v : PUnpacked) : ℚ :=
  sgn u.s * ((u.sig.toNat : ℚ) - (v.sig.toNat / 2 ^ (u.exp - v.exp).toNat : ℕ)) * 2 ^ (u.exp - 31)

theorem sgn_of_ne {s t : Bool} (h : s ≠ t) : sgn t = -sgn s := by
  rw [← Bool.not_eq.mpr h.symm]
  cases t <;> norm_num [sgn]

/-- The kernel's sign and difference are the rational's; a nonzero difference is left-justified and encoded. -/
theorem paddDiff_spec {u v : PUnpacked} (hs : u.s ≠ v.s) :
    (u.alignedDiff v = 0 → paddDiff u v = pZero) ∧
      (u.alignedDiff v ≠ 0 → IsPositOf (u.alignedDiff v) (paddDiff u v)) := by
  unfold paddDiff
  extract_lets d m s diff lz
  have hm : m.toNat = v.sig.toNat / 2 ^ d := shr_toNat _ _
  have hval : u.alignedDiff v = sgn s * (diff.toNat * 2 ^ (u.exp - 31)) := by
    rw [PUnpacked.alignedDiff, ← hm, ← mul_assoc]
    congr 1
    obtain hle | hlt := le_or_gt m.toNat u.sig.toNat
    · simp only [s, diff, if_pos hle, BitVec.toNat_sub_of_le hle, Nat.cast_sub hle]
    · simp only [s, diff, if_neg hlt.not_ge, BitVec.toNat_sub_of_le hlt.le, Nat.cast_sub hlt.le, sgn_of_ne hs]
      ring
  rw [hval]
  split_ifs with hzero
  · simp [hzero]
  · refine ⟨fun h => absurd h ?_, fun _ => ?_⟩
    · have hdiff : (diff.toNat : ℚ) ≠ 0 := Nat.cast_ne_zero.mpr (BitVec.toNat_ne.mp hzero)
      exact mul_ne_zero (sgn_ne_zero s) (mul_ne_zero hdiff (zpow_ne_zero _ two_ne_zero))
    · rw [← val_shl_lzc32 s u.exp hzero]
      exact isPositOf_pencode_val (msb_shl_lzc32 hzero)

/-! ### PMUL (44_posit_ops.md R182) -/

theorem PUnpacked.val_mul_val (u v : PUnpacked) :
    u.val * v.val = sgn (xor u.s v.s) * ((u.sig.toNat * v.sig.toNat : ℕ) * 2 ^ (u.exp + v.exp - 62)) := by
  have hexp : u.exp + v.exp - 62 = (u.exp - 31) + (v.exp - 31) := by ring
  rw [PUnpacked.val, PUnpacked.val, sgn_xor, hexp, zpow_add₀ two_ne_zero]
  push_cast
  ring

/-- Bits k to k + 31 of a product below 2^(k + 32). -/
theorem toNat_extractLsb'_of_lt {p : DWord} {k : ℕ} (h : p.toNat < 2 ^ (k + 32)) :
    (p.extractLsb' k 32).toNat = p.toNat / 2 ^ k := by
  rw [BitVec.extractLsb'_toNat, Nat.shiftRight_eq_div_pow, Nat.mod_eq_of_lt]
  rwa [Nat.div_lt_iff_lt_mul (Nat.two_pow_pos _), ← pow_add, add_comm]

/-- Encoding the 32 leading bits of a product gives the product. -/
theorem isPositOf_pencode_extract (s : Bool) (e : ℤ) {p : DWord} {k : ℕ} (hlo : 2 ^ (k + 31) ≤ p.toNat)
    (hhi : p.toNat < 2 ^ (k + 32)) :
    IsPositOf (sgn s * (p.toNat * 2 ^ (e - 31 - k))) (pencode s e (p.extractLsb' k 32)) := by
  have hbits := toNat_extractLsb'_of_lt hhi
  have hmsb : (p.extractLsb' k 32).msb = true := by
    rw [BitVec.msb_eq_true_iff_two_mul_ge, hbits]
    have htop : 2 ^ 31 ≤ p.toNat / 2 ^ k := by
      rw [Nat.le_div_iff_mul_le (Nat.two_pow_pos _), ← Nat.pow_add, Nat.add_comm]
      exact hlo
    exact Nat.mul_le_mul_left 2 htop
  have hfloor : (p.extractLsb' k 32).toNat = ⌊(p.toNat : ℚ) / (2 ^ k : ℕ)⌋₊ := by
    rw [hbits, Nat.floor_div_eq_div]
  have hend := isPositOf_pencode_floor s e hmsb (div_nonneg p.toNat.cast_nonneg (2 ^ k).cast_nonneg) hfloor
  have hscale : ((p.toNat : ℚ) / (2 ^ k : ℕ)) * 2 ^ (e - 31) = p.toNat * 2 ^ (e - 31 - k) := by
    rw [two_zpow_of_eq_add (k := k) (b := e - 31 - k) (by ring)]
    push_cast
    field_simp
  rwa [hscale] at hend

theorem isPositOf_pmulKernel {u v : PUnpacked} (hu : u.sig.msb = true) (hv : v.sig.msb = true) :
    IsPositOf (u.val * v.val) (pmulKernel u v) := by
  have hlo : 2 ^ 31 * 2 ^ 31 ≤ (mul64 u.sig v.sig).toNat := by
    rw [mul64_toNat]
    exact Nat.mul_le_mul (BitVec.le_toNat_of_msb_true hu) (BitVec.le_toNat_of_msb_true hv)
  have hhi := (mul64 u.sig v.sig).isLt
  rw [PUnpacked.val_mul_val, ← mul64_toNat]
  unfold pmulKernel
  dsimp only
  split_ifs with hp
  · have htop := BitVec.le_toNat_of_msb_true hp
    have hexp : u.exp + v.exp - 62 = u.exp + v.exp + 1 - 31 - (32 : ℕ) := by push_cast; ring
    rw [hexp]
    exact isPositOf_pencode_extract _ _ htop hhi
  · have htop := BitVec.msb_eq_false_iff_two_mul_lt.mp (Bool.eq_false_iff.mpr hp)
    have hexp : u.exp + v.exp - 62 = u.exp + v.exp - 31 - (31 : ℕ) := by push_cast; ring
    rw [hexp]
    exact isPositOf_pencode_extract _ _ (by omega) (by omega)

/-! ### PDIV (44_posit_ops.md R183) -/

theorem isPositOf_pdivKernel {u v : PUnpacked} (hu : u.sig.msb = true) (hv : v.sig.msb = true) :
    IsPositOf (u.val / v.val) (pdivKernel u v) := by
  have hulo := BitVec.le_toNat_of_msb_true hu
  have hvlo := BitVec.le_toNat_of_msb_true hv
  have huhi := u.sig.isLt
  have hvhi := v.sig.isLt
  have hpos : 0 < v.sig.toNat := by omega
  have hlo : 2 ^ 30 ≤ u.sig.toNat * 2 ^ 31 / v.sig.toNat := by
    rw [Nat.le_div_iff_mul_le hpos]
    omega
  have hhi : u.sig.toNat * 2 ^ 31 / v.sig.toNat < 2 ^ 32 := by
    rw [Nat.div_lt_iff_lt_mul hpos]
    omega
  have hquot : (BitVec.ofNat 32 (udiv (u.sig.toNat * 2 ^ 31) v.sig.toNat)).toNat =
      u.sig.toNat * 2 ^ 31 / v.sig.toNat := by
    rw [BitVec.toNat_ofNat, udiv, Nat.mod_eq_of_lt hhi]
  have hval : u.val / v.val = sgn (xor u.s v.s) *
      (((u.sig.toNat * 2 ^ 31 : ℕ) : ℚ) / v.sig.toNat * 2 ^ (u.exp - v.exp - 31)) := by
    have hexp : u.exp - 31 = u.exp - v.exp - 31 + 31 + (v.exp - 31) := by ring
    rw [PUnpacked.val, PUnpacked.val, ← sgn_div_sgn, hexp, zpow_add₀ two_ne_zero, zpow_add₀ two_ne_zero]
    push_cast
    field_simp
  rw [hval]
  unfold pdivKernel
  dsimp only
  exact isPositOf_normalised_floor _ _ (hquot ▸ hlo) (by positivity)
    (hquot.trans (Nat.floor_div_eq_div (K := ℚ) _ _).symm)

/-! ### The commands on two Finite posits -/

theorem resultOf_padd_of_finite {c : Config} {a : DWord} {b : Word} (ha : pclass (operandA a) = .finite)
    (hb : pclass b = .finite) :
    resultOf c (.padd a b) = (PResult.valid (paddKernel (pdecode (operandA a)) (pdecode b))).toResult := by
  simp only [resultOf, operandB, pAdd, pspecialAdd_eq_none.mpr ⟨ha, hb⟩]

theorem resultOf_pmul_of_finite {c : Config} {a : DWord} {b : Word} (ha : pclass (operandA a) = .finite)
    (hb : pclass b = .finite) :
    resultOf c (.pmul a b) = (PResult.valid (pmulKernel (pdecode (operandA a)) (pdecode b))).toResult := by
  simp only [resultOf, operandB, pMul, pspecialMul_eq_none.mpr ⟨ha, hb⟩]

theorem resultOf_pdiv_of_finite {c : Config} {a : DWord} {b : Word} (ha : pclass (operandA a) = .finite)
    (hb : pclass b = .finite) :
    resultOf c (.pdiv a b) = (PResult.valid (pdivKernel (pdecode (operandA a)) (pdecode b))).toResult := by
  simp only [resultOf, operandB, pDiv, pspecialDiv_eq_none.mpr ⟨ha, hb⟩]

/-- Settles O48: the kernel's sum is the exact one but for bits below the grid, in either order of the operands. -/
theorem paddOfSameSignsTruncatesTheExactSum : Obligations.PaddOfSameSignsTruncatesTheExactSum := by
  unfold Obligations.PaddOfSameSignsTruncatesTheExactSum
  intro a b s ha hb hs
  refine ⟨_, completes_of_pvalid (resultOf_padd_of_finite ha hb), ?_⟩
  rw [pval_of_finite ha, pval_of_finite hb]
  exact isPositOf_paddKernel (pdecode_inRange ha).msb (pdecode_inRange hb).msb (two_dvd_sig_pdecode ha)
    (two_dvd_sig_pdecode hb) hs

/-- Settles O49: ordered by exponent, the two operands meet the subtraction kernel. -/
theorem paddOfDifferentSignsSubtractsTheAlignedOperand :
    Obligations.PaddOfDifferentSignsSubtractsTheAlignedOperand := by
  unfold Obligations.PaddOfDifferentSignsSubtractsTheAlignedOperand
  intro a b s ha hb hs x y v
  have hxy : x.s ≠ y.s := by
    by_cases h : (pdecode (operandA a)).exp < (pdecode b).exp
    · simp only [x, y, if_pos h]
      exact hs.symm
    · simp only [x, y, if_neg h]
      exact hs
  have hkernel : paddKernel (pdecode (operandA a)) (pdecode b) = paddDiff x y := if_neg hxy
  exact ⟨paddDiff x y, completes_of_pvalid (hkernel ▸ resultOf_padd_of_finite ha hb), paddDiff_spec hxy⟩

/-- Settles O51: the encoded bits are the upper ones of the exact product. -/
theorem pmulTruncatesTheExactProduct : Obligations.PmulTruncatesTheExactProduct := by
  unfold Obligations.PmulTruncatesTheExactProduct
  intro a b s ha hb
  refine ⟨_, completes_of_pvalid (resultOf_pmul_of_finite ha hb), ?_⟩
  rw [pval_of_finite ha, pval_of_finite hb]
  exact isPositOf_pmulKernel (pdecode_inRange ha).msb (pdecode_inRange hb).msb

/-- Settles O52: the encoded bits are the exact quotient's but for bits below the grid. -/
theorem pdivTruncatesTheExactQuotient : Obligations.PdivTruncatesTheExactQuotient := by
  unfold Obligations.PdivTruncatesTheExactQuotient
  intro a b s ha hb
  refine ⟨_, completes_of_pvalid (resultOf_pdiv_of_finite ha hb), ?_⟩
  rw [pval_of_finite ha, pval_of_finite hb]
  exact isPositOf_pdivKernel (pdecode_inRange ha).msb (pdecode_inRange hb).msb

/-! ### PSUB (44_posit_ops.md R181) -/

/-- Equal significands at equal exponents cancel. -/
theorem paddKernel_cancel {u v : PUnpacked} (hexp : v.exp = u.exp) (hsig : v.sig = u.sig) (hs : u.s ≠ v.s) :
    paddKernel u v = pZero := by
  have hkernel : paddKernel u v = paddDiff u v := by
    unfold paddKernel
    dsimp only
    rw [if_neg hexp.not_gt, if_neg hexp.not_gt, if_neg hs]
  have hdiff : u.alignedDiff v = 0 := by
    rw [PUnpacked.alignedDiff, hexp, hsig, sub_self, Int.toNat_zero, pow_zero, Nat.div_one, sub_self,
      mul_zero, zero_mul]
  exact hkernel.trans ((paddDiff_spec hs).1 hdiff)

theorem pSub_self {p : Word} (h : p ≠ pNaR) : pSub p p = .valid pZero := by
  obtain rfl | hp := eq_pZero_or_finite h
  · rfl
  · obtain ⟨-, -, hneg⟩ := positNegationKeepsExponentAndSignificand
    obtain ⟨hclass, hfields⟩ := hneg p
    obtain ⟨hexp, hsig, hs⟩ := hfields hp
    rw [pSub, pAdd, pspecialAdd_eq_none.mpr ⟨hp, hclass.trans hp⟩]
    exact congrArg PResult.valid (paddKernel_cancel hexp hsig (hs ▸ (Bool.not_ne_self _).symm))

/-- Two commands with one result end alike, but for the report of a trap (60_exceptions.md R220). -/
theorem exec_pair_of_resultOf_eq {i j : Instr} {s : State} (hres : resultOf s.cfg i = resultOf s.cfg j) :
    ∃ t u : State, exec i s = .next t ∧ exec j s = .next u ∧
      ((∃ r v, t = { s with res := r, inv := v, busy := false } ∧ u = t) ∨ (Traps i s ∧ Traps j s)) := by
  obtain ⟨hinv, htrap, -⟩ | ⟨hvalid, hi⟩ := complete_cases (encode i) (resultOf s.cfg i) s
  · have hi : Traps i s := traps_of_invalid hinv htrap
    have hj : Traps j s := traps_of_invalid (hres ▸ hinv) htrap
    exact ⟨_, _, hi, hj, .inr ⟨hi, hj⟩⟩
  · have hj : complete (encode j) (resultOf s.cfg i) s = completeNormally (resultOf s.cfg i) s :=
      hvalid.elim complete_of_valid complete_of_silent
    rw [exec_eq_complete, exec_eq_complete, ← hres, hi, hj]
    exact ⟨_, _, rfl, rfl, .inl ⟨_, _, rfl, rfl⟩⟩

/-- Settles O50: the two commands have one result, and a pattern and its negation cancel. -/
theorem psubIsPaddOfTheNegatedOperand : Obligations.PsubIsPaddOfTheNegatedOperand := by
  unfold Obligations.PsubIsPaddOfTheNegatedOperand
  refine fun a b s => ⟨exec_pair_of_resultOf_eq rfl, fun hab hb => ?_⟩
  have hres : resultOf s.cfg (.psub a b) = (PResult.valid pZero).toResult := by
    rw [← pSub_self hb, ← hab]
    rfl
  exact completes_of_pvalid hres

end Sys2Proof.Machine
end

section
/-! PROOFS. The statements of spec/44_posit_ops.md R184 to R186: the first iterate of PSQRT, its convergence test and its
loop. -/

namespace Sys2Proof.Machine

/-! ### Encodes that lose no bit -/

/-- Every bit of the rank lies above those that truncRank cuts off below the regime. -/
def PUnpacked.Fits (u : PUnpacked) : Prop := 2 ^ (33 - regimeWidth (u.rank / 2 ^ 33)) ∣ u.rank

theorem PUnpacked.Fits.rank_pdecode_pencode {u : PUnpacked} (h : u.Fits) (hu : u.InRange) :
    (pdecode (pencode u.s u.exp u.sig)).rank = u.rank := by
  have hrest : 2 ^ (33 - regimeWidth (u.rank / 2 ^ 33)) ∣ u.rank % 2 ^ 33 :=
    (Nat.dvd_mod_iff (pow_dvd_pow 2 (Nat.sub_le _ _))).mpr h
  rw [Machine.rank_pdecode_pencode hu, blockRank, Nat.div_mul_cancel hrest, Nat.div_add_mod']

theorem PUnpacked.Fits.pval_pencode {u : PUnpacked} (h : u.Fits) (hu : u.InRange) :
    pval (pencode u.s u.exp u.sig) = u.val := by
  have hfin := pclass_pencode hu
  rw [pval_eq_sgn_mul_abs hfin, signOf_pencode hu, abs_pval hfin, h.rank_pdecode_pencode hu,
    ← hu.abs_val_eq_rankVal, ← u.val_eq_sgn_mul_abs]

/-- A decode has only the bits that its pattern has room for. -/
theorem fits_pdecode {p : Word} (h : pclass p = .finite) : (pdecode p).Fits := by
  obtain ⟨j, hj, rest, hrest, hp⟩ := exists_block h
  have hfill := rest_mul_lt hrest
  have hblock : blockRank j rest / 2 ^ 33 = j := by unfold blockRank; omega
  rw [PUnpacked.Fits, rank_pdecode_of_block hj hrest hp, hblock, blockRank]
  exact Nat.dvd_add (Dvd.dvd.mul_left (pow_dvd_pow 2 (Nat.sub_le _ _)) _) (Dvd.intro_left _ rfl)

theorem PUnpacked.rank_div_eq (u : PUnpacked) : u.rank / 2 ^ 33 = (u.exp + 120).toNat / 4 := by
  unfold PUnpacked.rank
  omega

/-- Halving the exponent makes the regime no longer. -/
theorem regimeWidth_le_halved {e : ℤ} (hmin : -120 ≤ e) (hmax : e ≤ 120) :
    regimeWidth ((e + 120).toNat / 4) ≤ regimeWidth ((e / 2 + 120).toNat / 4) ∧
      2 ≤ regimeWidth ((e / 2 + 120).toNat / 4) := by
  unfold regimeWidth
  split_ifs
  all_goals omega

/-- At the halved exponent every fraction bit still has room. -/
theorem PUnpacked.Fits.halved {u : PUnpacked} (h : u.Fits) (hu : u.InRange) :
    PUnpacked.Fits ⟨false, u.exp / 2, u.sig⟩ := by
  obtain ⟨hle, htwo⟩ := regimeWidth_le_halved hu.minExp_le hu.le_maxExp
  rw [PUnpacked.Fits, PUnpacked.rank_div_eq] at h ⊢
  dsimp only
  have hfrac : 2 ^ (33 - regimeWidth ((u.exp / 2 + 120).toNat / 4)) ∣ u.sig.toNat % 2 ^ 31 := by
    have hmod : u.rank % 2 ^ 31 = u.sig.toNat % 2 ^ 31 := by unfold PUnpacked.rank; omega
    rw [← hmod, Nat.dvd_mod_iff (pow_dvd_pow 2 (by omega))]
    exact (pow_dvd_pow 2 (by omega)).trans h
  unfold PUnpacked.rank
  exact Nat.dvd_add (Dvd.dvd.mul_left (pow_dvd_pow 2 (by omega)) _) hfrac

/-! ### The first iterate (44_posit_ops.md R184) -/

/-- R184: the significand at the halved exponent, exactly. -/
theorem psqrtGuess_spec {x : Word} (h : pclass x = .finite) :
    pclass (psqrtGuess x) = .finite ∧ signOf (psqrtGuess x) = false ∧
      pval (psqrtGuess x) = (pdecode x).sig.toNat * 2 ^ ((pdecode x).exp / 2 - 31) := by
  have hx := pdecode_inRange h
  have hmin := hx.minExp_le
  have hmax := hx.le_maxExp
  have hu : PUnpacked.InRange ⟨false, (pdecode x).exp / 2, (pdecode x).sig⟩ :=
    ⟨by dsimp only; omega, by dsimp only; omega, hx.msb⟩
  have hclass := pclass_pencode hu
  have hsign := signOf_pencode hu
  have hval := ((fits_pdecode h).halved hx).pval_pencode hu
  have hguess : psqrtGuess x = pencode false ((pdecode x).exp / 2) (pdecode x).sig := rfl
  rw [PUnpacked.val, sgn, if_neg Bool.false_ne_true, one_mul] at hval
  rw [hguess]
  exact ⟨hclass, hsign, hval⟩

/-! ### The convergence test (44_posit_ops.md R185) -/

/-- R185: the exponent test is a magnitude test. -/
theorem pconverged_iff (d : Word) : pconverged d = true ↔ d ≠ pNaR ∧ |pval d| < 2 ^ (-16 : ℤ) := by
  obtain rfl | rfl | hd := posit_cases d
  · have hdone : pconverged pZero = true := by decide
    rw [pval_pZero, abs_zero]
    exact iff_of_true hdone ⟨by decide, by positivity⟩
  · have hnot : pconverged pNaR = false := by decide
    simp [hnot]
  · have htest : pconverged d = decide ((pdecode d).exp ≤ -17) := by
      rw [pconverged, hd]
      rfl
    rw [htest, decide_eq_true_eq, ← not_le, two_zpow_le_abs_pval_iff hd, and_iff_right (pclass_eq_finite.mp hd).2]
    omega

/-- Settles O53: the guess has room for every bit, and the binade of a residual is its exponent. -/
theorem psqrtGuessAndConvergence : Obligations.PsqrtGuessAndConvergence := by
  unfold Obligations.PsqrtGuessAndConvergence
  exact ⟨fun x h _ => psqrtGuess_spec h, pconverged_iff⟩

/-! ### PSQRT (44_posit_ops.md R186) -/

theorem resultOf_psqrt {c : Config} {a : DWord} {b : Word} {t : PResult} (h : pSqrt (operandA a) = t) :
    resultOf c (.psqrt a b) = t.toResult := by
  rw [← h]
  rfl

/-- Zero and NaR by lookup (R186). -/
theorem pSqrt_eq_self {x : Word} (h : x = pZero ∨ x = pNaR) : pSqrt x = .valid x := by
  obtain rfl | rfl := h <;> rfl

theorem pSqrt_of_negative {x : Word} (h : pclass x = .finite) (hs : signOf x = true) : pSqrt x = .invalidNaR := by
  simp [pSqrt, h, hs]

theorem pSqrt_of_positive {x : Word} (h : pclass x = .finite) (hs : signOf x = false) :
    pSqrt x = .valid (psqrtLoop x 100 (psqrtGuess x)) := by
  simp [pSqrt, h, hs, sqrtMaxIter]

/-- Settles O54: the special radicands by lookup; the loop stops at the first converged iterate or at the last. -/
theorem psqrtIsTheFirstConvergedNewtonIterate : Obligations.PsqrtIsTheFirstConvergedNewtonIterate := by
  unfold Obligations.PsqrtIsTheFirstConvergedNewtonIterate
  intro a b s x iter done
  refine ⟨fun h => ?_, fun h hs hoff => ?_, fun h hs => ?_⟩
  · exact completes_of_pvalid (resultOf_psqrt (pSqrt_eq_self h))
  · exact completes_of_invalidNaR hoff (resultOf_psqrt (pSqrt_of_negative h hs))
  · obtain ⟨k, hk, hloop, hbefore, hlast⟩ := psqrtLoop_cases x 100 (psqrtGuess x)
    have hroot : pSqrt x = .valid (iter k) := (pSqrt_of_positive h hs).trans (congrArg PResult.valid hloop)
    refine ⟨k, ?_, hk, completes_of_pvalid (resultOf_psqrt hroot), hbefore, ?_⟩
    · omega
    · exact hlast.elim .inr fun hdone => .inl hdone.2

end Sys2Proof.Machine
end

section
/-! PROOFS. The statements of spec/44_posit_ops.md R187 and R188: I2P and P2I truncate the integer and the posit. -/

namespace Sys2Proof.Machine

/-! ### I2P (44_posit_ops.md R187) -/

/-- The magnitude of an integer: 32 bits hold also that of INT32_MIN. -/
def intMag (n : Word) : Word := BitVec.ofNat 32 n.toInt.natAbs

theorem toNat_intMag (n : Word) : (intMag n).toNat = n.toInt.natAbs := by
  have hlo := BitVec.le_toInt n
  have hhi := BitVec.toInt_lt (x := n)
  rw [intMag, BitVec.toNat_ofNat]
  omega

theorem intMag_ne_zero {n : Word} (h : n ≠ 0#32) : intMag n ≠ 0#32 := by
  rw [BitVec.toNat_ne, toNat_intMag]
  exact Int.natAbs_ne_zero.mpr fun h0 => h (BitVec.eq_of_toInt_eq h0)

/-- The smallest integer is no exception: its pattern is the general case's. -/
theorem i2p_of_ne_zero {n : Word} (h : n ≠ 0#32) :
    i2p n = pencode (decide (n.toInt < 0)) (31 - lzc32 (intMag n)) (shl (intMag n) (lzc32 (intMag n))) := by
  unfold i2p
  rw [if_neg h]
  split_ifs with hmin
  · rw [hmin]
    decide
  · rfl

theorem isTruncation_i2p {n : Word} (h : n ≠ 0#32) : IsTruncation n.toInt (i2p n) := by
  have hne := intMag_ne_zero h
  have hlzc := lzc32_add_log2 hne
  have hval := val_shl_lzc32 (decide (n.toInt < 0)) 31 hne
  rw [toNat_intMag, sub_self, zpow_zero, mul_one, sgn_mul_natAbs] at hval
  rw [i2p_of_ne_zero h, ← hval]
  exact isTruncation_pencode ⟨by dsimp only; omega, by dsimp only; omega, msb_shl_lzc32 hne⟩

/-- Settles O55: a left-justified integer is encoded within the range, INT32_MIN by evaluation. -/
theorem i2pTruncatesTheInteger : Obligations.I2pTruncatesTheInteger := by
  unfold Obligations.I2pTruncatesTheInteger
  intro a b s n
  have hdone : Completes (.i2p a b) s (zext64 (i2p n)) false := completes_neverInvalid rfl
  refine ⟨fun h => ?_, fun h => ?_, fun h => ⟨i2p n, hdone, isTruncation_i2p h⟩⟩
  · rwa [h] at hdone
  · have hmin : zext64 (i2p 0x80000000#32) = 0x80500000#64 := by decide
    rwa [h, hmin] at hdone

/-! ### P2I (44_posit_ops.md R188) -/

/-- R188 from 2^31 up: the bound of the sign. -/
theorem p2iFinite_of_ge {u : PUnpacked} (h : 31 ≤ u.exp) : p2iFinite u = if u.s then int32Min else int32Max := by
  rw [p2iFinite, if_neg (by omega), if_pos h]
  rfl

/-- R188 below 2^31: the truncated magnitude under the sign. -/
theorem p2iFinite_of_lt {u : PUnpacked} (hm : u.sig.msb = true) (h : u.exp < 31) :
    ∃ mag : Word, mag.toNat = ⌊|u.val|⌋₊ ∧ p2iFinite u = if u.s then neg32 mag else mag := by
  unfold p2iFinite
  rw [if_neg h.not_ge]
  dsimp only
  by_cases hneg : u.exp < 0
  · have hone : |u.val| < 1 := not_le.mp ((u.two_zpow_le_abs_val_iff hm 0).not.mpr hneg.not_ge)
    refine ⟨0#32, (Nat.floor_eq_zero.mpr hone).symm, ?_⟩
    rw [if_pos hneg]
    cases u.s <;> rfl
  · have hpow : (2 : ℚ) ^ (u.exp - 31) = ((2 ^ (31 - u.exp).toNat : ℕ) : ℚ)⁻¹ := by
      rw [Nat.cast_pow, Nat.cast_ofNat, ← zpow_natCast, ← zpow_neg]
      congr 1
      omega
    refine ⟨_, ?_, if_neg hneg⟩
    rw [shr_toNat, u.abs_val, hpow, ← div_eq_mul_inv, Nat.floor_div_eq_div]

theorem p2i_of_finite {p : Word} (h : pclass p = .finite) : p2i p = p2iFinite (pdecode p) := by
  rw [p2i, h]

theorem signOf_eq_of_finite {p : Word} (h : pclass p = .finite) : signOf p = decide (pval p < 0) := by
  have hpos := abs_pval_pos h
  have hval := pval_eq_sgn_mul_abs h
  cases hs : signOf p with
  | false => exact (decide_eq_false (by rw [hval, hs, sgn, if_neg Bool.false_ne_true]; linarith)).symm
  | true => exact (decide_eq_true (by rw [hval, hs, sgn, if_pos rfl]; linarith)).symm

theorem two_pow_le_abs_pval_iff {p : Word} (h : pclass p = .finite) : 2 ^ 31 ≤ |pval p| ↔ 31 ≤ (pdecode p).exp := by
  exact_mod_cast two_zpow_le_abs_pval_iff h 31

/-- R188 for every magnitude of 2^31 or more. -/
theorem p2i_of_ge {p : Word} (hp : p ≠ pNaR) (h : 2 ^ 31 ≤ |pval p|) :
    p2i p = if pval p < 0 then int32Min else int32Max := by
  obtain rfl | hp := eq_pZero_or_finite hp
  · rw [pval_pZero, abs_zero] at h
    exact absurd h (by norm_num)
  · have hsign : (pdecode p).s = decide (pval p < 0) := signOf_eq_of_finite hp
    rw [p2i_of_finite hp, p2iFinite_of_ge ((two_pow_le_abs_pval_iff hp).mp h), hsign]
    simp only [decide_eq_true_eq]

/-- The magnitude's integer part under the sign is the floor from 0 up and the ceiling from 0 down. -/
theorem ite_floor_abs (v : ℚ) :
    (0 ≤ v → (if v < 0 then -(⌊|v|⌋₊ : ℤ) else ⌊|v|⌋₊) = ⌊v⌋) ∧
      (v ≤ 0 → (if v < 0 then -(⌊|v|⌋₊ : ℤ) else ⌊|v|⌋₊) = ⌈v⌉) := by
  rw [Int.natCast_floor_eq_floor (abs_nonneg v)]
  refine ⟨fun h => ?_, fun h => ?_⟩
  · rw [if_neg h.not_gt, abs_of_nonneg h]
  · obtain hneg | rfl := h.lt_or_eq
    · rw [if_pos hneg, abs_of_neg hneg, Int.floor_neg, neg_neg]
    · simp

/-- R188 below 2^31 in magnitude. -/
theorem toInt_p2i_of_lt {p : Word} (hp : p ≠ pNaR) (h : |pval p| < 2 ^ 31) :
    (p2i p).toInt = if pval p < 0 then -(⌊|pval p|⌋₊ : ℤ) else ⌊|pval p|⌋₊ := by
  obtain rfl | hp := eq_pZero_or_finite hp
  · rw [pval_pZero, abs_zero, Nat.floor_zero]
    rfl
  · have he : (pdecode p).exp < 31 := not_le.mp ((two_pow_le_abs_pval_iff hp).not.mp h.not_ge)
    have hsign : (pdecode p).s = decide (pval p < 0) := signOf_eq_of_finite hp
    obtain ⟨mag, hmag, hres⟩ := p2iFinite_of_lt (pdecode_inRange hp).msb he
    rw [← pval_of_finite hp] at hmag
    have hlt : mag.toNat < 2 ^ 31 := by
      rw [hmag, Nat.floor_lt (abs_nonneg _)]
      exact_mod_cast h
    rw [p2i_of_finite hp, hres, toInt_neg32_ite _ hlt, hmag, hsign]
    simp only [decide_eq_true_eq]

/-- Settles O56: NaR by lookup, every other pattern by its magnitude against 2^31. -/
theorem p2iTruncatesAndSaturates : Obligations.P2iTruncatesAndSaturates := by
  unfold Obligations.P2iTruncatesAndSaturates
  intro a b s p
  have hdone : Completes (.p2i a b) s (zext64 (p2i p)) false := completes_neverInvalid rfl
  refine ⟨fun h => ?_, fun hp h => ?_, fun hp h => ?_, fun hp h => ⟨p2i p, hdone, ?_⟩⟩
  · rwa [h] at hdone
  · have hpos : ¬ pval p < 0 := not_lt.mpr (le_trans (by norm_num) h)
    rwa [p2i_of_ge hp (h.trans (le_abs_self _)), if_neg hpos] at hdone
  · have hneg : pval p < 0 := h.trans_lt (by norm_num)
    rwa [p2i_of_ge hp (le_abs.mpr (.inr (le_neg_of_le_neg h))), if_pos hneg] at hdone
  · rw [toInt_p2i_of_lt hp h]
    exact ite_floor_abs (pval p)

end Sys2Proof.Machine
end

section
/-! PROOFS. The statements of spec/45_conversions.md R200 and R201: F2P truncates the float to the posit grid, P2F drops
the significand bits a float has no room for. -/

namespace Sys2Proof.Machine

/-! ### F2P (45_conversions.md R200) -/

theorem f2p_of_not_finite {x : Word} (h : (isNan x || isInf x) = true) : f2p x = pNaR := by
  obtain hnan | hinf := Bool.or_eq_true_iff.mp h
  · rw [f2p, fclass_of_isNan hnan]
  · obtain rfl | rfl := isInf_cases hinf <;> rfl

theorem f2p_of_isZero {x : Word} (h : isZero x = true) : f2p x = pZero := by
  obtain rfl | rfl := isZero_cases h <;> rfl

theorem f2p_of_normal {x : Word} (h : fclass x = .normal) :
    f2p x = pencode (funpack x).s (funpack x).e (shl (BitVec.ofNat 32 (funpack x).m) 8) := by
  rw [f2p, h]

/-- R200: a float's 24 significand bits left-justified. -/
theorem toNat_shl_significand {m : ℕ} (h : m < 2 ^ 24) : (shl (BitVec.ofNat 32 m) 8).toNat = m * 2 ^ 8 := by
  rw [shl_toNat, BitVec.toNat_ofNat]
  omega

theorem isPositOf_f2p {x : Word} (h : fclass x = .normal) : IsPositOf (fval x) (f2p x) := by
  obtain ⟨hlo, hhi, -, -, -, hval⟩ := funpack_spec h
  have hsig := toNat_shl_significand hhi
  have hmsb : (shl (BitVec.ofNat 32 (funpack x).m) 8).msb = true :=
    BitVec.msb_eq_true_iff_two_mul_ge.mpr (by omega)
  have hposit : fval x = PUnpacked.val ⟨(funpack x).s, (funpack x).e, shl (BitVec.ofNat 32 (funpack x).m) 8⟩ := by
    rw [hval, PUnpacked.val, hsig, two_zpow_of_eq_add (k := 8) (b := (funpack x).e - 31) (by ring)]
    push_cast
    ring
  rw [f2p_of_normal h, hposit]
  exact isPositOf_pencode_val hmsb

/-- Settles O57: the patterns without a value and the zeros by lookup, a Normal by the encode of its significand. -/
theorem f2pTruncatesTheFloat : Obligations.F2pTruncatesTheFloat := by
  unfold Obligations.F2pTruncatesTheFloat
  intro a b s x
  have hdone : Completes (.f2p a b) s (zext64 (f2p x)) false := completes_neverInvalid rfl
  refine ⟨fun h => ?_, fun h => ?_, fun h => ⟨f2p x, hdone, isPositOf_f2p h⟩⟩
  · rwa [f2p_of_not_finite h] at hdone
  · rwa [f2p_of_isZero h] at hdone

/-! ### P2F (45_conversions.md R201) -/

theorem p2f_of_finite (q : Word) {p : Word} (h : pclass p = .finite) : p2f q p = p2fFinite (pdecode p) := by
  rw [p2f, h]

/-- R201 in the posit's range, where neither range branch is taken: sign, biased exponent and the 23 leading fraction
bits. -/
theorem p2fFinite_eq {u : PUnpacked} (hu : u.InRange) {b : ℕ} (hb : (b : ℤ) = u.exp + 127) :
    p2fFinite u = signBit u.s ||| BitVec.ofNat 32 (b * 2 ^ 23 + u.sig.toNat / 2 ^ 8 % 2 ^ 23) := by
  have hmin := hu.minExp_le
  have hmax := hu.le_maxExp
  have hfrac : ((shr u.sig 8).extractLsb' 0 23).setWidth 32 = BitVec.ofNat 32 (u.sig.toNat / 2 ^ 8 % 2 ^ 23) := by
    apply BitVec.eq_of_toNat_eq
    rw [BitVec.toNat_setWidth, BitVec.extractLsb'_toNat, shr_toNat, Nat.shiftRight_zero, BitVec.toNat_ofNat]
  rw [p2fFinite, if_neg (by omega), if_neg (by omega), hfrac, fltBias, ← hb, Int.toNat_natCast, BitVec.or_assoc,
    exp_or_frac b (Nat.mod_lt _ (Nat.two_pow_pos 23))]

/-- R201: a Normal that unpacks to the posit's sign and exponent and to the upper 24 bits of its significand. -/
theorem funpack_p2fFinite {u : PUnpacked} (hu : u.InRange) :
    fclass (p2fFinite u) = .normal ∧ funpack (p2fFinite u) = ⟨u.s, u.exp, u.sig.toNat / 2 ^ 8⟩ := by
  have hmin := hu.minExp_le
  have hmax := hu.le_maxExp
  have hmsb := toNat_mod_of_msb hu.msb
  obtain ⟨b, hb⟩ : ∃ b : ℕ, (b : ℤ) = u.exp + 127 := ⟨(u.exp + 127).toNat, by omega⟩
  have heq := p2fFinite_eq hu hb
  have hlt : b * 2 ^ 23 + u.sig.toNat / 2 ^ 8 % 2 ^ 23 < 2 ^ 31 := by omega
  have hord := fordinal_signBit_or u.s hlt
  have hsign := signOf_signBit_or u.s hlt
  rw [← heq] at hord hsign
  have hexp : fexpField (p2fFinite u) = b := by rw [fexpField_eq, hord]; omega
  have hfrac : 2 ^ 23 + ffracField (p2fFinite u) = u.sig.toNat / 2 ^ 8 := by rw [ffracField_eq, hord]; omega
  have hbias : (b : ℤ) - fltBias = u.exp := by rw [fltBias]; omega
  refine ⟨(fclass_normal_iff _).mpr ?_, ?_⟩
  · rw [hord, fInfOrdinal]
    omega
  · rw [funpack_of_exp_ne_zero (by rw [hexp]; omega), hsign, hexp, hfrac, hbias]

/-- R201: the value with the low eight significand bits dropped. -/
theorem fval_p2fFinite {u : PUnpacked} (hu : u.InRange) :
    fval (p2fFinite u) = sgn u.s * ((u.sig.toNat / 2 ^ 8 : ℕ) : ℚ) * 2 ^ (u.exp - 23) := by
  obtain ⟨hnormal, hunpack⟩ := funpack_p2fFinite hu
  obtain ⟨-, -, -, -, -, hval⟩ := funpack_spec hnormal
  rw [hval, hunpack]

/-- R201: F2P encodes the posit again when the dropped bits are 0. -/
theorem f2p_p2fFinite {u : PUnpacked} (hu : u.InRange) (hlow : u.sig.extractLsb' 0 8 = 0#8) :
    f2p (p2fFinite u) = pencode u.s u.exp u.sig := by
  obtain ⟨hnormal, hunpack⟩ := funpack_p2fFinite hu
  have hmod : u.sig.toNat % 2 ^ 8 = 0 := by
    rw [← Nat.shiftRight_zero (n := u.sig.toNat), ← BitVec.extractLsb'_toNat, hlow, BitVec.toNat_ofNat]
  have hsig : shl (BitVec.ofNat 32 (u.sig.toNat / 2 ^ 8)) 8 = u.sig := BitVec.eq_of_toNat_eq <| by
    rw [toNat_shl_significand (by omega)]
    omega
  rw [f2p_of_normal hnormal, hunpack]
  dsimp only
  rw [hsig]

/-- Settles O58: zero and NaR by lookup, a Finite posit by what its float unpacks to. -/
theorem p2fTruncatesTheFraction : Obligations.P2fTruncatesTheFraction := by
  unfold Obligations.P2fTruncatesTheFraction
  intro a b s p
  have hdone : Completes (.p2f a b) s (zext64 (p2f s.cfg.fltQnan p)) false := completes_neverInvalid rfl
  refine ⟨fun h => ?_, fun h => ?_, fun h => ?_⟩
  · rwa [h] at hdone
  · rwa [h] at hdone
  · have hu := pdecode_inRange h
    rw [p2f_of_finite _ h] at hdone
    exact ⟨_, hdone, (funpack_p2fFinite hu).1, fval_p2fFinite hu,
      fun hlow => (f2p_p2fFinite hu hlow).trans (pencode_pdecode h)⟩

end Sys2Proof.Machine
end

section
/-! PROOFS. The statements of spec/45_conversions.md R202 and R203: D2P truncates the double to the posit grid, P2D is
exact, and D2P undoes it. -/

namespace Sys2Proof.Machine

/-! ### The fields of a binary64 pattern as numbers (30_encoding.md R71) -/

theorem dexpField_eq (d : DWord) : dexpField d = d.toNat / 2 ^ 52 % 2 ^ 11 := by
  rw [dexpField, BitVec.extractLsb'_toNat, Nat.shiftRight_eq_div_pow]

theorem dfracField_eq (d : DWord) : dfracField d = d.toNat % 2 ^ 52 := by
  rw [dfracField, BitVec.extractLsb'_toNat, Nat.shiftRight_zero]

/-- The value of a double with an implicit one, its significand cut to the scale of a posit's. -/
theorem dval_of_exp_ne_zero {d : DWord} (h : dexpField d ≠ 0) :
    dval d = sgn d.msb * (((2 ^ 52 + dfracField d : ℕ) : ℚ) / (2 ^ 21 : ℕ) * 2 ^ ((dexpField d : ℤ) - 1023 - 31)) := by
  have hpow : (2 : ℚ) ^ ((dexpField d : ℤ) - 1023 - 31) = 2 ^ 21 * 2 ^ ((max (dexpField d) 1 : ℕ) - 1075 : ℤ) :=
    two_zpow_of_eq_add (by omega)
  rw [dval, if_neg h, hpow]
  push_cast
  ring

/-! ### D2P (45_conversions.md R202) -/

theorem d2p_of_special {d : DWord} (h : dexpField d = 2047) : d2p d = pNaR := if_pos h

theorem d2p_of_exp_zero {d : DWord} (h : dexpField d = 0) : d2p d = pZero := by
  rw [d2p, if_neg (by omega), if_pos h]

/-- R202 for every other exponent: the encode of the 32 leading significand bits. -/
theorem d2p_of_normal {d : DWord} (hzero : dexpField d ≠ 0) (hspecial : dexpField d ≠ 2047) :
    ∃ m : Word, m.toNat = (2 ^ 52 + dfracField d) / 2 ^ 21 ∧
      d2p d = pencode d.msb ((dexpField d : ℤ) - 1023) m := by
  have hfrac : dfracField d < 2 ^ 52 := (d.extractLsb' 0 52).isLt
  refine ⟨_, ?_, by rw [d2p, if_neg hspecial, if_neg hzero]; rfl⟩
  rw [BitVec.extractLsb'_toNat, shr_toNat, BitVec.toNat_ofNat, Nat.shiftRight_zero]
  omega

theorem isPositOf_d2p {d : DWord} (hzero : dexpField d ≠ 0) (hspecial : dexpField d ≠ 2047) :
    IsPositOf (dval d) (d2p d) := by
  obtain ⟨m, hm, hres⟩ := d2p_of_normal hzero hspecial
  have hmsb : m.msb = true := BitVec.msb_eq_true_iff_two_mul_ge.mpr (by omega)
  rw [hres, dval_of_exp_ne_zero hzero]
  exact isPositOf_pencode_floor _ _ hmsb (by positivity) (by rw [hm, Nat.floor_div_eq_div])

/-- Settles O59: the two exponent fields without an implicit one by lookup, the rest by an encode of the leading bits. -/
theorem d2pTruncatesTheDouble : Obligations.D2pTruncatesTheDouble := by
  unfold Obligations.D2pTruncatesTheDouble
  intro a b s
  have hdone : Completes (.d2p a b) s (zext64 (d2p a)) false := completes_neverInvalid rfl
  refine ⟨fun h => ?_, fun h => ?_, fun hzero hspecial => ⟨d2p a, hdone, isPositOf_d2p hzero hspecial⟩⟩
  · rwa [d2p_of_special h] at hdone
  · rwa [d2p_of_exp_zero h] at hdone

/-! ### P2D (45_conversions.md R203) -/

theorem p2d_of_finite (q : DWord) {p : Word} (h : pclass p = .finite) : p2d q p = p2dFinite (pdecode p) := by
  rw [p2d, h]

/-- Sign, biased exponent and the 31 fraction bits at the top of the fraction field, put together. -/
theorem toNat_p2dFinite {u : PUnpacked} {b : ℕ} (hb : (b : ℤ) = u.exp + 1023) (hlt : b < 2 ^ 11) :
    (p2dFinite u).toNat = u.s.toNat * 2 ^ 63 + (b * 2 ^ 52 + u.sig.toNat % 2 ^ 31 * 2 ^ 21) := by
  have hsign : (if u.s then 0x8000000000000000#64 else 0#64).toNat = u.s.toNat <<< 63 := by cases u.s <;> rfl
  have hexp : (BitVec.ofNat 64 (u.exp + dblBias).toNat <<< 52).toNat = b <<< 52 := by
    rw [dblBias, ← hb, Int.toNat_natCast, BitVec.toNat_shiftLeft, BitVec.toNat_ofNat, Nat.shiftLeft_eq,
      Nat.shiftLeft_eq]
    omega
  have hfrac : ((u.sig.extractLsb' 0 31).setWidth 64 <<< 21).toNat = u.sig.toNat % 2 ^ 31 * 2 ^ 21 := by
    rw [BitVec.toNat_shiftLeft, BitVec.toNat_setWidth, BitVec.extractLsb'_toNat, Nat.shiftRight_zero,
      Nat.shiftLeft_eq]
    omega
  have hbelow : b <<< 52 ||| u.sig.toNat % 2 ^ 31 * 2 ^ 21 = b * 2 ^ 52 + u.sig.toNat % 2 ^ 31 * 2 ^ 21 := by
    rw [← Nat.shiftLeft_add_eq_or_of_lt (by omega), Nat.shiftLeft_eq]
  rw [p2dFinite, BitVec.or_assoc, BitVec.toNat_or, BitVec.toNat_or, hsign, hexp, hfrac, hbelow,
    ← Nat.shiftLeft_add_eq_or_of_lt (by omega), Nat.shiftLeft_eq]

/-- R203: a Normal with the posit's sign and exponent, the fraction widened by zeros. -/
theorem p2dFinite_fields {u : PUnpacked} (hu : u.InRange) :
    (p2dFinite u).msb = u.s ∧ (dexpField (p2dFinite u) : ℤ) = u.exp + 1023 ∧
      dfracField (p2dFinite u) = u.sig.toNat % 2 ^ 31 * 2 ^ 21 := by
  have hmin := hu.minExp_le
  have hmax := hu.le_maxExp
  obtain ⟨b, hb⟩ : ∃ b : ℕ, (b : ℤ) = u.exp + 1023 := ⟨(u.exp + 1023).toNat, by omega⟩
  have hnat := toNat_p2dFinite hb (by omega)
  have hsign : u.s.toNat ≤ 1 := Bool.toNat_le u.s
  refine ⟨?_, ?_, ?_⟩
  · rw [BitVec.msb_eq_decide, hnat]
    cases u.s with
    | false => exact decide_eq_false (by rw [Bool.toNat_false]; omega)
    | true => exact decide_eq_true (by rw [Bool.toNat_true]; omega)
  · rw [dexpField_eq, hnat]
    omega
  · rw [dfracField_eq, hnat]
    omega

/-- R203: the exponent is neither that of a subnormal nor that of an infinity or NaN. -/
theorem p2dFinite_normal {u : PUnpacked} (hu : u.InRange) :
    dexpField (p2dFinite u) ≠ 0 ∧ dexpField (p2dFinite u) ≠ 2047 := by
  have hmin := hu.minExp_le
  have hmax := hu.le_maxExp
  obtain ⟨-, hexp, -⟩ := p2dFinite_fields hu
  omega

/-- The implicit one over the widened fraction is the widened significand. -/
theorem significand_p2dFinite {u : PUnpacked} (hu : u.InRange) :
    2 ^ 52 + dfracField (p2dFinite u) = u.sig.toNat * 2 ^ 21 := by
  obtain ⟨-, -, hfrac⟩ := p2dFinite_fields hu
  have hsig := toNat_mod_of_msb hu.msb
  omega

/-- R203: P2D is exact. -/
theorem dval_p2dFinite {u : PUnpacked} (hu : u.InRange) : dval (p2dFinite u) = u.val := by
  obtain ⟨hsign, hexp, -⟩ := p2dFinite_fields hu
  rw [dval_of_exp_ne_zero (p2dFinite_normal hu).1, hsign, hexp, significand_p2dFinite hu, add_sub_cancel_right,
    Nat.cast_mul, mul_div_cancel_right₀ _ (by norm_num), PUnpacked.val, mul_assoc]

/-- R203: D2P reads back the fields that P2D wrote. -/
theorem d2p_p2dFinite {u : PUnpacked} (hu : u.InRange) : d2p (p2dFinite u) = pencode u.s u.exp u.sig := by
  obtain ⟨hsign, hexp, -⟩ := p2dFinite_fields hu
  obtain ⟨hzero, hspecial⟩ := p2dFinite_normal hu
  obtain ⟨m, hm, hres⟩ := d2p_of_normal hzero hspecial
  have hsig : m = u.sig := BitVec.eq_of_toNat_eq <| by
    rw [hm, significand_p2dFinite hu, Nat.mul_div_cancel _ (Nat.two_pow_pos 21)]
  rw [hres, hsign, hexp, hsig, add_sub_cancel_right]

theorem dexpField_dblQnan {c : Config} (h : c.dblQnanOk = true) : dexpField c.dblQnan = 2047 := by
  obtain ⟨hexp, -⟩ := Bool.and_eq_true_iff.mp h
  exact congrArg BitVec.toNat (beq_iff_eq.mp hexp)

theorem d2p_p2d {c : Config} (hq : c.dblQnanOk = true) (p : Word) : d2p (p2d c.dblQnan p) = p := by
  obtain rfl | rfl | hp := posit_cases p
  · exact d2p_of_exp_zero (d := 0#64) rfl
  · exact d2p_of_special (dexpField_dblQnan hq)
  · rw [p2d_of_finite _ hp, d2p_p2dFinite (pdecode_inRange hp), pencode_pdecode hp]

/-- Settles O60: zero and NaR by lookup, a Finite posit by the fields it is given, which D2P encodes again. -/
theorem p2dIsExactAndD2pUndoesIt : Obligations.P2dIsExactAndD2pUndoesIt := by
  unfold Obligations.P2dIsExactAndD2pUndoesIt
  intro a b s p
  have hdone : Completes (.p2d a b) s (p2d s.cfg.dblQnan p) false := completes_of_valid (i := .p2d a b) rfl
  refine ⟨fun h => ?_, fun h => ?_, fun h => ⟨_, hdone, ?_⟩, fun hq => d2p_p2d hq p⟩
  · rwa [h] at hdone
  · rwa [h] at hdone
  · rw [p2d_of_finite _ h, dval_p2dFinite (pdecode_inRange h), pval_of_finite h]
    exact ⟨rfl, p2dFinite_normal (pdecode_inRange h)⟩

end Sys2Proof.Machine
end

section
/-! PROOFS. The invalid-operand table of spec/60_exceptions.md R221: the indicator of each command's result is 1 exactly
on the operands of its row (spec/42_float_ops.md R140 to R146, spec/44_posit_ops.md R180 to R186). -/

namespace Sys2Proof.Machine

/-! ### Float classes under negation -/

theorem isNan_eq_false {x : Word} : isNan x = false ↔ fclass x ≠ .nan := by simp [isNan]

theorem fordinal_fneg (x : Word) : fordinal (fneg x) = fordinal x := by
  rw [fordinal, fneg, BitVec.toNat_xor, Nat.xor_mod_two_pow]
  exact Nat.xor_zero _

@[simp] theorem isNan_fneg (x : Word) : isNan (fneg x) = isNan x := by
  rw [isNan, isNan, Bool.eq_iff_iff, beq_iff_eq, beq_iff_eq, fclass_nan_iff, fclass_nan_iff, fordinal_fneg]

@[simp] theorem isInf_fneg (x : Word) : isInf (fneg x) = isInf x := by
  rw [Bool.eq_iff_iff, isInf_iff, isInf_iff, fordinal_fneg]

@[simp] theorem signOf_fneg (x : Word) : signOf (fneg x) = !signOf x := by
  rw [signOf, fneg, BitVec.msb_xor]
  exact Bool.xor_true _

/-! ### A float command that is not invalid gives no NaN -/

theorem fMul_of_special {q x y t : Word} (h : fspecialMul q x y = some t) : fMul q x y = t := by
  rw [fMul, h]

theorem fAdd_ne_nan_of_normal (q : Word) {x y : Word} (hx : fclass x = .normal) (hy : fclass y = .normal) :
    fclass (fAdd q x y) ≠ .nan := by
  by_cases hsum : fval x + fval y = 0
  · rw [fAdd_of_cancel q hx hy hsum]
    simp
  · obtain ⟨hn, h⟩ := fAdd_of_sum_ne_zero q hx hy hsum (Rat.den_pos _) (abs_eq_natAbs_div_den _)
    rw [h]
    exact fclass_roundPack32_ne_nan _ hn (Rat.den_pos _)

/-- A valid cell of the addition table is an operand or a zero. -/
theorem fAdd_ne_nan (q : Word) {x y : Word}
    (h : (isNan x || isNan y || (isInf x && isInf y && signOf x != signOf y)) = false) :
    fclass (fAdd q x y) ≠ .nan := by
  simp only [Bool.or_eq_false_iff, isNan_eq_false] at h
  obtain ⟨⟨hx, hy⟩, hopposite⟩ := h
  obtain hxn | hxz | hxi := normal_or_isZero_or_isInf hx
  · obtain hyn | hyz | hyi := normal_or_isZero_or_isInf hy
    · exact fAdd_ne_nan_of_normal q hxn hyn
    · rwa [fAdd_of_special (fspecialAdd_zero_right q hxn hyz)]
    · rwa [fAdd_of_special (fspecialAdd_inf_right q (isFinite_of_normal hxn) hyi)]
  · obtain hyn | hyz | hyi := normal_or_isZero_or_isInf hy
    · rwa [fAdd_of_special (fspecialAdd_zero_left q hxz hyn)]
    · rw [fAdd_of_special (fspecialAdd_zeros q hxz hyz)]
      exact fclass_fZero_ne_nan _
    · rwa [fAdd_of_special (fspecialAdd_inf_right q (isFinite_of_isZero hxz) hyi)]
  · have hcell : (isFinite y || (isInf y && signOf x == signOf y)) = true := by
      obtain hyf | hyi := isFinite_or_isInf hy
      · simp [hyf]
      · have hs : signOf x = signOf y := by simpa [hxi, hyi] using hopposite
        simp [hyi, hs]
    rwa [fAdd_of_special (fspecialAdd_inf_left q hxi hcell)]

/-- A valid cell of the multiplication table is an infinity or a zero. -/
theorem fMul_ne_nan (q : Word) {x y : Word}
    (h : (isNan x || isNan y || (isZero x && isInf y) || (isInf x && isZero y)) = false) :
    fclass (fMul q x y) ≠ .nan := by
  simp only [Bool.or_eq_false_iff, isNan_eq_false] at h
  obtain ⟨⟨⟨hx, hy⟩, hzeroInf⟩, hinfZero⟩ := h
  have hinf (hc : ((isInf x && (isInf y || fclass y == .normal)) || (fclass x == .normal && isInf y)) = true) :
      fclass (fMul q x y) ≠ .nan := by
    rw [fMul_of_special (fspecialMul_inf q hc)]
    exact fclass_fInf_ne_nan _
  have hzero (hc : ((isZero x && isFinite y) || (fclass x == .normal && isZero y)) = true) :
      fclass (fMul q x y) ≠ .nan := by
    rw [fMul_of_special (fspecialMul_zero q hc)]
    exact fclass_fZero_ne_nan _
  obtain hxn | hxz | hxi := normal_or_isZero_or_isInf hx
  · obtain hyn | hyz | hyi := normal_or_isZero_or_isInf hy
    · obtain ⟨hn, hmul⟩ := fMul_of_normal q hxn hyn (Rat.den_pos _) (abs_eq_natAbs_div_den _)
      rw [hmul]
      exact fclass_roundPack32_ne_nan _ hn (Rat.den_pos _)
    · exact hzero (by simp [hxn, hyz])
    · exact hinf (by simp [hxn, hyi])
  · obtain hyf | hyi := isFinite_or_isInf hy
    · exact hzero (by simp [hxz, hyf])
    · simp [hxz, hyi] at hzeroInf
  · obtain hyn | hyz | hyi := normal_or_isZero_or_isInf hy
    · exact hinf (by simp [hxi, hyn])
    · simp [hxi, hyz] at hinfZero
    · exact hinf (by simp [hxi, hyi])

/-- A valid cell of the division table is an infinity or a zero. -/
theorem fDiv_ne_nan (q : Word) {x y : Word}
    (h : (isNan x || isNan y || (isZero x && isZero y) || (isInf x && isInf y)) = false) :
    fclass (fDiv q x y) ≠ .nan := by
  simp only [Bool.or_eq_false_iff, isNan_eq_false] at h
  obtain ⟨⟨⟨hx, hy⟩, hzeros⟩, hinfs⟩ := h
  have hinf (hc : ((isInf x && isFinite y) || (fclass x == .normal && isZero y)) = true) :
      fclass (fDiv q x y) ≠ .nan := by
    rw [fDiv_of_special (fspecialDiv_inf q hc)]
    exact fclass_fInf_ne_nan _
  have hzero (hc : ((isFinite x && isInf y) || (isZero x && fclass y == .normal)) = true) :
      fclass (fDiv q x y) ≠ .nan := by
    rw [fDiv_of_special (fspecialDiv_zero q hc)]
    exact fclass_fZero_ne_nan _
  obtain hxn | hxz | hxi := normal_or_isZero_or_isInf hx
  · obtain hyn | hyz | hyi := normal_or_isZero_or_isInf hy
    · obtain ⟨hn, hdiv⟩ := fDiv_of_normal q hxn hyn (Rat.den_pos _) (abs_eq_natAbs_div_den _)
      rw [hdiv]
      exact fclass_roundPack32_ne_nan _ hn (Rat.den_pos _)
    · exact hinf (by simp [hxn, hyz])
    · exact hzero (by simp [isFinite_of_normal hxn, hyi])
  · obtain hyn | hyz | hyi := normal_or_isZero_or_isInf hy
    · exact hzero (by simp [hxz, hyn])
    · simp [hxz, hyz] at hzeros
    · exact hzero (by simp [isFinite_of_isZero hxz, hyi])
  · obtain hyf | hyi := isFinite_or_isInf hy
    · exact hinf (by simp [hxi, hyf])
    · simp [hxi, hyi] at hinfs

/-- A valid radicand is its own root or a positive Normal, whose iterates are no NaN. -/
theorem fSqrt_ne_nan (q : Word) {x : Word} (h : (isNan x || (signOf x && !isZero x)) = false) :
    fclass (fSqrt q x) ≠ .nan := by
  simp only [Bool.or_eq_false_iff, isNan_eq_false] at h
  obtain ⟨hx, hnegative⟩ := h
  obtain hxn | hxz | hxi := normal_or_isZero_or_isInf hx
  · have hs : signOf x = false := by simpa [isZero, hxn] using hnegative
    obtain ⟨k, -, hloop, -⟩ := fsqrtLoop_cases q x 100 (fsqrtGuess x)
    rw [fSqrt_of_positive q hxn hs, hloop]
    exact (fNonneg_iterate q hxn hs k).2
  · rwa [fSqrt_eq_self q (.inr hxz)]
  · obtain rfl | rfl := isInf_cases hxi
    · rwa [fSqrt_eq_self q (.inl rfl)]
    · simp [isZero] at hnegative

/-! ### The rows of the float commands -/

/-- A result that is FLT_QNAN on the operands of a row, and no NaN off them, has the row for its indicator. -/
theorem floatInv_eq {c : Config} (hq : c.fltQnanOk = true) {r : Word} {row : Bool}
    (hinvalid : row = true → r = c.fltQnan) (hvalid : row = false → fclass r ≠ .nan) : floatInv c r = row := by
  cases row with
  | true => exact beq_iff_eq.mpr (hinvalid rfl)
  | false => exact beq_false_of_ne fun h => hvalid rfl (h ▸ fclass_fltQnan hq)

theorem floatInv_fAdd {c : Config} (hq : c.fltQnanOk = true) (x y : Word) :
    floatInv c (fAdd c.fltQnan x y) = (isNan x || isNan y || (isInf x && isInf y && signOf x != signOf y)) :=
  floatInv_eq hq (fun h => fAdd_of_special (fspecialAdd_invalid _ h)) (fAdd_ne_nan _)

/-- Opposite signs after the negation are equal signs before it. -/
theorem floatInv_fSub {c : Config} (hq : c.fltQnanOk = true) (x y : Word) :
    floatInv c (fSub c.fltQnan x y) = (isNan x || isNan y || (isInf x && isInf y && signOf x == signOf y)) := by
  rw [fSub, floatInv_fAdd hq, isNan_fneg, isInf_fneg, signOf_fneg, Bool.bne_not, bne, Bool.not_not]

theorem floatInv_fMul {c : Config} (hq : c.fltQnanOk = true) (x y : Word) :
    floatInv c (fMul c.fltQnan x y) = (isNan x || isNan y || (isZero x && isInf y) || (isInf x && isZero y)) :=
  floatInv_eq hq (fun h => fMul_of_special (fspecialMul_invalid _ h)) (fMul_ne_nan _)

theorem floatInv_fDiv {c : Config} (hq : c.fltQnanOk = true) (x y : Word) :
    floatInv c (fDiv c.fltQnan x y) = (isNan x || isNan y || (isZero x && isZero y) || (isInf x && isInf y)) :=
  floatInv_eq hq (fun h => fDiv_of_special (fspecialDiv_invalid _ h)) (fDiv_ne_nan _)

theorem floatInv_fSqrt {c : Config} (hq : c.fltQnanOk = true) (x : Word) :
    floatInv c (fSqrt c.fltQnan x) = (isNan x || (signOf x && !isZero x)) :=
  floatInv_eq hq (fSqrt_invalid _) (fSqrt_ne_nan _)

/-! ### The rows of the posit commands -/

theorem beq_pZero (p : Word) : (p == pZero) = (pclass p == .zero) := by
  rw [Bool.eq_iff_iff, beq_iff_eq, beq_iff_eq, pclass_eq_zero]

theorem beq_pNaR (p : Word) : (p == pNaR) = (pclass p == .nar) := by
  rw [Bool.eq_iff_iff, beq_iff_eq, beq_iff_eq, pclass_eq_nar]

theorem pAdd_inv (x y : Word) : (pAdd x y).inv = (x == pNaR && y == pNaR) := by
  rw [beq_pNaR, beq_pNaR]
  unfold pAdd pspecialAdd
  cases pclass x <;> cases pclass y <;> rfl

theorem pSub_inv (x y : Word) : (pSub x y).inv = (x == pNaR && y == pNaR) := by
  obtain ⟨-, -, hneg⟩ := positNegationKeepsExponentAndSignificand
  obtain ⟨hclass, -⟩ := hneg y
  rw [pSub, pAdd_inv, beq_pNaR (pneg y), hclass, ← beq_pNaR]

theorem pMul_inv (x y : Word) : (pMul x y).inv = ((x == pNaR && y == pZero) || (x == pZero && y == pNaR)) := by
  rw [beq_pNaR, beq_pNaR, beq_pZero, beq_pZero]
  unfold pMul pspecialMul
  cases pclass x <;> cases pclass y <;> rfl

theorem pDiv_inv (x y : Word) : (pDiv x y).inv = ((x == pZero && y == pZero) || (x == pNaR && y == pNaR)) := by
  rw [beq_pNaR, beq_pNaR, beq_pZero, beq_pZero]
  unfold pDiv pspecialDiv
  cases pclass x <;> cases pclass y <;> rfl

theorem pSqrt_inv (x : Word) : (pSqrt x).inv = (pclass x == .finite && signOf x) := by
  unfold pSqrt
  cases pclass x <;> cases signOf x <;> rfl

/-! ### The whole table -/

/-- R221: Execute's indicator is 1 exactly on the invalid operands. -/
theorem resultOf_inv {c : Config} (hq : c.fltQnanOk = true) (i : Instr) : (resultOf c i).inv = invalidOperands i := by
  cases i with
  | fadd a b => exact floatInv_fAdd hq _ _
  | fsub a b => exact floatInv_fSub hq _ _
  | fmul a b => exact floatInv_fMul hq _ _
  | fdiv a b => exact floatInv_fDiv hq _ _
  | fsqrt a b => exact floatInv_fSqrt hq _
  | padd a b => exact pAdd_inv _ _
  | psub a b => exact pSub_inv _ _
  | pmul a b => exact pMul_inv _ _
  | pdiv a b => exact pDiv_inv _ _
  | psqrt a b => exact pSqrt_inv _
  | i2f | f2i | i2p | p2i | f2p | p2f | d2p | p2d => rfl

end Sys2Proof.Machine
end

section
/-! PROOFS. The statements of spec/60_exceptions.md: completion and the InvalidTrap (R220 to R222, R226), the step's two
exceptions (R223 to R228), and the invariant of the fault record. -/

namespace Sys2Proof.Machine

/-! ### How an instruction ends (R220 to R222, R226) -/

theorem extractLsb'_zext64 (x : Word) : (zext64 x).extractLsb' 32 32 = 0#32 := by
  ext k hk
  simp [zext64]

theorem zext64_injective : Function.Injective zext64 := fun x y h => by
  simpa [zext64] using congrArg (BitVec.setWidth 32) h

/-- Every command but P2D has a 32-bit result (10_state.md R22). -/
theorem resultOf_upper_zero {i : Instr} (h : i.shape ≠ .rw) (c : Config) :
    (resultOf c i).r.extractLsb' 32 32 = 0#32 := by
  cases i with
  | p2d => exact absurd rfl h
  | _ => exact extractLsb'_zext64 _

/-- Settles O14: the completion rule ends every instruction, by the trap or by its result. -/
theorem everyInstructionCompletesOrTraps : Obligations.EveryInstructionCompletesOrTraps := by
  unfold Obligations.EveryInstructionCompletesOrTraps
  intro i s
  cases hinv : (resultOf s.cfg i).inv with
  | false => exact .inl ⟨_, _, completes_of_valid hinv, by simp, (resultOf_upper_zero · _)⟩
  | true =>
    cases htrap : s.cfg.trapOnInvalid with
    | false => exact .inl ⟨_, _, completes_of_silent htrap, fun _ => rfl, (resultOf_upper_zero · _)⟩
    | true => exact .inr ⟨traps_of_invalid hinv htrap, rfl⟩

/-- Settles O15: off the invalid operands the indicator is 0. -/
theorem validOperandsCompleteInEitherMode : Obligations.ValidOperandsCompleteInEitherMode :=
  fun i _ hq h => ⟨_, completes_of_valid ((resultOf_inv hq i).trans h)⟩

/-- Settles O17: on the invalid operands the indicator is 1. -/
theorem invalidOperandsTrapInTrapMode : Obligations.InvalidOperandsTrapInTrapMode :=
  fun i _ hq htrap h => traps_of_invalid ((resultOf_inv hq i).trans h) htrap

/-- A float arithmetic command's indicator compares its result with FLT_QNAN. -/
theorem exists_resultOf_eq_floatResult {i : Instr} (c : Config)
    (h : ∃ a b, i = .fadd a b ∨ i = .fsub a b ∨ i = .fmul a b ∨ i = .fdiv a b ∨ i = .fsqrt a b) :
    ∃ t, resultOf c i = floatResult c t := by
  obtain ⟨a, b, rfl | rfl | rfl | rfl | rfl⟩ := h <;> exact ⟨_, rfl⟩

/-- Settles O16: the indicator is the table's row, and for a float arithmetic command it compares the result with
FLT_QNAN, which zero extension keeps apart from every other pattern. -/
theorem invFollowsTheInvalidOperandTable : Obligations.InvFollowsTheInvalidOperandTable := by
  unfold Obligations.InvFollowsTheInvalidOperandTable
  intro i s hq hoff
  rw [← resultOf_inv hq i]
  refine ⟨_, completes_of_silent hoff, fun hfloat => ?_⟩
  obtain ⟨t, ht⟩ := exists_resultOf_eq_floatResult s.cfg hfloat
  rw [ht]
  exact beq_iff_eq.trans zext64_injective.eq_iff.symm

/-! ### The step on each of the host's moves (R224, R228; 70_reset_and_hazards.md R240, R245) -/

theorem step_of_no_move {s : State} (h : s.inputs = []) : step s = .next s := by
  rw [step, h]

theorem step_of_rst {s : State} {rest : List HostMove} (h : s.inputs = .rst :: rest) :
    step s = .next (s.applyReset rest) := by
  rw [step, h]

theorem step_of_not_ready {s : State} {c : Command} {rest : List HostMove} (h : s.inputs = .start c :: rest)
    (hr : s.ready = false) : step s = .next (s.ignoreStart rest) := by
  simp [step, h, hr]

theorem step_of_reserved {s : State} {c : Command} {rest : List HostMove} (h : s.inputs = .start c :: rest)
    (hr : s.ready = true) (hw : c.wellFormed = false) : step s = .next (raiseIllegalCommand c (s.accept rest)) := by
  simp [step, h, hr, (decode_reserved_iff_not_wellFormed c).mpr hw]

theorem not_ready_of_fault {s : State} (h : s.fault = true) : s.ready = false := by
  simp [State.ready, h]

/-- Settles O4: the arm of the step for an accepted command that decodes. -/
theorem stepRunsTheAcceptedCommand : Obligations.StepRunsTheAcceptedCommand := by
  unfold Obligations.StepRunsTheAcceptedCommand
  intro s c rest i hr hi hd
  rw [step_of_decode hi hr hd, exec_eq_complete, encode_of_decode hd]
  rfl

/-- Settles O5: a reserved OP is one the decoder rejects. -/
theorem reservedCommandRaisesIllegalCommand : Obligations.ReservedCommandRaisesIllegalCommand :=
  fun _ _ _ hr hi hw => step_of_reserved hi hr hw

/-- Settles O6: FAULT = 1 takes READY away, so a START is ignored, and RST is taken in every state. -/
theorem faultedStateIsLeftOnlyByReset : Obligations.FaultedStateIsLeftOnlyByReset := by
  unfold Obligations.FaultedStateIsLeftOnlyByReset
  intro s h
  have hr : s.ready = false := not_ready_of_fault h
  exact ⟨hr, by simp [State.endsNormally, h], step_of_no_move, fun _ _ hi => step_of_not_ready hi hr,
    fun _ => step_of_rst⟩

/-! ### A step told by the operands -/

/-- The cases of a step with the completion rule resolved by the invalid-operand table: no move, reset, an ignored
START, an InvalidTrap, a normal completion, an IllegalCommand (R220 to R228). -/
theorem step_cases_by_operands {s t : State} (hq : s.cfg.fltQnanOk = true) (h : step s = .next t) :
    (s.inputs = [] ∧ t = s) ∨
    (∃ rest, s.inputs = .rst :: rest ∧ t = s.applyReset rest) ∨
    (∃ c rest, s.inputs = .start c :: rest ∧ s.ready = false ∧ t = s.ignoreStart rest) ∨
    (∃ c rest i, s.inputs = .start c :: rest ∧ s.ready = true ∧ decode c = .instr i ∧
      invalidOperands i = true ∧ s.cfg.trapOnInvalid = true ∧ t = raiseInvalidTrap c (s.accept rest)) ∨
    (∃ c rest i, s.inputs = .start c :: rest ∧ s.ready = true ∧ decode c = .instr i ∧
      (invalidOperands i = false ∨ s.cfg.trapOnInvalid = false) ∧
      t = completeNormally (resultOf s.cfg i) (s.accept rest)) ∨
    (∃ c rest, s.inputs = .start c :: rest ∧ s.ready = true ∧ c.wellFormed = false ∧
      t = raiseIllegalCommand c (s.accept rest)) := by
  obtain hidle | hrst | hignored | ⟨c, rest, i, hi, hr, hd, ht⟩ | ⟨c, rest, hi, hr, hd, ht⟩ := step_cases h
  · exact .inl hidle
  · exact .inr (.inl hrst)
  · exact .inr (.inr (.inl hignored))
  · have hcases := complete_cases c (resultOf s.cfg i) (s.accept rest)
    rw [resultOf_inv hq, ← ht] at hcases
    obtain ⟨hinv, htrap, ht⟩ | ⟨hvalid, ht⟩ := hcases
    · exact .inr (.inr (.inr (.inl ⟨c, rest, i, hi, hr, hd, hinv, htrap, ht⟩)))
    · exact .inr (.inr (.inr (.inr (.inl ⟨c, rest, i, hi, hr, hd, hvalid, ht⟩))))
  · exact .inr (.inr (.inr (.inr (.inr ⟨c, rest, hi, hr, (decode_reserved_iff_not_wellFormed c).mp hd, ht⟩))))

/-! ### The two exceptions (R223) -/

theorem step_of_invalid {s : State} {c : Command} {rest : List HostMove} {i : Instr} (hq : s.cfg.fltQnanOk = true)
    (hi : s.inputs = .start c :: rest) (hr : s.ready = true) (hd : decode c = .instr i)
    (hinv : invalidOperands i = true) (htrap : s.cfg.trapOnInvalid = true) :
    step s = .next (raiseInvalidTrap c (s.accept rest)) := by
  rw [step_of_decode hi hr hd]
  exact congrArg _ (complete_of_trap (s := s.accept rest) ((resultOf_inv hq i).trans hinv) htrap)

/-- A step that raises FAULT accepted a command and took one of the two exceptions. -/
theorem exception_of_fault {s t : State} (hq : s.cfg.fltQnanOk = true) (hs : s.fault = false)
    (h : step s = .next t) (hfault : t.fault = true) :
    ∃ c rest, s.inputs = .start c :: rest ∧ s.ready = true ∧
      ((∃ i, decode c = .instr i ∧ invalidOperands i = true ∧ s.cfg.trapOnInvalid = true ∧
        t = raiseInvalidTrap c (s.accept rest)) ∨
      (c.wellFormed = false ∧ t = raiseIllegalCommand c (s.accept rest))) := by
  obtain ⟨-, rfl⟩ | ⟨rest, -, rfl⟩ | ⟨c, rest, -, -, rfl⟩ | ⟨c, rest, i, hi, hr, htrap⟩ |
    ⟨c, rest, i, -, -, -, -, rfl⟩ | ⟨c, rest, hi, hr, hillegal⟩ := step_cases_by_operands hq h
  · simp [hs] at hfault
  · simp at hfault
  · simp [hs] at hfault
  · exact ⟨c, rest, hi, hr, .inl ⟨i, htrap⟩⟩
  · simp [hs] at hfault
  · exact ⟨c, rest, hi, hr, .inr hillegal⟩

/-- Settles O11: a step that raises FAULT took one of the two exceptions, and each of the two raises it with its own
report. -/
theorem faultRisesExactlyOnTheTwoExceptions : Obligations.FaultRisesExactlyOnTheTwoExceptions := by
  unfold Obligations.FaultRisesExactlyOnTheTwoExceptions
  intro s t hq hs h
  refine ⟨⟨fun hfault => ?_, ?_⟩, fun hfault c' rest' hi' => ?_⟩
  · obtain ⟨c, rest, hi, hr, hcause⟩ := exception_of_fault hq hs h hfault
    obtain ⟨hbusy, -⟩ := (ready_iff s).mp hr
    obtain ⟨i, hd, hinv, htrap, -⟩ | ⟨hw, -⟩ := hcause
    · exact ⟨hbusy, c, rest, hi, .inl ⟨i, hd, hinv, htrap⟩⟩
    · exact ⟨hbusy, c, rest, hi, .inr hw⟩
  · rintro ⟨hbusy, c, rest, hi, hcause⟩
    have hr : s.ready = true := (ready_iff s).mpr ⟨hbusy, hs⟩
    obtain ⟨i, hd, hinv, htrap⟩ | hw := hcause
    · rw [step_of_invalid hq hi hr hd hinv htrap] at h
      cases h
      rfl
    · rw [step_of_reserved hi hr hw] at h
      cases h
      rfl
  · obtain ⟨c, rest, hi, -, hcause⟩ := exception_of_fault hq hs h hfault
    obtain ⟨rfl, rfl⟩ : c = c' ∧ rest = rest' := by simpa [hi] using hi'
    obtain ⟨i, hd, -, -, rfl⟩ | ⟨hw, rfl⟩ := hcause
    · exact ⟨rfl, rfl, rfl, .inl ⟨(wellFormed_iff_exists_instr c).mpr ⟨i, hd⟩, rfl, rfl⟩⟩
    · exact ⟨rfl, rfl, rfl, .inr ⟨hw, rfl⟩⟩

/-! ### The invariant of the fault record, operation by operation -/

theorem fltQnanOk_of_wf {c : Config} (h : c.wf = true) : c.fltQnanOk = true := (Bool.and_eq_true_iff.mp h).1

/-- INV = 1 in trap mode needs CAUSE = 1, and a block without a fault has CAUSE = 0. -/
theorem Inv.inv_eq_false {s : State} (h : Inv s) (hs : s.fault = false) (htrap : s.cfg.trapOnInvalid = true) :
    s.inv = false := by
  obtain ⟨hcause, -⟩ := h.clean hs
  exact Bool.eq_false_iff.mpr fun hinv => absurd (hcause.symm.trans (h.trapModeInv htrap hinv)) (by decide)

theorem Inv.applyReset {s : State} (h : Inv s) (rest : List HostMove) : Inv (s.applyReset rest) where
  notBusy := rfl
  params := h.params
  clean := fun _ => ⟨rfl, rfl, rfl, rfl⟩
  named := by simp
  trapReport := by simp
  illegalReport := by simp
  trapModeInv := by simp

/-- The list of the host's moves is no part of the invariant. -/
theorem Inv.ignoreStart {s : State} (h : Inv s) (rest : List HostMove) : Inv (s.ignoreStart rest) :=
  ⟨h.notBusy, h.params, h.clean, h.named, h.trapReport, h.illegalReport, h.trapModeInv⟩

/-- Normal completion of an unfaulted block keeps the empty record, and leaves INV = 1 only with the trap mode off. -/
theorem Inv.completeNormally {s : State} (h : Inv s) (hs : s.fault = false) {o : Result} (rest : List HostMove)
    (hvalid : o.inv = false ∨ s.cfg.trapOnInvalid = false) : Inv (completeNormally o (s.accept rest)) where
  notBusy := rfl
  params := h.params
  clean := h.clean
  named := h.named
  trapReport := by simp [(h.clean hs).1]
  illegalReport := h.illegalReport
  trapModeInv := by
    intro htrap hinv
    obtain hvalid | hoff := hvalid
    · exact absurd hinv (Bool.eq_false_iff.mp hvalid)
    · exact absurd htrap (Bool.eq_false_iff.mp hoff)

/-- The trap's own report: an invalid command in trap mode. -/
theorem Inv.raiseInvalidTrap {s : State} (h : Inv s) {c : Command} {i : Instr} (rest : List HostMove)
    (hd : decode c = .instr i) (hinv : invalidOperands i = true) (htrap : s.cfg.trapOnInvalid = true) :
    Inv (raiseInvalidTrap c (s.accept rest)) where
  notBusy := rfl
  params := h.params
  clean := by simp
  named := fun _ => .inl rfl
  trapReport := fun _ => ⟨htrap, rfl, i, hd, hinv⟩
  illegalReport := by simp
  trapModeInv := fun _ _ => rfl

/-- The rejection's own report: a reserved OP. INV is kept, and before the command INV = 1 needed the trap mode off. -/
theorem Inv.raiseIllegalCommand {s : State} (h : Inv s) (hs : s.fault = false) {c : Command} (rest : List HostMove)
    (hw : c.wellFormed = false) : Inv (raiseIllegalCommand c (s.accept rest)) where
  notBusy := rfl
  params := h.params
  clean := by simp
  named := fun _ => .inr rfl
  trapReport := by simp
  illegalReport := fun _ => hw
  trapModeInv := fun htrap hinv => absurd hinv (Bool.eq_false_iff.mp (h.inv_eq_false hs htrap))

/-- Settles O13: the invariant is kept by what each case of the step does. A command is accepted by an unfaulted block
only, whose record is empty. -/
theorem everyStepKeepsTheFaultRecordInvariant : Obligations.EveryStepKeepsTheFaultRecordInvariant := by
  unfold Obligations.EveryStepKeepsTheFaultRecordInvariant
  intro s t h hstep
  have hq : s.cfg.fltQnanOk = true := fltQnanOk_of_wf h.params
  obtain ⟨-, rfl⟩ | ⟨rest, -, rfl⟩ | ⟨c, rest, -, -, rfl⟩ | ⟨c, rest, i, -, -, hd, hinv, htrap, rfl⟩ |
    ⟨c, rest, i, -, hr, -, hvalid, rfl⟩ | ⟨c, rest, -, hr, hw, rfl⟩ := step_cases_by_operands hq hstep
  · exact h
  · exact h.applyReset rest
  · exact h.ignoreStart rest
  · exact h.raiseInvalidTrap rest hd hinv htrap
  · obtain ⟨-, hs⟩ := (ready_iff s).mp hr
    exact h.completeNormally hs rest (by rwa [resultOf_inv hq])
  · obtain ⟨-, hs⟩ := (ready_iff s).mp hr
    exact h.raiseIllegalCommand hs rest hw

end Sys2Proof.Machine
end

section
/-! PROOFS. The statements of spec/70_reset_and_hazards.md: reset (R240), the step that never hangs (R249), and the runs
of a command list (R252, R254). -/

namespace Sys2Proof.Machine

/-! ### Reset (R240) -/

/-- Settles O7: RST is taken in every state, and applyReset keeps the build parameters and the later moves only. -/
theorem resetFromAnyState : Obligations.ResetFromAnyState := by
  unfold Obligations.ResetFromAnyState
  intro s rest hi
  exact ⟨s.applyReset rest, step_of_rst hi, rfl, rfl, rfl, rfl, rfl, rfl, rfl, rfl, rfl, rfl, rfl⟩

/-! ### Every step answers a next state (R249) -/

/-- The two answers to an accepted command: its completion, or IllegalCommand (60_exceptions.md R224). -/
theorem step_of_accepted {s : State} {c : Command} {rest : List HostMove} (hi : s.inputs = .start c :: rest)
    (hr : s.ready = true) :
    (∃ i, decode c = .instr i ∧ step s = .next (complete c (resultOf s.cfg i) (s.accept rest))) ∨
    step s = .next (raiseIllegalCommand c (s.accept rest)) := by
  obtain ⟨i, hd, -⟩ | hd := decode_cases c
  · exact .inl ⟨i, hd, step_of_decode hi hr hd⟩
  · exact .inr (step_of_reserved hi hr ((decode_reserved_iff_not_wellFormed c).mp hd))

/-- Each of the host's moves has an effect: the step neither faults nor refuses. -/
theorem exists_step_eq_next (s : State) : ∃ t, step s = .next t := by
  match hi : s.inputs with
  | [] => exact ⟨_, step_of_no_move hi⟩
  | .rst :: _ => exact ⟨_, step_of_rst hi⟩
  | .start c :: _ =>
    cases hr : s.ready with
    | false => exact ⟨_, step_of_not_ready hi hr⟩
    | true =>
      obtain ⟨i, -, h⟩ | h := step_of_accepted hi hr <;> exact ⟨_, h⟩

/-- No step changes a build parameter (R243). -/
theorem cfg_of_step {s t : State} (h : step s = .next t) : t.cfg = s.cfg := by
  obtain ⟨-, rfl⟩ | ⟨_, -, rfl⟩ | ⟨_, _, -, -, rfl⟩ | ⟨_, _, _, -, -, -, rfl⟩ | ⟨_, _, -, -, -, rfl⟩ := step_cases h
  · rfl
  · rfl
  · rfl
  · simp
  · rfl

/-- A step from BUSY = 0 ends with BUSY = 0: an accepted command runs to its end inside the step (R246). -/
theorem busy_of_step {s t : State} (h : step s = .next t) (hs : s.busy = false) : t.busy = false := by
  obtain ⟨-, rfl⟩ | ⟨_, -, rfl⟩ | ⟨_, _, -, -, rfl⟩ | ⟨_, _, _, -, -, -, rfl⟩ | ⟨_, _, -, -, -, rfl⟩ := step_cases h
  · exact hs
  · rfl
  · exact hs
  · simp
  · rfl

/-- Settles O10: the answer exists for every move, and the step's cases give what it keeps. -/
theorem everyStepAnswersANextState : Obligations.EveryStepAnswersANextState := by
  unfold Obligations.EveryStepAnswersANextState
  intro s
  obtain ⟨t, h⟩ := exists_step_eq_next s
  refine ⟨t, h, busy_of_step h, cfg_of_step h, fun hi => ?_, fun c rest hr hi => ?_⟩
  · cases h.symm.trans (step_of_no_move hi)
    rfl
  · cases h.symm.trans (step_of_not_ready hi hr)
    rfl

/-! ### Runs of a list of commands (R252) -/

theorem load_eq_self {s : State} {cs : List Command} (h : s.inputs = cs.map .start) : s.load cs = s := by
  rw [State.load, ← h]

theorem runSteps_succ {s t : State} (h : step s = .next t) (k : ℕ) : runSteps (k + 1) s = runSteps k t := by
  have hcore : Sys2Proof.core.step s = .next t := h
  change Host.Core.run Sys2Proof.core (k + 1) s = Host.Core.run Sys2Proof.core k t
  simp only [Host.Core.run, hcore]

/-- A block that is not ready lets a list of commands pass without a change (R245). -/
theorem runSteps_load_of_not_ready {s : State} (hr : s.ready = false) (cs : List Command) :
    runSteps cs.length (s.load cs) = .next (s.load []) := by
  induction cs with
  | nil => rfl
  | cons c cs ih =>
    have hstep : step (s.load (c :: cs)) = .next (s.load cs) := step_of_not_ready rfl hr
    exact (runSteps_succ hstep cs.length).trans ih

/-- Settles O20: FAULT = 1 takes READY away, so every later START is ignored. -/
theorem commandsAfterAFaultChangeNothing : Obligations.CommandsAfterAFaultChangeNothing := by
  unfold Obligations.CommandsAfterAFaultChangeNothing
  intro s cs h
  exact ⟨runSteps_load_of_not_ready (not_ready_of_fault h) cs, by simp [State.endsNormally, h]⟩

/-! ### Fault-free runs (R254) -/

/-- Accepting a command uses up its START, and the command has ended when the step has (R245, R246). -/
theorem busy_and_inputs_of_accepted {s t : State} {c : Command} {rest : List HostMove} (h : step s = .next t)
    (hi : s.inputs = .start c :: rest) (hr : s.ready = true) : t.busy = false ∧ t.inputs = rest := by
  obtain ⟨i, -, hstep⟩ | hstep := step_of_accepted hi hr
  · cases h.symm.trans hstep
    simp
  · cases h.symm.trans hstep
    exact ⟨rfl, rfl⟩

/-- The step on an accepted command whose indicator does not trap. -/
theorem step_of_completing {s : State} {c : Command} {rest : List HostMove} {i : Instr}
    (hi : s.inputs = .start c :: rest) (hr : s.ready = true) (hd : decode c = .instr i)
    (hvalid : (resultOf s.cfg i).inv = false ∨ s.cfg.trapOnInvalid = false) :
    step s = .next (completeNormally (resultOf s.cfg i) (s.accept rest)) := by
  rw [step_of_decode hi hr hd, hvalid.elim complete_of_valid (complete_of_silent (s := s.accept rest))]

/-- An accepted command that ends with FAULT = 0 completed normally: the other two ends raise FAULT. -/
theorem completes_of_unfaulted {s t : State} {c : Command} {rest : List HostMove} (h : step s = .next t)
    (hi : s.inputs = .start c :: rest) (hr : s.ready = true) (hfault : t.fault = false) :
    ∃ i, decode c = .instr i ∧ ((resultOf s.cfg i).inv = false ∨ s.cfg.trapOnInvalid = false) ∧
      t = completeNormally (resultOf s.cfg i) (s.accept rest) := by
  obtain ⟨i, hd, hstep⟩ | hstep := step_of_accepted hi hr
  · cases h.symm.trans hstep
    obtain ⟨-, -, htrap⟩ | ⟨hvalid, hnormal⟩ := complete_cases c (resultOf s.cfg i) (s.accept rest)
    · simp [htrap] at hfault
    · exact ⟨i, hd, hvalid, hnormal⟩
  · cases h.symm.trans hstep
    simp at hfault

/-- A command that ends with FAULT = 0 does so from every ready state with the same build parameters, with the same RES
and INV: they are functions of the build parameters and the command alone. -/
theorem step_congr_of_unfaulted {s s' t : State} {c : Command} {rest rest' : List HostMove}
    (h : step s = .next t) (hi : s.inputs = .start c :: rest) (hr : s.ready = true) (hfault : t.fault = false)
    (hi' : s'.inputs = .start c :: rest') (hr' : s'.ready = true) (hcfg : s'.cfg = s.cfg) :
    ∃ u, step s' = .next u ∧ u.fault = false ∧ u.res = t.res ∧ u.inv = t.inv := by
  obtain ⟨i, hd, hvalid, rfl⟩ := completes_of_unfaulted h hi hr hfault
  obtain ⟨-, hs'⟩ := (ready_iff s').mp hr'
  rw [← hcfg] at hvalid
  exact ⟨_, step_of_completing hi' hr' hd hvalid, by simpa using hs', by simp [hcfg], by simp [hcfg]⟩

/-- In a run without a fault the last command is taken by a ready block with the build parameters of the first: a fault
on the way would last to the end. -/
theorem exists_last_step_of_unfaulted_run {s t : State} {cs : List Command} {c : Command} (hr : s.ready = true)
    (hrun : runSteps (cs.length + 1) (s.load (cs ++ [c])) = .next t) (hfault : t.fault = false) :
    ∃ v : State, v.ready = true ∧ v.cfg = s.cfg ∧ step (v.load [c]) = .next t := by
  induction cs generalizing s with
  | nil =>
    obtain ⟨u, hu⟩ := exists_step_eq_next (s.load [c])
    have hut : Host.Outcome.next u = .next t := (runSteps_succ hu 0).symm.trans hrun
    exact ⟨s, hr, rfl, hu.trans hut⟩
  | cons d ds ih =>
    obtain ⟨u, hu⟩ := exists_step_eq_next (s.load (d :: (ds ++ [c])))
    obtain ⟨hbusy, hinputs⟩ := busy_and_inputs_of_accepted hu rfl hr
    have hrest : runSteps (ds.length + 1) (u.load (ds ++ [c])) = .next t := by
      rw [load_eq_self hinputs, ← hrun]
      exact (runSteps_succ hu _).symm
    cases hf : u.fault with
    | false =>
      obtain ⟨v, hv, hcfg, hlast⟩ := ih ((ready_iff u).mpr ⟨hbusy, hf⟩) hrest
      exact ⟨v, hv, hcfg.trans (cfg_of_step (s := s.load _) hu), hlast⟩
    | true =>
      have hpass := runSteps_load_of_not_ready (not_ready_of_fault hf) (ds ++ [c])
      rw [List.length_append, List.length_singleton, hrest] at hpass
      cases hpass
      simp [hf] at hfault

/-- Settles O19: the last command is accepted in a state with the first one's build parameters, which alone decide its
result. -/
theorem faultFreeRunGivesPerCommandResults : Obligations.FaultFreeRunGivesPerCommandResults := by
  unfold Obligations.FaultFreeRunGivesPerCommandResults
  intro s t cs c hr hrun hfault
  obtain ⟨v, hv, hcfg, hlast⟩ := exists_last_step_of_unfaulted_run hr hrun hfault
  obtain ⟨hbusy, hinputs⟩ := busy_and_inputs_of_accepted hlast rfl hv
  exact ⟨by simp [State.endsNormally, hinputs, hfault], (ready_iff t).mpr ⟨hbusy, hfault⟩,
    step_congr_of_unfaulted hlast rfl hv hfault rfl rfl hcfg.symm⟩

end Sys2Proof.Machine
end
